-- ==== Sys2Proof/Word.lean ====
section
/-! DEFINITION. The word types of the codec core: bytes (symbols), 32-bit words (registers, weights,
tags, response values), 64-bit command words, and codes (bit sequences). -/

namespace Sys2Proof

/-- A byte; also a Symbol, "a byte value, domain 0-255" (R9). -/
abbrev Byte := BitVec 8

/-- A 32-bit word: the width of weights, frequencies, lengths and tags (R8, `W`). -/
abbrev Word := BitVec 32

/-- A command word (R60). -/
abbrev CmdWord := BitVec 64

/-- A Code (R12): a finite sequence of bits, first bit sent first. `[]` means "no entry". -/
abbrev Code := List Bool

end Sys2Proof
end

