-- ==== Sys2Proof/Syntax.lean ====
section
/-! DEFINITION. The 18 commands of R63, one constructor per row of spec/opcode_table.json. Element
addresses, `max_len` and `n` are unsigned numbers used as they are (R61); their field widths are
checked in WellFormed.lean. Store data of a word space is a 32-bit word; the datum of `ST.PLAIN` and
`ST.CODED` is the whole field `d`, whose upper bits the command itself checks (R129). -/

namespace Sys2Proof

/-- The commands of R63. -/
inductive Instr where
  /-- `NOP` (R123) -/
  | nop
  /-- `HIST` (R69) -/
  | hist
  /-- `BUILD` (R73) -/
  | build
  /-- `ENC` (R84) -/
  | enc
  /-- `DEC` (R93) -/
  | dec
  /-- `FCLR` (R107) -/
  | fclr
  /-- `RDREC max_len` (R109) -/
  | rdrec (maxLen : Nat)
  /-- `RDEX n` (R118) -/
  | rdex (n : Nat)
  /-- `LD.CSR addr` (R125) -/
  | ldCsr (addr : Nat)
  /-- `LD.PLAIN addr` (R125) -/
  | ldPlain (addr : Nat)
  /-- `LD.CODED addr` (R125) -/
  | ldCoded (addr : Nat)
  /-- `LD.REC addr` (R125) -/
  | ldRec (addr : Nat)
  /-- `LD.FREQ addr` (R125) -/
  | ldFreq (addr : Nat)
  /-- `LD.CODE addr` (R125) -/
  | ldCode (addr : Nat)
  /-- `ST.CSR addr, data` (R129) -/
  | stCsr (addr : Nat) (data : Word)
  /-- `ST.PLAIN addr, data` (R129) -/
  | stPlain (addr : Nat) (data : Word)
  /-- `ST.CODED addr, data` (R129) -/
  | stCoded (addr : Nat) (data : Word)
  /-- `ST.FREQ addr, data` (R129) -/
  | stFreq (addr : Nat) (data : Word)
  deriving DecidableEq, Repr

end Sys2Proof
end

