-- ==== Sys2Proof/WellFormed.lean ====
section
/-! DEFINITION. Which commands can be written as a command word: every operand fits its field (R60,
R61). Range checks against a space or a capacity are the command's own (R65) and are not here. -/

namespace Sys2Proof

/-- An element address fits the 24-bit field `a` (R60). -/
abbrev fitsA (addr : Nat) : Prop := addr < 2 ^ 24

/-- An unsigned operand fits the 32-bit field `d` (R60). -/
abbrev fitsD (v : Nat) : Prop := v < 2 ^ 32

/-- The command's operands fit the fields of the command word. -/
def Instr.wellFormed : Instr → Bool
  | .nop => true
  | .hist => true
  | .build => true
  | .enc => true
  | .dec => true
  | .fclr => true
  | .rdrec maxLen => decide (fitsD maxLen)
  | .rdex n => decide (fitsD n)
  | .ldCsr addr => decide (fitsA addr)
  | .ldPlain addr => decide (fitsA addr)
  | .ldCoded addr => decide (fitsA addr)
  | .ldRec addr => decide (fitsA addr)
  | .ldFreq addr => decide (fitsA addr)
  | .ldCode addr => decide (fitsA addr)
  | .stCsr addr _ => decide (fitsA addr)
  | .stPlain addr _ => decide (fitsA addr)
  | .stCoded addr _ => decide (fitsA addr)
  | .stFreq addr _ => decide (fitsA addr)

/-- The check as a proposition, for statements. -/
abbrev Instr.WellFormed (i : Instr) : Prop := i.wellFormed = true

end Sys2Proof
end

