-- ==== Sys2Proof/Decode.lean ====
section
/-! DEFINITION. The command word (R60, R61): its fields, the decoder (total, rejecting by name: R63,
R64, R65) and the encoder. -/

namespace Sys2Proof

/-- `op = w[63:56]` (R60). -/
def opField (w : CmdWord) : BitVec 8 := w.extractLsb' 56 8

/-- `a = w[55:32]` (R60). -/
def aField (w : CmdWord) : BitVec 24 := w.extractLsb' 32 24

/-- `d = w[31:0]` (R60). -/
def dField (w : CmdWord) : BitVec 32 := w.extractLsb' 0 32

/-- Why a command word is illegal (R64). All of them are answered alike. -/
inductive DecodeError where
  /-- case (a): `op` is not one of the 18 of R63 -/
  | unknownOpcode
  /-- case (b): the command does not use the field `a`, and it is not 0 -/
  | unusedA
  /-- case (b): the command does not use the field `d`, and it is not 0 -/
  | unusedD
  deriving DecidableEq, Repr

/-- A command that uses neither `a` nor `d`. -/
def decodeNone (w : CmdWord) (i : Instr) : Except DecodeError Instr :=
  if aField w ≠ 0 then .error .unusedA
  else if dField w ≠ 0 then .error .unusedD
  else .ok i

/-- A command whose operand is `d` (`RDREC`, `RDEX`). -/
def decodeD (w : CmdWord) (f : Nat → Instr) : Except DecodeError Instr :=
  if aField w ≠ 0 then .error .unusedA else .ok (f (dField w).toNat)

/-- A command whose operand is `a` (`LD.*`). -/
def decodeA (w : CmdWord) (f : Nat → Instr) : Except DecodeError Instr :=
  if dField w ≠ 0 then .error .unusedD else .ok (f (aField w).toNat)

/-- A command with both operands (`ST.*`). -/
def decodeAD (w : CmdWord) (f : Nat → Word → Instr) : Except DecodeError Instr :=
  .ok (f (aField w).toNat (dField w))

/-- The decoder of R63 to R65: `op` first, then the unused fields. -/
def decode (w : CmdWord) : Except DecodeError Instr :=
  match (opField w).toNat with
  | 0x00 => decodeNone w .nop
  | 0x01 => decodeNone w .hist
  | 0x02 => decodeNone w .build
  | 0x03 => decodeNone w .enc
  | 0x04 => decodeNone w .dec
  | 0x10 => decodeNone w .fclr
  | 0x11 => decodeD w .rdrec
  | 0x12 => decodeD w .rdex
  | 0x20 => decodeA w .ldCsr
  | 0x21 => decodeA w .ldPlain
  | 0x22 => decodeA w .ldCoded
  | 0x23 => decodeA w .ldRec
  | 0x24 => decodeA w .ldFreq
  | 0x25 => decodeA w .ldCode
  | 0x30 => decodeAD w .stCsr
  | 0x31 => decodeAD w .stPlain
  | 0x32 => decodeAD w .stCoded
  | 0x34 => decodeAD w .stFreq
  | _ => .error .unknownOpcode

/-- The word with the fields `op`, `a`, `d`: `op << 56 | a << 32 | d` (R66). -/
def commandWord (op : BitVec 8) (a : BitVec 24) (d : BitVec 32) : CmdWord := op ++ a ++ d

/-- The opcode of a command (R63). -/
def Instr.opcode : Instr → BitVec 8
  | .nop => 0x00
  | .hist => 0x01
  | .build => 0x02
  | .enc => 0x03
  | .dec => 0x04
  | .fclr => 0x10
  | .rdrec _ => 0x11
  | .rdex _ => 0x12
  | .ldCsr _ => 0x20
  | .ldPlain _ => 0x21
  | .ldCoded _ => 0x22
  | .ldRec _ => 0x23
  | .ldFreq _ => 0x24
  | .ldCode _ => 0x25
  | .stCsr _ _ => 0x30
  | .stPlain _ _ => 0x31
  | .stCoded _ _ => 0x32
  | .stFreq _ _ => 0x34

/-- The field `a` of a command; 0 where the command does not use it (R61). -/
def Instr.aOperand : Instr → Nat
  | .nop => 0
  | .hist => 0
  | .build => 0
  | .enc => 0
  | .dec => 0
  | .fclr => 0
  | .rdrec _ => 0
  | .rdex _ => 0
  | .ldCsr addr => addr
  | .ldPlain addr => addr
  | .ldCoded addr => addr
  | .ldRec addr => addr
  | .ldFreq addr => addr
  | .ldCode addr => addr
  | .stCsr addr _ => addr
  | .stPlain addr _ => addr
  | .stCoded addr _ => addr
  | .stFreq addr _ => addr

/-- The field `d` of a command; 0 where the command does not use it (R61). -/
def Instr.dOperand : Instr → Word
  | .nop => 0
  | .hist => 0
  | .build => 0
  | .enc => 0
  | .dec => 0
  | .fclr => 0
  | .rdrec maxLen => BitVec.ofNat 32 maxLen
  | .rdex n => BitVec.ofNat 32 n
  | .ldCsr _ => 0
  | .ldPlain _ => 0
  | .ldCoded _ => 0
  | .ldRec _ => 0
  | .ldFreq _ => 0
  | .ldCode _ => 0
  | .stCsr _ data => data
  | .stPlain _ data => data
  | .stCoded _ data => data
  | .stFreq _ data => data

/-- The command word of a well-formed command (R60, R66). -/
def encode (i : Instr) : CmdWord :=
  commandWord i.opcode (BitVec.ofNat 24 i.aOperand) i.dOperand

/-- What the decoder reads from the word whose low `nbits` bits are `w`, every higher bit 0. A command
is one 64-bit word on the command port, so there is no byte order to apply (R60, R61). -/
def decodeTableWord (nbits w : Nat) : Option Instr :=
  match decode (BitVec.ofNat 64 (w % 2 ^ nbits)) with
  | .ok i => some i
  | .error _ => none

end Sys2Proof
end

