-- ==== Sys2Proof/Config.lean ====
section
/-! DEFINITION. What an implementation fixes (the three capacities of R8) and the free values, the
points the spec leaves open (93_implementation_defined.md section 2). -/

namespace Sys2Proof.Config

/-- The implementation parameters of R8 with their constraints. A parameter set outside the
constraints cannot be written down (93 U9: not a configuration of this hardware; log 7). -/
structure Params where
  /-- bytes in the `PLAIN` space -/
  plainCap : Nat
  /-- bytes in the `CODED` space -/
  codedCap : Nat
  /-- bytes in the frame buffer and in the `REC` space -/
  fbCap : Nat
  /-- the constraints of R8 -/
  bounds : (1 ≤ plainCap ∧ plainCap ≤ 2 ^ 24) ∧ (4 ≤ codedCap ∧ codedCap ≤ 2 ^ 24) ∧
    (1 ≤ fbCap ∧ fbCap ≤ 2 ^ 24)
  deriving DecidableEq, Repr

/-- The defaults of R8. -/
def defaultParams : Params := ⟨65536, 67584, 4096, by decide⟩

/-- The three byte memories of R37. `record` is the space the spec calls `REC`. -/
inductive ByteSpace where
  | plain
  | coded
  | record
  deriving DecidableEq, Repr

/-- FREE VALUE (93 U1, log 3): what a read of a byte that nothing has written since reset gives.
Arguments: the `tick` of the command, which read of that command it is, the space, the address. Two
reads need not agree, so the draw is part of the key. -/
opaque freeByte (tick draw : Nat) (space : ByteSpace) (addr : Nat) : Byte

/-- FREE VALUE (93 U2, log 4): what a written byte of the destination space holds after an `ENC` or
`DEC` that failed. Arguments: the `tick` of the failed command, the space, the address. -/
opaque lostByte (tick : Nat) (space : ByteSpace) (addr : Nat) : Byte

/-- FREE VALUE (93 U7, log 5): whether the chunk that the channel was about to hand over when reset
came counts as consumed from the channel's stream. Argument: the `tick` of the reset. -/
opaque resetTakesChunk (tick : Nat) : Bool

end Sys2Proof.Config
end

