-- ==== Sys2Proof/Machine/State.lean ====
section
/-! DEFINITION. The state of the codec core (10_state.md) as plain data, its ports, and its value
after reset (R39). INVENTORY.md lists each field with its rule. -/

namespace Sys2Proof.Machine

/-- The 14 status codes of R132. Their numbers are in Flags.lean (`Status.byte`). -/
inductive Status where
  /-- the command did what its rule says -/
  | ok
  /-- no terminator among the first `max_len` bytes (`RDREC`) -/
  | noTerm
  /-- the channel closed and no byte was there to deliver -/
  | closed
  /-- the channel closed after some bytes -/
  | short
  /-- a pull answered `Error` -/
  | chanErr
  /-- `CODED[0..CLEN)` ends before a needed byte (`DEC`) -/
  | truncated
  /-- a 1 bit at a single-leaf root (`DEC`) -/
  | corrupt
  /-- leaf tag above 255, or more than 511 nodes (`DEC`) -/
  | malformed
  /-- no valid tree, or a plain byte without a code (`ENC`) -/
  | noCode
  /-- the sum of `FREQ` differs from `COUNT` (`BUILD`) -/
  | badFreq
  /-- the result is larger than a capacity (`ENC`, `DEC`) -/
  | noSpace
  /-- unknown opcode or nonzero unused field -/
  | illegal
  /-- address outside the space, or `ST.CSR` to a read-only register -/
  | badAddr
  /-- operand out of range -/
  | badArg
  deriving DecidableEq, Repr

/-- The response of R62: status and value. Its 40-bit word is `Response.word` (Flags.lean). -/
structure Response where
  status : Status
  value : Word
  deriving DecidableEq, Repr

/-- CodeNode of R11. `tag` is the 32-bit pattern of the signed tag (R10). A leaf's tag is its symbol. -/
inductive CodeNode where
  | leaf (symbol : Byte) (weight : Word)
  | internal (tag : Word) (weight : Word) (left right : CodeNode)
  deriving DecidableEq, Repr

/-- One answer of the channel to a pull (R20, R105). -/
inductive ChanAnswer where
  /-- the next bytes of the channel's byte stream, in order -/
  | data (chunk : List Byte)
  /-- the channel has ended -/
  | closed
  /-- a receive failure -/
  | error
  deriving DecidableEq, Repr

/-- A command in flight: it waits for the channel to answer its open pull (R17, R38, R105). -/
inductive Flight where
  /-- `RDREC` with its `max_len`; what it has read is in `FB` -/
  | rdrec (maxLen : Nat)
  /-- `RDEX` with its `n` and the bytes it has so far -/
  | rdex (n : Nat) (out : List Byte)
  deriving DecidableEq, Repr

/-- A byte memory: (address, byte) pairs, addresses strictly rising (`Memory.wf`). A byte that nothing
has written since reset is not listed, and an unlisted address has no value of its own: reading it
gives a free value (R37, R49, 93 U1; log 3). -/
abbrev Memory := List Host.Cell

/-- The canonical form of a byte memory. An unlisted address reads as no value, so no entry can equal
what an unlisted address reads as, and rising addresses are the whole form. -/
abbrev Memory.wf (m : Memory) : Prop := m.Pairwise (fun c c' => c.1 < c'.1)

/-- Everything the spec gives the machine (10_state.md), its ports, and the model's own counter. -/
structure State where
  /-- the parameters of R8, constant -/
  params : Config.Params
  /-- `STATUS.TV` (R25) -/
  tv : Bool
  /-- `STATUS.SL` (R25) -/
  sl : Bool
  /-- `STATUS.LAST` (R26) -/
  last : Status
  /-- `PLEN` (R27) -/
  plen : Word
  /-- `CLEN` (R27) -/
  clen : Word
  /-- `RLEN` (R27) -/
  rlen : Word
  /-- `COUNT` (R28) -/
  count : Word
  /-- `ROOTW` (R29) -/
  rootw : Word
  /-- `NNODES` (R29) -/
  nnodes : Word
  /-- `PAYOFF` (R30) -/
  payoff : Word
  /-- the register file `FREQ` (R31) -/
  freq : Vector Word 256
  /-- the register file `CODE` (R32) -/
  code : Vector Code 256
  /-- the tree register `TREE` (R33) -/
  tree : Option CodeNode
  /-- the frame buffer `FB` (R35) -/
  fb : List Byte
  /-- the byte memory `PLAIN` (R37) -/
  plain : Memory
  /-- the byte memory `CODED` (R37) -/
  coded : Memory
  /-- the byte memory `REC` (R37) -/
  record : Memory
  /-- the command in flight with an open pull, if there is one (R17, R38) -/
  flight : Option Flight
  /-- the response port: the response of the last command, none while one is in flight (R19) -/
  resp : Option Response
  /-- the command port: the words the host has still to issue, in order (R18, R23; log 1) -/
  cmds : List CmdWord
  /-- the channel receive port: the answers the channel will give, in order (R20, R105; log 2) -/
  chan : List ChanAnswer
  /-- the reset input (R21; log 9) -/
  resetIn : Bool
  /-- the model's own counter, which the free values are drawn with (log 8) -/
  tick : Nat
  deriving DecidableEq, Repr

/-- The machine right after reset, for given parameters: the table of R39, with nothing presented on
any port. -/
def State.resetWith (p : Config.Params) : State where
  params := p
  tv := false
  sl := false
  last := .ok
  plen := 0
  clen := 0
  rlen := 0
  count := 0
  rootw := 0
  nnodes := 0
  payoff := 0
  freq := Vector.replicate 256 0
  code := Vector.replicate 256 []
  tree := none
  fb := []
  plain := []
  coded := []
  record := []
  flight := none
  resp := none
  cmds := []
  chan := []
  resetIn := false
  tick := 0

/-- The machine right after reset (R39, R142), with the default parameters of R8. -/
def State.reset : State := State.resetWith Config.defaultParams

/-- Why a step stops with a fault. No constructor: nothing in this hardware faults, every command ends
with one of the 14 statuses or waits on the channel (93 section 2, last paragraph; R138). -/
inductive Fault
  deriving DecidableEq, Repr

/-- Why a step has no meaning. -/
inductive Refusal where
  /-- raised by `exec` for an instruction that has no meaning yet; no arm does so now. Safe. -/
  | notModelled (mnemonic : String)
  /-- raised by a step in which the channel answers an open pull outside the protocol, with a chunk
  that is empty or longer than the request (R20; 93 U5: refuse). Safe: the spec describes no
  behaviour. -/
  | channelProtocol
  deriving DecidableEq, Repr

/-- What a step or a command answers. -/
abbrev Result := Host.Outcome State Fault Refusal

end Sys2Proof.Machine
end

