-- ==== Sys2Proof/Machine/Operands.lean ====
section
/-! DEFINITION. Operand forms and number formats: the sizes of the six spaces (R40), the `CODE` address
(R42), the byte datum (R129), big-endian words (R43), bits packed least significant first (R44). -/

namespace Sys2Proof.Machine

open Config (ByteSpace Params)

/-- The six address spaces of R40. -/
inductive Space where
  | csr
  | bytes (b : ByteSpace)
  | freq
  | code
  deriving DecidableEq, Repr

/-- The size in bytes of a byte memory (R37, R40). -/
def byteSpaceSize (p : Params) : ByteSpace → Nat
  | .plain => p.plainCap
  | .coded => p.codedCap
  | .record => p.fbCap

/-- The number of elements of a space (R40). -/
def spaceSize (p : Params) : Space → Nat
  | .csr => 12
  | .bytes b => byteSpaceSize p b
  | .freq => 256
  | .code => 4096

/-- `s = a[11:4]` of a `CODE` address (R42). -/
def codeSymbol (addr : Nat) : Byte := BitVec.ofNat 8 (addr / 16)

/-- `k = a[3:0]` of a `CODE` address (R42). -/
def codeIndex (addr : Nat) : Nat := addr % 16

/-- The datum of a byte store: `d[7:0]` where `d[31:8]` is 0, none otherwise (R61, R129). -/
def byteDatum (d : Word) : Option Byte :=
  if d.extractLsb' 8 24 = 0 then some (d.extractLsb' 0 8) else none

/-- `zext_32` of a byte (R125). -/
def zextByte (b : Byte) : Word := b.setWidth 32

/-- `BE32(v)`: most significant byte first (00_scope.md section 5, R43). -/
def be32 (v : Word) : List Byte :=
  [v.extractLsb' 24 8, v.extractLsb' 16 8, v.extractLsb' 8 8, v.extractLsb' 0 8]

/-- `UnBE32` of four bytes (00_scope.md section 5, R43). -/
def unBE32 (b0 b1 b2 b3 : Byte) : Word := b0 ++ b1 ++ b2 ++ b3

/-- The number whose bit `i` is element `i` of the list. -/
def bitsToNat : List Bool → Nat
  | [] => 0
  | b :: bs => b.toNat + 2 * bitsToNat bs

/-- The word whose bit `j` is `bits[off + j]` when that exists, else 0: the packing of payload bytes
(R44, R45, R86) and of the words of the `CODE` space (R42). -/
def packBits (width : Nat) (bits : List Bool) (off : Nat) : BitVec width :=
  BitVec.ofNat width (bitsToNat ((bits.drop off).take width))

/-- `ceil8(n)`: the bytes that `n` bits fill (00_scope.md section 5). -/
def ceil8 (n : Nat) : Nat := (n + 7) / 8

/-- `PackByte(bits, j)` (R86). -/
def packByte (bits : List Bool) (j : Nat) : Byte := packBits 8 bits (8 * j)

/-- The payload bytes of a bit sequence (R84, R86). -/
def packPayload (bits : List Bool) : List Byte := (List.range (ceil8 bits.length)).map (packByte bits)

end Sys2Proof.Machine
end

