-- ==== Sys2Proof/Machine/Flags.lean ====
section
/-! DEFINITION. The status codes (R132), the `STATUS` register (R24), the response word (R62). -/

namespace Sys2Proof.Machine

/-- The 8-bit code of a status (R132). -/
def Status.byte : Status → Byte
  | .ok => 0x00
  | .noTerm => 0x01
  | .closed => 0x02
  | .short => 0x03
  | .chanErr => 0x04
  | .truncated => 0x10
  | .corrupt => 0x11
  | .malformed => 0x12
  | .noCode => 0x13
  | .badFreq => 0x14
  | .noSpace => 0x20
  | .illegal => 0x30
  | .badAddr => 0x31
  | .badArg => 0x32

/-- One flag in bit 0 of a 1-bit field. -/
def flagBit (b : Bool) : BitVec 1 := BitVec.ofBool b

/-- The `STATUS` register (CSR 0): bit 0 `TV`, bit 1 `SL`, bits 15:8 `LAST`, every other bit 0 (R24). -/
def statusWord (s : State) : Word :=
  (0#16 ++ s.last.byte ++ 0#6 ++ flagBit s.sl ++ flagBit s.tv : BitVec (16 + 8 + 6 + 1 + 1))

/-- The 40-bit response word: `status = r[39:32]`, `value = r[31:0]` (R62). -/
def Response.word (r : Response) : BitVec 40 := (r.status.byte ++ r.value : BitVec (8 + 32))

/-- The register at a `CSR` index, none where no register exists (R24). `FBLEN` and the capacities are
not stored twice: they are what the frame buffer and the parameters say (log 14). -/
def csrRead? (s : State) : Nat → Option Word
  | 0 => some (statusWord s)
  | 1 => some s.plen
  | 2 => some s.clen
  | 3 => some s.rlen
  | 4 => some s.count
  | 5 => some s.rootw
  | 6 => some s.nnodes
  | 7 => some (BitVec.ofNat 32 s.fb.length)
  | 8 => some s.payoff
  | 9 => some (BitVec.ofNat 32 s.params.plainCap)
  | 10 => some (BitVec.ofNat 32 s.params.codedCap)
  | 11 => some (BitVec.ofNat 32 s.params.fbCap)
  | _ => none

end Sys2Proof.Machine
end

