-- ==== Sys2Proof/Machine/Ops.lean ====
section
/-! DEFINITION. The named operations over memories, register files and ports: byte memories (R40, R48,
R50), responding and raising a status (R62, R132, R138), discarding the tree (R34), accepting a
command (R17, R18), answering an illegal word (R64), taking a reset (R142). -/

namespace Sys2Proof.Machine

open Config (ByteSpace)

/-! ## Byte memories -/

/-- The byte at an address, none where nothing has written it since reset. -/
def Memory.read? : Memory → Nat → Option Byte
  | [], _ => none
  | c :: cs, a => if c.1 = a then some c.2 else Memory.read? cs a

/-- The memory with one byte written. -/
def Memory.write : Memory → Nat → Byte → Memory
  | [], a, b => [(a, b)]
  | c :: cs, a, b =>
    if a < c.1 then (a, b) :: c :: cs
    else if a = c.1 then (a, b) :: cs
    else c :: Memory.write cs a b

/-- The cells of a byte sequence laid out from an address on. -/
def cellsFrom : Nat → List Byte → Memory
  | _, [] => []
  | a, b :: bs => (a, b) :: cellsFrom (a + 1) bs

/-- The memory with a byte sequence written from address 0 on: `MemWrite(space, 0, n, v)`, the only
form in which the units write a space (R50). -/
def Memory.writePrefix (m : Memory) (bs : List Byte) : Memory :=
  cellsFrom 0 bs ++ m.filter (fun c => decide (bs.length ≤ c.1))

/-- The memory after a failed `ENC` or `DEC` whose destination it was: every written byte holds some
value that the spec does not give; a byte nothing has written stays one (93 U2; log 4). -/
def Memory.lose (m : Memory) (tick : Nat) (space : ByteSpace) : Memory :=
  m.map (fun c => (c.1, Config.lostByte tick space c.1))

/-- The byte memory of a space. -/
def State.bytes (s : State) : ByteSpace → Memory
  | .plain => s.plain
  | .coded => s.coded
  | .record => s.record

/-- One byte as a command reads it: the stored byte, or a free value where nothing has written it (93
U1). `draw` says which read of this command it is: two reads need not agree. -/
def readByte (s : State) (space : ByteSpace) (draw a : Nat) : Byte :=
  ((s.bytes space).read? a).getD (Config.freeByte s.tick draw space a)

/-- The bytes `0 .. n-1` of a space as a command reads them, lowest address first. -/
def readPrefix (s : State) (space : ByteSpace) (draw n : Nat) : List Byte :=
  (List.range n).map (readByte s space draw)

/-! ## Register files -/

/-- `FREQ[sym]` (R31). -/
def State.freqOf (s : State) (sym : Byte) : Word := s.freq[sym.toNat]'sym.isLt

/-- `CODE[sym]` (R32). -/
def State.codeOf (s : State) (sym : Byte) : Code := s.code[sym.toNat]'sym.isLt

/-- The 256 symbols in rising order (R9). -/
def allSymbols : List Byte := (List.range 256).map (BitVec.ofNat 8)

/-- A code table with no entry. -/
def noCodes : Vector Code 256 := Vector.replicate 256 []

/-! ## Ending a command -/

/-- End a command that is no unit command: the response, and nothing else (R26, R62). -/
def respond (st : Status) (v : Word) (s : State) : State :=
  { s with resp := some ⟨st, v⟩ }

/-- End a unit command: the response, and `STATUS.LAST` takes the status (R26, R62, R138). -/
def finish (st : Status) (v : Word) (s : State) : State :=
  { respond st v s with last := st }

/-- `raise ST(0)` in a host access or for an illegal word: nothing changes but the response (R132,
R138). -/
def raiseAccess (st : Status) (s : State) : State := respond st 0 s

/-- `raise ST(0)` in a unit command: the response and `STATUS.LAST` (R26, R138). -/
def raiseUnit (st : Status) (s : State) : State := finish st 0 s

/-- `DiscardTree()` (R34). -/
def discardTree (s : State) : State :=
  { s with tree := none, tv := false, sl := false, rootw := 0, nnodes := 0, code := noCodes }

/-! ## The ports -/

/-- The command transaction: the host's first word is taken and the others wait (R17, R18); the
model's counter advances, so that every command draws its own free values. -/
def acceptCommand (rest : List CmdWord) (s : State) : State :=
  { s with cmds := rest, tick := s.tick + 1 }

/-- An illegal word: accepted, changes no state, answered `ILLEGAL` with value 0 (R64). -/
def answerIllegal (s : State) : State := raiseAccess .illegal s

/-- What the channel still has to say after a reset: what it had before, but where reset ends an open
pull and a chunk was about to be handed over, that chunk may count as consumed (R142; 93 U7; log 5). -/
def chanAfterReset (s : State) : List ChanAnswer :=
  match s.flight, s.chan with
  | some _, .data c :: rest =>
    if Config.resetTakesChunk s.tick then rest else .data c :: rest
  | _, chan => chan

/-- Reset (R142): every piece of state takes its reset value (R39), the command in flight is abandoned
without a response and its pull ends. The parameters are constant; what the host and the channel
have still to say is theirs; the reset line is released. -/
def takeReset (s : State) : State :=
  { State.resetWith s.params with cmds := s.cmds, chan := chanAfterReset s, tick := s.tick + 1 }

end Sys2Proof.Machine
end

