-- ==== Sys2Proof/Machine/Tree.lean ====
section
/-! DEFINITION. CodeNodes (R11): tag, weight, size, the code table of a tree (R77), and its
serialisation (R85). -/

namespace Sys2Proof.Machine

/-- `tag(node)`: a leaf's tag is its symbol, zero-extended (R10, R11). -/
def CodeNode.tag : CodeNode → Word
  | .leaf s _ => zextByte s
  | .internal t _ _ _ => t

/-- The weight of a node (R11). -/
def CodeNode.weight : CodeNode → Word
  | .leaf _ w => w
  | .internal _ w _ _ => w

/-- Whether the node is a leaf (R25). -/
def CodeNode.isLeaf : CodeNode → Bool
  | .leaf _ _ => true
  | .internal _ _ _ _ => false

/-- The number of nodes of a tree (R24 `NNODES`). -/
def CodeNode.nodes : CodeNode → Nat
  | .leaf _ _ => 1
  | .internal _ _ l r => l.nodes + r.nodes + 1

/-- The symbols of the leaves, left to right. -/
def CodeNode.symbols : CodeNode → List Byte
  | .leaf s _ => [s]
  | .internal _ _ l r => l.symbols ++ r.symbols

/-- `abs(tag)` as a mathematical integer (R15). -/
def CodeNode.absTag (x : CodeNode) : Nat := x.tag.toInt.natAbs

/-- `Walk(node, path)` (R77): bit 0 when descending left, bit 1 when descending right. -/
def walkCodes : CodeNode → Code → Vector Code 256 → Vector Code 256
  | .leaf s _, path, table => table.set s.toNat path s.isLt
  | .internal _ _ l r, path, table =>
    walkCodes r (path ++ [true]) (walkCodes l (path ++ [false]) table)

/-- `AssignCodes(root)` over an empty table (R73, R77): a single leaf gets the one-bit code `[0]`. -/
def assignCodes : CodeNode → Vector Code 256
  | .leaf s _ => noCodes.set s.toNat [false] s.isLt
  | .internal t w l r => walkCodes (.internal t w l r) [] noCodes

/-- `Serialize(root)` (R85): the pre-order listing of the tags: node, left subtree, right subtree. -/
def serialize : CodeNode → List Word
  | .leaf s w => [(CodeNode.leaf s w).tag]
  | .internal t _ l r => t :: (serialize l ++ serialize r)

/-- The explicit-stack traversal that R85 writes out, with a bound on the number of pops: pop a node,
append its tag, push its right child and then its left child. `serialize` is what the model runs. -/
def serializeStack : Nat → List CodeNode → List Word
  | 0, _ => []
  | _ + 1, [] => []
  | fuel + 1, .leaf s w :: stack => (CodeNode.leaf s w).tag :: serializeStack fuel stack
  | fuel + 1, .internal t _ l r :: stack => t :: serializeStack fuel (l :: r :: stack)

end Sys2Proof.Machine
end

