-- ==== Sys2Proof/Machine/Builder.lean ====
section
/-! DEFINITION. The Code Table Builder (41_builder.md): `HIST` and `BUILD`. -/

namespace Sys2Proof.Machine

/-! ## HIST -/

/-- One more occurrence of a byte: `FREQ[s] <- FREQ[s] + 1` (R69). -/
def countByte (freq : Vector Word 256) (b : Byte) : Vector Word 256 :=
  freq.set b.toNat (freq[b.toNat]'b.isLt + 1) b.isLt

/-- The frequency table of a byte sequence (R69). -/
def histogram (bs : List Byte) : Vector Word 256 := bs.foldl countByte (Vector.replicate 256 0)

/-- `HIST` (R69, R70). -/
def execHist (s : State) : Result :=
  .next (finish .ok s.plen
    { s with freq := histogram (readPrefix s .plain 0 s.plen.toNat), count := s.plen })

/-! ## BUILD -/

/-- `ITAG(k) = -(256 + k)`, the tag of the k-th internal node made (R8, R76), in two's
complement (PRESUMED, log 16). -/
def itag (k : Nat) : Word := BitVec.ofInt 32 (-(256 + (k : Int)))

/-- The strict queue order of R75: by weight, then by the absolute value of the tag. -/
def nodeBefore (x y : CodeNode) : Bool :=
  decide (x.weight.toNat < y.weight.toNat) ||
    (decide (x.weight = y.weight) && decide (x.absTag < y.absTag))

/-- `PopMin` on a queue with at least one node: the least node under R75 and the other nodes. -/
def popMin : CodeNode → List CodeNode → CodeNode × List CodeNode
  | x, [] => (x, [])
  | x, y :: ys =>
    if nodeBefore y x then
      match popMin y ys with
      | (m, rest) => (m, x :: rest)
    else
      match popMin x ys with
      | (m, rest) => (m, y :: rest)

/-- One combining step on a queue with at least two nodes (R76): the node popped first becomes the left
child and the node popped second the right child of the `k`-th internal node. The weights' sum does not
wrap after the check of R79 (DEDUCED, log 17). -/
def combineTwo (k : Nat) (x y : CodeNode) (ys : List CodeNode) : CodeNode × List CodeNode :=
  match popMin x (y :: ys) with
  | (a, []) => (a, [])
  | (a, z :: zs) =>
    match popMin z zs with
    | (b, rest) => (.internal (itag k) (a.weight + b.weight) a b, rest)

/-- The combining loop of R73 and R76: while the queue holds more than one node. The first argument
bounds the number of rounds; the queue shrinks by one a round (DEDUCED, log 18). -/
def combineAll : Nat → Nat → CodeNode → List CodeNode → CodeNode
  | 0, _, x, _ => x
  | _ + 1, _, x, [] => x
  | fuel + 1, k, x, y :: ys =>
    match combineTwo k x y ys with
    | (node, rest) => combineAll fuel (k + 1) node rest

/-- The sum of the 256 frequencies as a mathematical integer (R73). -/
def freqSum (s : State) : Nat := (allSymbols.map (fun sym => (s.freqOf sym).toNat)).sum

/-- The leaf of a symbol, none for a symbol of frequency 0 (R74). -/
def seedLeaf (s : State) (sym : Byte) : Option CodeNode :=
  if s.freqOf sym = 0 then none else some (.leaf sym (s.freqOf sym))

/-- The queue at the start: one leaf per symbol of nonzero frequency (R74). -/
def seedQueue (s : State) : List CodeNode := allSymbols.filterMap (seedLeaf s)

/-- The tree of a nonempty queue (R76). -/
def treeOf (x : CodeNode) (q : List CodeNode) : CodeNode := combineAll q.length 0 x q

/-- The state that a `BUILD` leaves whose queue was `x` and `q` (R73, R80); `2L - 1` nodes for `L`
leaves. -/
def buildFrom (x : CodeNode) (q : List CodeNode) (s : State) : State :=
  finish .ok (BitVec.ofNat 32 (2 * (q.length + 1) - 1))
    { s with
      tree := some (treeOf x q)
      code := assignCodes (treeOf x q)
      tv := true
      sl := (treeOf x q).isLeaf
      rootw := (treeOf x q).weight
      nnodes := BitVec.ofNat 32 (2 * (q.length + 1) - 1) }

/-- `BUILD` (R73). The queue is empty exactly when every frequency is 0, that is, after the sum check,
when `COUNT` is 0 (R78). -/
def execBuild (s : State) : Result :=
  if freqSum s ≠ s.count.toNat then .next (raiseUnit .badFreq (discardTree s))
  else
    match seedQueue s with
    | [] => .next (finish .ok 0 (discardTree s))
    | x :: q => .next (buildFrom x q (discardTree s))

end Sys2Proof.Machine
end

