-- ==== Sys2Proof/Machine/Decoder.lean ====
section
/-! DEFINITION. The Decoder (43_decoder.md): `DEC`. `n` is `CLEN`; reads go through `readByte`, so a
byte nothing has written is a free value. Header and tree bytes are read once (draw 0); payload bit
`bi` reads its byte with draw `bi` (log 15). -/

namespace Sys2Proof.Machine

/-- `Fail(ST)` of R93: `PLEN <- 0`, the tree is discarded, `PLAIN` holds unspecified bytes (R101; 93
U2). -/
def failDec (st : Status) (s : State) : State :=
  raiseUnit st (discardTree { s with plen := 0, plain := s.plain.lose s.tick .plain })

/-- The 32-bit pattern at a `CODED` offset (R43). -/
def codedWord (s : State) (pos : Nat) : Word :=
  unBE32 (readByte s .coded 0 pos) (readByte s .coded 0 (pos + 1))
    (readByte s .coded 0 (pos + 2)) (readByte s .coded 0 (pos + 3))

/-- `NextTag()` (R93): the tag at `pos`, `TRUNCATED` where it needs bytes at or past `n`. -/
def nextTag (s : State) (n pos : Nat) : Except Status Word :=
  if n < pos + 4 then .error .truncated else .ok (codedWord s pos)

/-- What a tag denotes to the decoder (`MkNode(t)` of R93, R57). -/
inductive TagKind where
  /-- negative: an internal node -/
  | internal
  /-- 0..255: a leaf holding that symbol -/
  | leaf (symbol : Byte)
  /-- above 255: no symbol -/
  | bad
  deriving DecidableEq, Repr

/-- `MkNode(t)` (R93, R57, R100). -/
def tagKind (t : Word) : TagKind :=
  if t.toInt < 0 then .internal
  else if 255 < t.toInt then .bad
  else .leaf (t.extractLsb' 0 8)

/-- An internal node on the decoder's stack: its tag, and its left child once that is whole (R96;
DEDUCED, log 18). -/
structure Frame where
  tag : Word
  left : Option CodeNode
  deriving DecidableEq, Repr

/-- Attach a node whose subtree is whole to the top of the stack (R96): as the left child if that is
unfilled, else as the right child, which makes the top node whole and pops it. The answer is the
whole tree once the stack is empty, else the stack. A tree the decoder rebuilds has weights 0
(R11). -/
def attach : CodeNode → List Frame → CodeNode ⊕ List Frame
  | node, [] => .inl node
  | node, ⟨tag, none⟩ :: stack => .inr (⟨tag, some node⟩ :: stack)
  | node, ⟨tag, some left⟩ :: stack => attach (.internal tag 0 left node) stack

/-- Step 1b of R93: read tags and rebuild the tree with the stack of R96. The first argument is how
many more nodes the tree may have (511 at the start); the answer is the root and the offset after
the last tag. -/
def readTree (s : State) (n : Nat) : Nat → Nat → List Frame → Except Status (CodeNode × Nat)
  | 0, pos, _ =>
    match nextTag s n pos with
    | .error st => .error st
    | .ok _ => .error .malformed
  | left + 1, pos, stack =>
    match nextTag s n pos with
    | .error st => .error st
    | .ok t =>
      match tagKind t with
      | .bad => .error .malformed
      | .internal => readTree s n left (pos + 4) (⟨t, none⟩ :: stack)
      | .leaf sym =>
        match attach (.leaf sym 0) stack with
        | .inl root => .ok (root, pos + 4)
        | .inr stack' => readTree s n left (pos + 4) stack'

/-- `NextBit()` (R93): payload bit `bi` is bit `bi mod 8` of the byte at `pos + bi div 8` (R97),
`TRUNCATED` where that byte is at or past `n`. -/
def nextBit (s : State) (n pos bi : Nat) : Except Status Bool :=
  if n ≤ pos + bi / 8 then .error .truncated
  else .ok ((readByte s .coded bi (pos + bi / 8)).getLsbD (bi % 8))

/-- The walk of R98 from a node down to a leaf: right on bit 1, left on bit 0. The answer is the leaf's
symbol and the number of the next payload bit. -/
def walkDown (s : State) (n pos : Nat) : CodeNode → Nat → Except Status (Byte × Nat)
  | .leaf sym _, bi => .ok (sym, bi)
  | .internal _ _ l r, bi =>
    match nextBit s n pos bi with
    | .error st => .error st
    | .ok true => walkDown s n pos r (bi + 1)
    | .ok false => walkDown s n pos l (bi + 1)

/-- One symbol of R93: at a single-leaf root one bit is consumed and must be 0 (R99). -/
def decodeSymbol (s : State) (n pos : Nat) (root : CodeNode) (bi : Nat) :
    Except Status (Byte × Nat) :=
  match root with
  | .leaf sym _ =>
    match nextBit s n pos bi with
    | .error st => .error st
    | .ok true => .error .corrupt
    | .ok false => .ok (sym, bi + 1)
  | .internal t w l r => walkDown s n pos (.internal t w l r) bi

/-- Step 2 of R93: the symbols still to be emitted, from payload bit `bi` on. -/
def decodeSymbols (s : State) (n pos : Nat) (root : CodeNode) :
    Nat → Nat → Except Status (List Byte)
  | 0, _ => .ok []
  | k + 1, bi =>
    match decodeSymbol s n pos root bi with
    | .error st => .error st
    | .ok (sym, bi') =>
      match decodeSymbols s n pos root k bi' with
      | .error st => .error st
      | .ok out => .ok (sym :: out)

/-- Step 2 and the end of R93, for a root and the payload offset. -/
def decPayload (root : CodeNode) (pos : Nat) (len : Word) (s : State) : State :=
  match decodeSymbols s s.clen.toNat pos root len.toNat 0 with
  | .error st => failDec st s
  | .ok out => finish .ok len (discardTree { s with plain := s.plain.writePrefix out, plen := len })

/-- The tree and the payload of R93, for an original length that is not 0 and fits. -/
def decTree (len : Word) (s : State) : State :=
  match readTree s s.clen.toNat 511 4 [] with
  | .error st => failDec st s
  | .ok (root, pos) => decPayload root pos len { s with payoff := BitVec.ofNat 32 pos }

/-- `DEC` after `DiscardTree()` and `PAYOFF <- 0` (R93): the checks in its order. -/
def decFrom (s : State) : State :=
  if s.clen.toNat < 4 then failDec .truncated s
  else if codedWord s 0 = 0 then finish .ok 0 { s with plen := 0, payoff := 4 }
  else if s.params.plainCap < (codedWord s 0).toNat then failDec .noSpace s
  else decTree (codedWord s 0) s

/-- `DEC` (R93). -/
def execDec (s : State) : Result := .next (decFrom { discardTree s with payoff := 0 })

end Sys2Proof.Machine
end

