-- ==== Sys2Proof/Machine/Encoder.lean ====
section
/-! DEFINITION. The Encoder (42_encoder.md): `ENC`. -/

namespace Sys2Proof.Machine

/-- `Fail(ST)` of R84: `CLEN <- 0`, the tree is discarded, the bytes of `CODED` are unspecified (R89; 93
U2). -/
def failEnc (st : Status) (s : State) : State :=
  raiseUnit st (discardTree { s with clen := 0, coded := s.coded.lose s.tick .coded })

/-- The tags that `ENC` serialises: those of `TREE` (R85). -/
def treeTags (s : State) : List Word :=
  match s.tree with
  | none => []
  | some root => serialize root

/-- The codes of a byte sequence, concatenated in order (R86). -/
def codeBits (s : State) (bs : List Byte) : List Bool := (bs.map s.codeOf).flatten

/-- The encoded buffer of R56: original length, tags, payload. -/
def encodedBuffer (len : Word) (tags : List Word) (bits : List Bool) : List Byte :=
  be32 len ++ ((tags.map be32).flatten ++ packPayload bits)

/-- The end of an `ENC` that has its tags and bits: the size check and the writes of R84. -/
def encWrite (tags : List Word) (bits : List Bool) (s : State) : State :=
  if s.params.codedCap < 4 + 4 * tags.length + ceil8 bits.length then failEnc .noSpace s
  else
    finish .ok (BitVec.ofNat 32 (4 + 4 * tags.length + ceil8 bits.length))
      (discardTree
        { s with
          coded := s.coded.writePrefix (encodedBuffer s.plen tags bits)
          payoff := BitVec.ofNat 32 (4 + 4 * tags.length)
          clen := BitVec.ofNat 32 (4 + 4 * tags.length + ceil8 bits.length) })

/-- `ENC` after `PAYOFF <- 0` (R84). R84 reads `PLAIN` twice, once to look for a byte without a code
and once for the bits; the two reads draw apart (log 15). -/
def encFrom (s : State) : State :=
  if s.plen = 0 then
    finish .ok 4
      (discardTree
        { s with coded := s.coded.writePrefix (be32 0), clen := 4, payoff := 4 })
  else if s.tv = false then failEnc .noCode s
  else if (readPrefix s .plain 0 s.plen.toNat).any (fun b => (s.codeOf b).isEmpty) then
    failEnc .noCode s
  else encWrite (treeTags s) (codeBits s (readPrefix s .plain 1 s.plen.toNat)) s

/-- `ENC` (R84). -/
def execEnc (s : State) : Result := .next (encFrom { s with payoff := 0 })

end Sys2Proof.Machine
end

