-- ==== Sys2Proof/Machine/Framer.lean ====
section
/-! DEFINITION. The Stream Framer (44_framer.md): `FCLR`, `RDREC`, `RDEX`, and what a channel answer
does to the command that waits for it. Each pull is a step of its own (R17). -/

namespace Sys2Proof.Machine

/-- The terminator byte `0x0A` (R109, R116). -/
def terminator : Byte := 0x0A

/-! ## Pulls -/

/-- The request size of the open pull (R20, R109, R118): room in `FB` for `RDREC`; what is missing, at
most `FB_CAP`, for `RDEX`. -/
def pullSize (s : State) : Flight → Nat
  | .rdrec _ => s.params.fbCap - s.fb.length
  | .rdex n out => min (n - out.length) s.params.fbCap

/-- A command starts a pull: it stays in flight, and there is no response yet (R17, R105). -/
def openPull (f : Flight) (s : State) : State := { s with flight := some f, resp := none }

/-! ## FCLR -/

/-- `FCLR` (R107). -/
def execFclr (s : State) : Result := .next (finish .ok 0 { s with fb := [] })

/-! ## RDREC -/

/-- The end of `RDREC` (R109): deliver `out` to `REC`, keep `fb`, respond. -/
def deliverRecord (st : Status) (out fb : List Byte) (s : State) : State :=
  finish st (BitVec.ofNat 32 out.length)
    { s with
      record := s.record.writePrefix out
      rlen := BitVec.ofNat 32 out.length
      fb := fb
      flight := none }

/-- One pass of the loop of R109 over the bytes held: deliver up to the first terminator among the
first `m` bytes, else `m` bytes if there are that many, else pull. -/
def scanRecord (m : Nat) (s : State) : State :=
  match (s.fb.take m).findIdx? (· == terminator) with
  | some i => deliverRecord .ok (s.fb.take (i + 1)) (s.fb.drop (i + 1)) s
  | none =>
    if m ≤ s.fb.length then deliverRecord .noTerm (s.fb.take m) (s.fb.drop m) s
    else openPull (.rdrec m) s

/-- `RDREC` (R109); the operand bound comes first (R113). -/
def execRdrec (maxLen : Nat) (s : State) : Result :=
  if s.params.fbCap < maxLen then .next (raiseUnit .badArg s) else .next (scanRecord maxLen s)

/-- What a channel answer does to a waiting `RDREC` (R109, R112, R113). -/
def answerRecord (m : Nat) (ans : ChanAnswer) (s : State) : State :=
  match ans with
  | .data c => scanRecord m { s with fb := s.fb ++ c }
  | .closed =>
    if s.fb = [] then deliverRecord .closed [] [] s else deliverRecord .short s.fb [] s
  | .error => deliverRecord .chanErr [] s.fb s

/-! ## RDEX -/

/-- The end of `RDEX` (R118): deliver `out` to `CODED`, respond. -/
def deliverExact (st : Status) (out : List Byte) (s : State) : State :=
  finish st (BitVec.ofNat 32 out.length)
    { s with
      coded := s.coded.writePrefix out
      clen := BitVec.ofNat 32 out.length
      flight := none }

/-- One pass of the loop of R118: done when `n` bytes are there, else pull. -/
def scanExact (n : Nat) (out : List Byte) (s : State) : State :=
  if n ≤ out.length then deliverExact .ok out s else openPull (.rdex n out) s

/-- `RDEX` (R118): the operand bound, then the frame buffer is drained first. -/
def execRdex (n : Nat) (s : State) : Result :=
  if s.params.codedCap < n then .next (raiseUnit .badArg s)
  else .next (scanExact n (s.fb.take n) { s with fb := s.fb.drop n })

/-- What a channel answer does to a waiting `RDEX` (R118, R119). -/
def answerExact (n : Nat) (out : List Byte) (ans : ChanAnswer) (s : State) : State :=
  match ans with
  | .data c => scanExact n (out ++ c) s
  | .closed => deliverExact (if out = [] then .closed else .short) out s
  | .error => deliverExact .chanErr out s

/-! ## The channel's answer -/

/-- Whether an answer keeps the protocol of R20: a chunk has 1 to `r` bytes. -/
def answerLegal (r : Nat) : ChanAnswer → Bool
  | .data c => decide (1 ≤ c.length) && decide (c.length ≤ r)
  | .closed => true
  | .error => true

/-- What a legal answer does to the command in flight. -/
def answerFlight (f : Flight) (ans : ChanAnswer) (s : State) : State :=
  match f with
  | .rdrec m => answerRecord m ans s
  | .rdex n out => answerExact n out ans s

/-- The channel ends the open pull (R20, R105). An answer outside the protocol is refused by name (93
U5; log 6). -/
def channelAnswer (f : Flight) (ans : ChanAnswer) (s : State) : Result :=
  if answerLegal (pullSize s f) ans then .next (answerFlight f ans s)
  else .refused .channelProtocol

/-- The answer is taken from the channel's port; the model's counter advances. -/
def takeAnswer (rest : List ChanAnswer) (s : State) : State :=
  { s with chan := rest, tick := s.tick + 1 }

end Sys2Proof.Machine
end

