-- ==== Sys2Proof/Machine/HostAccess.lean ====
section
/-! DEFINITION. Host access (45_host_access.md): `NOP`, `LD.*`, `ST.*`. The address is checked before
the datum (R130, R135). -/

namespace Sys2Proof.Machine

open Config (ByteSpace)

/-- `NOP` (R123). -/
def execNop (s : State) : Result := .next (respond .ok 0 s)

/-! ## LD -/

/-- A load whose element, if the address names one, is `v` (R125, R126). -/
def loadElement (v : Option Word) (s : State) : State :=
  match v with
  | some w => respond .ok w s
  | none => raiseAccess .badAddr s

/-- The element of a byte space, zero-extended; none outside the space (R40, R125). A byte nothing has
written reads as a free value with status `OK` (R126; 93 U1). -/
def byteElement (space : ByteSpace) (addr : Nat) (s : State) : Option Word :=
  if addr < byteSpaceSize s.params space then some (zextByte (readByte s space 0 addr)) else none

/-- The element of `FREQ`; none outside the space (R31, R40). -/
def freqElement (addr : Nat) (s : State) : Option Word :=
  if addr < 256 then some (s.freqOf (BitVec.ofNat 8 addr)) else none

/-- `CodeWord(sym, k)` (R42): `k = 0` is the length, `k = 1..8` are 32 code bits each, first bit in bit
0. -/
def codeWord (c : Code) (k : Nat) : Word :=
  if k = 0 then BitVec.ofNat 32 c.length else packBits 32 c (32 * (k - 1))

/-- The element of `CODE`; none outside the space and for `k = 9..15` (R42, R125). -/
def codeElement (addr : Nat) (s : State) : Option Word :=
  if addr < 4096 ∧ codeIndex addr < 9 then
    some (codeWord (s.codeOf (codeSymbol addr)) (codeIndex addr))
  else none

/-- `LD.CSR` (R125). -/
def execLdCsr (addr : Nat) (s : State) : Result := .next (loadElement (csrRead? s addr) s)

/-- `LD.PLAIN` (R125). -/
def execLdPlain (addr : Nat) (s : State) : Result :=
  .next (loadElement (byteElement .plain addr s) s)

/-- `LD.CODED` (R125). -/
def execLdCoded (addr : Nat) (s : State) : Result :=
  .next (loadElement (byteElement .coded addr s) s)

/-- `LD.REC` (R125). -/
def execLdRec (addr : Nat) (s : State) : Result :=
  .next (loadElement (byteElement .record addr s) s)

/-- `LD.FREQ` (R125). -/
def execLdFreq (addr : Nat) (s : State) : Result := .next (loadElement (freqElement addr s) s)

/-- `LD.CODE` (R125). -/
def execLdCode (addr : Nat) (s : State) : Result := .next (loadElement (codeElement addr s) s)

/-! ## ST -/

/-- `ST.CSR` (R129, R130): `PLEN` (1), `CLEN` (2) and `COUNT` (4) are writable, the lengths up to their
capacity. -/
def execStCsr (addr : Nat) (data : Word) (s : State) : Result :=
  match addr with
  | 1 =>
    if s.params.plainCap < data.toNat then .next (raiseAccess .badArg s)
    else .next (respond .ok 0 { s with plen := data })
  | 2 =>
    if s.params.codedCap < data.toNat then .next (raiseAccess .badArg s)
    else .next (respond .ok 0 { s with clen := data })
  | 4 => .next (respond .ok 0 { s with count := data })
  | _ => .next (raiseAccess .badAddr s)

/-- `ST.PLAIN` (R129, R130). -/
def execStPlain (addr : Nat) (data : Word) (s : State) : Result :=
  if byteSpaceSize s.params .plain ≤ addr then .next (raiseAccess .badAddr s)
  else
    match byteDatum data with
    | none => .next (raiseAccess .badArg s)
    | some b => .next (respond .ok 0 { s with plain := s.plain.write addr b })

/-- `ST.CODED` (R129, R130). -/
def execStCoded (addr : Nat) (data : Word) (s : State) : Result :=
  if byteSpaceSize s.params .coded ≤ addr then .next (raiseAccess .badAddr s)
  else
    match byteDatum data with
    | none => .next (raiseAccess .badArg s)
    | some b => .next (respond .ok 0 { s with coded := s.coded.write addr b })

/-- `ST.FREQ` (R129, R130). -/
def execStFreq (addr : Nat) (data : Word) (s : State) : Result :=
  if h : addr < 256 then .next (respond .ok 0 { s with freq := s.freq.set addr data h })
  else .next (raiseAccess .badAddr s)

end Sys2Proof.Machine
end

