-- ==== Sys2Proof/Machine/Dispatch.lean ====
section
/-! DEFINITION. One arm per command (R63), each a direct call of its meaning. -/

namespace Sys2Proof.Machine

def exec (i : Instr) (s : State) : Host.Outcome State Fault Refusal :=
  match i with
  | .nop => Sys2Proof.Machine.execNop s
  | .hist => Sys2Proof.Machine.execHist s
  | .build => Sys2Proof.Machine.execBuild s
  | .enc => Sys2Proof.Machine.execEnc s
  | .dec => Sys2Proof.Machine.execDec s
  | .fclr => Sys2Proof.Machine.execFclr s
  | .rdrec maxLen => Sys2Proof.Machine.execRdrec maxLen s
  | .rdex n => Sys2Proof.Machine.execRdex n s
  | .ldCsr addr => Sys2Proof.Machine.execLdCsr addr s
  | .ldPlain addr => Sys2Proof.Machine.execLdPlain addr s
  | .ldCoded addr => Sys2Proof.Machine.execLdCoded addr s
  | .ldRec addr => Sys2Proof.Machine.execLdRec addr s
  | .ldFreq addr => Sys2Proof.Machine.execLdFreq addr s
  | .ldCode addr => Sys2Proof.Machine.execLdCode addr s
  | .stCsr addr data => Sys2Proof.Machine.execStCsr addr data s
  | .stPlain addr data => Sys2Proof.Machine.execStPlain addr data s
  | .stCoded addr data => Sys2Proof.Machine.execStCoded addr data s
  | .stFreq addr data => Sys2Proof.Machine.execStFreq addr data s

end Sys2Proof.Machine
end

