-- ==== Sys2Proof/Machine/Step.lean ====
section
/-! DEFINITION. One step of the machine: the reset event, an answer of the channel to an open pull, or
the acceptance and execution of one command word (R17; log 13); otherwise the core waits and nothing
changes. -/

namespace Sys2Proof.Machine

/-- An accepted command word (R65): its command runs, or it is answered `ILLEGAL` (R64). -/
def runWord (w : CmdWord) (s : State) : Host.Outcome State Fault Refusal :=
  match decode w with
  | .ok i => exec i s
  | .error _ => .next (answerIllegal s)

/-- One step. Reset comes first, whatever is in flight (R142). While a command is in flight only the
channel moves, and the host's next word waits (R17, R18); a silent channel leaves the state as it
is (R150; 93 U4). An idle core takes the host's next word; with none presented it waits. -/
def step (s : State) : Host.Outcome State Fault Refusal :=
  if s.resetIn then .next (takeReset s)
  else
    match s.flight with
    | some f =>
      match s.chan with
      | [] => .next s
      | ans :: rest => channelAnswer f ans (takeAnswer rest s)
    | none =>
      match s.cmds with
      | [] => .next s
      | w :: rest => runWord w (acceptCommand rest s)

/-- The state with the word whose low `nbits` bits are `w` (every higher bit 0) presented on the
command port of an idle core, so that the very next step accepts and runs it (log 1). -/
def State.withFetchWord (s : State) (nbits w : Nat) : State :=
  { s with
    cmds := BitVec.ofNat 64 (w % 2 ^ nbits) :: s.cmds
    flight := none
    resetIn := false }

end Sys2Proof.Machine
end

