-- ==== Sys2Proof/Safety.lean ====
section
/-! DEFINITION. The terms that claims about the machine use: what a memory holds, the invariant that
every step keeps, paths in a tree, the queue order and the combining steps of R75 and R76, the recursive
reading of R96, the channel's stream, which commands are unit commands, which words R64 calls illegal.
No step of the machine depends on this file. -/

namespace Sys2Proof.Machine

open Config (ByteSpace Params)

/-! ## Memories -/

/-- The memory holds a byte sequence from address 0 on. -/
abbrev Memory.Holds (m : Memory) (bs : List Byte) : Prop := ∀ i, i < bs.length → m.read? i = bs[i]?

/-- The two memories read alike from an address on. -/
def Memory.SameFrom (n : Nat) (m m' : Memory) : Prop := ∀ a, n ≤ a → m'.read? a = m.read? a

/-! ## Trees -/

/-- The node that a path leads to: left on 0, right on 1 (R77, R98). -/
def CodeNode.follow : CodeNode → Code → Option CodeNode
  | x, [] => some x
  | .leaf _ _, _ :: _ => none
  | .internal _ _ l r, b :: path => if b then r.follow path else l.follow path

/-- `path` is the code of `sym` in the tree: the path to a leaf holding `sym`, or the one-bit code `[0]`
of a single-leaf tree (R77). -/
def CodeNode.CodeFor (root : CodeNode) (sym : Byte) (path : Code) : Prop :=
  match root with
  | .leaf s _ => sym = s ∧ path = [false]
  | .internal t w l r => ∃ v, CodeNode.follow (.internal t w l r) path = some (.leaf sym v)

/-- Every internal tag of the tree is negative (R10, R57). -/
def CodeNode.negativeTags : CodeNode → Bool
  | .leaf _ _ => true
  | .internal t _ l r => decide (t.toInt < 0) && l.negativeTags && r.negativeTags

/-- The tags of the internal nodes. -/
def CodeNode.internalTags : CodeNode → List Word
  | .leaf _ _ => []
  | .internal t _ l r => t :: (l.internalTags ++ r.internalTags)

/-- The symbols with a nonzero frequency (R74). -/
def presentSymbols (s : State) : List Byte := allSymbols.filter (fun sym => decide (s.freqOf sym ≠ 0))

/-- The key that breaks ties in R75: the symbol of a leaf, `abs(tag)` of an internal node. -/
def CodeNode.tieKey : CodeNode → Nat
  | .leaf s _ => s.toNat
  | .internal t _ _ _ => t.toInt.natAbs

/-- The strict queue order, written from R75: by weight, then by `abs(tag)`. -/
def CodeNode.precedes (x y : CodeNode) : Prop :=
  x.weight.toNat < y.weight.toNat ∨ (x.weight.toNat = y.weight.toNat ∧ x.tieKey < y.tieKey)

/-- `Combined k q root`: the combining loop, written from R76, ends with `root` when its queue holds the
nodes `q` and `k` internal nodes are made. The order in which `q` lists the queue does not matter. -/
inductive Combined : Nat → List CodeNode → CodeNode → Prop where
  /-- one node remains: the root -/
  | last (k : Nat) (root : CodeNode) : Combined k [root] root
  /-- the least node `a` becomes the left child, the least of the others `b` the right child, of a node
  with tag `-(256 + k)` and the exact sum of the weights -/
  | pair {k : Nat} {q rest : List CodeNode} {a b root : CodeNode} {t w : Word} :
    q.Perm (a :: b :: rest) → (∀ z ∈ b :: rest, a.precedes z) → (∀ z ∈ rest, b.precedes z) →
    t.toInt = -(256 + (k : Int)) → w.toNat = a.weight.toNat + b.weight.toNat →
    Combined (k + 1) (.internal t w a b :: rest) root → Combined k q root

/-- The recursive reading of a tree that R96 names as the same reading as the stack's: a tag, and for an
internal node the left subtree and then the right one. `depth` bounds the recursion, `left` is how
many more nodes the tree may have; the answer is the tree, the nodes left and the next offset. -/
def parseTree (s : State) (n : Nat) : Nat → Nat → Nat → Except Status (CodeNode × Nat × Nat)
  | 0, _, _ => .error .malformed
  | depth + 1, left, pos =>
    match nextTag s n pos with
    | .error st => .error st
    | .ok t =>
      match left with
      | 0 => .error .malformed
      | left + 1 =>
        match tagKind t with
        | .bad => .error .malformed
        | .leaf sym => .ok (.leaf sym 0, left, pos + 4)
        | .internal =>
          match parseTree s n depth left (pos + 4) with
          | .error st => .error st
          | .ok (l, left', pos') =>
            match parseTree s n depth left' pos' with
            | .error st => .error st
            | .ok (r, left'', pos'') => .ok (.internal t 0 l r, left'', pos'')

/-! ## The channel -/

/-- The bytes of a channel's answers, in order: the channel's byte stream (R105). -/
def channelBytes : List ChanAnswer → List Byte
  | [] => []
  | .data c :: rest => c ++ channelBytes rest
  | .closed :: rest => channelBytes rest
  | .error :: rest => channelBytes rest

/-- What a channel's stream holds, in order: bytes, and the places where it closes or fails (R105). -/
inductive ChanEvent where
  | byte (b : Byte)
  | closed
  | error
  deriving DecidableEq, Repr

/-- The stream of a channel's answers, without the cuts between chunks (R115). -/
def channelEvents : List ChanAnswer → List ChanEvent
  | [] => []
  | .data c :: rest => c.map .byte ++ channelEvents rest
  | .closed :: rest => .closed :: channelEvents rest
  | .error :: rest => .error :: channelEvents rest

/-- The bytes taken from the channel and not yet delivered, in arrival order: what a waiting `RDEX` has,
then `FB` (R35, R53). -/
def State.held (s : State) : List Byte :=
  match s.flight with
  | some (.rdex _ out) => out ++ s.fb
  | some (.rdrec _) => s.fb
  | none => s.fb

/-- A command in flight waits for something it does not have (R109, R118). -/
def flightWaits (s : State) : Flight → Prop
  | .rdrec m => m ≤ s.params.fbCap ∧ s.fb.length < m ∧ terminator ∉ s.fb
  | .rdex n out => n ≤ s.params.codedCap ∧ out.length < n ∧ s.fb = []

/-! ## Commands -/

/-- The unit commands: those that `STATUS.LAST` records (R26). -/
def isUnit : Instr → Bool
  | .nop => false
  | .hist => true
  | .build => true
  | .enc => true
  | .dec => true
  | .fclr => true
  | .rdrec _ => true
  | .rdex _ => true
  | .ldCsr _ => false
  | .ldPlain _ => false
  | .ldCoded _ => false
  | .ldRec _ => false
  | .ldFreq _ => false
  | .ldCode _ => false
  | .stCsr _ _ => false
  | .stPlain _ _ => false
  | .stCoded _ _ => false
  | .stFreq _ _ => false

/-- The words R64 calls illegal, written from its text: (a) an opcode that is none of the 18, (b) a
nonzero field that the command does not use. -/
def illegalWord (w : CmdWord) : Prop :=
  (opField w).toNat ∉ [0x00, 0x01, 0x02, 0x03, 0x04, 0x10, 0x11, 0x12, 0x20, 0x21, 0x22, 0x23, 0x24,
    0x25, 0x30, 0x31, 0x32, 0x34] ∨
  ((opField w).toNat < 0x20 ∧ aField w ≠ 0) ∨
  ((opField w).toNat ∈ [0x00, 0x01, 0x02, 0x03, 0x04, 0x10, 0x20, 0x21, 0x22, 0x23, 0x24, 0x25] ∧
    dField w ≠ 0)

/-- The statuses a command may end with (R132, column "raised by"; `ILLEGAL` is no command's). -/
def mayEndWith : Instr → List Status
  | .nop => [.ok]
  | .hist => [.ok]
  | .build => [.ok, .badFreq]
  | .enc => [.ok, .noCode, .noSpace]
  | .dec => [.ok, .truncated, .corrupt, .malformed, .noSpace]
  | .fclr => [.ok]
  | .rdrec _ => [.ok, .noTerm, .closed, .short, .chanErr, .badArg]
  | .rdex _ => [.ok, .closed, .short, .chanErr, .badArg]
  | .ldCsr _ => [.ok, .badAddr]
  | .ldPlain _ => [.ok, .badAddr]
  | .ldCoded _ => [.ok, .badAddr]
  | .ldRec _ => [.ok, .badAddr]
  | .ldFreq _ => [.ok, .badAddr]
  | .ldCode _ => [.ok, .badAddr]
  | .stCsr _ _ => [.ok, .badAddr, .badArg]
  | .stPlain _ _ => [.ok, .badAddr, .badArg]
  | .stCoded _ _ => [.ok, .badAddr, .badArg]
  | .stFreq _ _ => [.ok, .badAddr]

/-! ## The invariant -/

/-- What holds of the state between steps: canonical memories inside their spaces (R37, R40), lengths
inside the capacities (R27, R35), the tree's registers and code table in agreement with the tree
(R25, R29, R32, R34), at most 511 nodes (R24), and a command in flight that waits for something (R105)
without a response (R17). -/
structure State.Inv (s : State) : Prop where
  plain_wf : s.plain.wf
  coded_wf : s.coded.wf
  record_wf : s.record.wf
  plain_inside : ∀ c ∈ s.plain, c.1 < s.params.plainCap
  coded_inside : ∀ c ∈ s.coded, c.1 < s.params.codedCap
  record_inside : ∀ c ∈ s.record, c.1 < s.params.fbCap
  plen_le : s.plen.toNat ≤ s.params.plainCap
  clen_le : s.clen.toNat ≤ s.params.codedCap
  rlen_le : s.rlen.toNat ≤ s.params.fbCap
  fb_le : s.fb.length ≤ s.params.fbCap
  tv_tree : s.tv = s.tree.isSome
  sl_tree : s.sl = s.tree.any CodeNode.isLeaf
  rootw_tree : s.rootw = s.tree.elim 0 CodeNode.weight
  nnodes_tree : s.nnodes = BitVec.ofNat 32 (s.tree.elim 0 CodeNode.nodes)
  nodes_le : s.tree.elim 0 CodeNode.nodes ≤ 511
  tags_negative : s.tree.all CodeNode.negativeTags = true
  code_tree : s.code = s.tree.elim noCodes assignCodes
  flight_waits : ∀ f, s.flight = some f → flightWaits s f
  flight_silent : s.flight.isSome → s.resp = none

end Sys2Proof.Machine
end

