-- ==== Sys2Proof/Certificates/Slice0/Obligations.lean ====
section
/-! DEFINITION. The statements for the provers. Each docstring names the rule of spec/ it rests on. A
frame is written as an equation of states: every field that the update does not name is unchanged,
memories included. -/

open Sys2Proof Sys2Proof.Machine
open Sys2Proof.Config (ByteSpace Params)

/-! ## Encoding -/

/-- R60, R63: no bit of an encoding is dropped. -/
def Obligations.DecodeOfEncodeIsTheCommand : Prop :=
  ∀ i : Instr, i.WellFormed → decode (encode i) = .ok i

/-- R65: a legal word is exactly one command, and that command's word is the word itself. -/
def Obligations.EncodeOfDecodeIsTheWord : Prop :=
  ∀ (w : CmdWord) (i : Instr), decode w = .ok i → i.WellFormed ∧ encode i = w

/-- R64: which words are illegal, that they change no state and how they are answered, and that a
byte store with a wide datum is not illegal but answered `BAD_ARG`. What a step adds is that the word
is taken from the port and the model's counter advances. -/
def Obligations.IllegalWordsChangeNothing : Prop :=
  (∀ w : CmdWord, (∃ e, decode w = .error e) ↔ illegalWord w) ∧
  (∀ (s : State) (w : CmdWord) (rest : List CmdWord), s.resetIn = false → s.flight = none →
    s.cmds = w :: rest → illegalWord w →
    step s = .next { s with cmds := rest, tick := s.tick + 1, resp := some ⟨.illegal, 0⟩ }) ∧
  (∀ (s : State) (a : Nat) (d : Word), 256 ≤ d.toNat →
    (a < s.params.plainCap →
      ¬ illegalWord (encode (.stPlain a d)) ∧
      exec (.stPlain a d) s = .next { s with resp := some ⟨.badArg, 0⟩ }) ∧
    (a < s.params.codedCap →
      ¬ illegalWord (encode (.stCoded a d)) ∧
      exec (.stCoded a d) s = .next { s with resp := some ⟨.badArg, 0⟩ }))

/-- The 18 words of 95_test_vectors.md section 2.6, one per command, and the illegal word H5 of section
2.5 (R60, R63, R64). A sanity statement. -/
def Obligations.ListedWordsDecode : Prop :=
  decode 0x0000000000000000 = .ok .nop ∧
  decode 0x0100000000000000 = .ok .hist ∧
  decode 0x0200000000000000 = .ok .build ∧
  decode 0x0300000000000000 = .ok .enc ∧
  decode 0x0400000000000000 = .ok .dec ∧
  decode 0x1000000000000000 = .ok .fclr ∧
  decode 0x1100000000000040 = .ok (.rdrec 64) ∧
  decode 0x1200000000000011 = .ok (.rdex 17) ∧
  decode 0x2000000500000000 = .ok (.ldCsr 5) ∧
  decode 0x2100000200000000 = .ok (.ldPlain 2) ∧
  decode 0x2200001000000000 = .ok (.ldCoded 16) ∧
  decode 0x2300000900000000 = .ok (.ldRec 9) ∧
  decode 0x2400004100000000 = .ok (.ldFreq 0x41) ∧
  decode 0x2500041100000000 = .ok (.ldCode 0x411) ∧
  decode 0x3000000100000003 = .ok (.stCsr 1 3) ∧
  decode 0x3100000200000042 = .ok (.stPlain 2 0x42) ∧
  decode 0x3200001000000003 = .ok (.stCoded 16 0x03) ∧
  decode 0x3400004100000002 = .ok (.stFreq 0x41 2) ∧
  decode 0x3300000000000000 = .error .unknownOpcode

/-! ## Steps -/

/-- R17, R23: an idle core takes the host's next word; a legal one runs as its command. What the step
adds: the word leaves the port and the model's counter advances. -/
def Obligations.StepRunsTheDecodedCommand : Prop :=
  ∀ (s : State) (w : CmdWord) (rest : List CmdWord) (i : Instr), s.resetIn = false →
    s.flight = none → s.cmds = w :: rest → decode w = .ok i →
    step s = exec i { s with cmds := rest, tick := s.tick + 1 }

/-- R18, R150: while a command is in flight the host's words wait, all of them; on a silent channel
the state stays as it is for any number of steps; an idle core with no word waits; reset ends the
hang. -/
def Obligations.WaitingCoreTakesNoCommand : Prop :=
  (∀ s t : State, s.resetIn = false → s.flight.isSome → step s = .next t → t.cmds = s.cmds) ∧
  (∀ (s : State) (k : Nat), s.resetIn = false → s.flight.isSome → s.chan = [] →
    Host.Core.run Sys2Proof.core k s = .next s) ∧
  (∀ s : State, s.resetIn = false → s.flight = none → s.cmds = [] → step s = .next s) ∧
  (∀ s t : State, s.resetIn = true → step s = .next t → t.flight = none)

/-- R142, R137: the reset event. Everything takes its reset value (R39) and no response is left; the
parameters stay; what the host has still to say stays; the channel keeps what it had, but a chunk that
it was about to hand over to the open pull may count as consumed (93 U7). -/
def Obligations.ResetEventRestoresResetState : Prop :=
  ∀ s : State, s.resetIn = true →
    ∃ chan, step s =
        .next { State.resetWith s.params with cmds := s.cmds, chan := chan, tick := s.tick + 1 } ∧
      (chan = s.chan ∨ ∃ c, s.flight.isSome ∧ s.chan = .data c :: chan)

/-- R39: every value of the reset table, seen as the host sees it where the host can. That a byte of
`PLAIN`, `CODED` or `REC` holds no value of its own is the model's form of "unspecified" (log 3); the
default capacities are those of R8 (log 7). -/
def Obligations.ResetValues : Prop :=
  (∀ p : Params,
    (∀ i, i < 9 → csrRead? (State.resetWith p) i = some 0) ∧
    csrRead? (State.resetWith p) 9 = some (BitVec.ofNat 32 p.plainCap) ∧
    csrRead? (State.resetWith p) 10 = some (BitVec.ofNat 32 p.codedCap) ∧
    csrRead? (State.resetWith p) 11 = some (BitVec.ofNat 32 p.fbCap) ∧
    (∀ sym, (State.resetWith p).freqOf sym = 0) ∧
    (∀ sym, (State.resetWith p).codeOf sym = []) ∧
    (State.resetWith p).tv = false ∧ (State.resetWith p).sl = false ∧
    (State.resetWith p).last = .ok ∧
    (State.resetWith p).tree = none ∧ (State.resetWith p).fb = [] ∧
    (∀ sp a, ((State.resetWith p).bytes sp).read? a = none) ∧
    (State.resetWith p).flight = none) ∧
  State.reset.params.plainCap = 65536 ∧ State.reset.params.codedCap = 67584 ∧
  State.reset.params.fbCap = 4096

/-! ## Invariants and whole-machine rules -/

/-- The invariant holds after reset, for all parameters (R39). -/
def Obligations.InvariantHoldsAfterReset : Prop := ∀ p : Params, (State.resetWith p).Inv

/-- Every step keeps the invariant (R24, R25, R27, R29, R32, R34, R35, R37, R105). -/
def Obligations.EveryStepKeepsTheInvariant : Prop :=
  ∀ s t : State, s.Inv → step s = .next t → t.Inv

/-- R138 and 93 section 2: no command stops the machine, and the only step without a next state is a
channel answer outside the protocol (93 U5). -/
def Obligations.OnlyChannelProtocolStopsAStep : Prop :=
  (∀ (i : Instr) (s : State), ∃ t, exec i s = .next t) ∧
  (∀ s : State, (∃ t, step s = .next t) ∨
    (step s = .refused .channelProtocol ∧ s.resetIn = false ∧
      ∃ f c rest, s.flight = some f ∧ s.chan = .data c :: rest ∧
        ¬ (1 ≤ c.length ∧ c.length ≤ pullSize s f)))

/-- R17, R19, R20: an accepted command either ends with one response and nothing in flight, or is
`RDREC` or `RDEX` with an open pull and no response yet. -/
def Obligations.OneResponseOrAnOpenPull : Prop :=
  ∀ (i : Instr) (s t : State), s.flight = none → exec i s = .next t →
    (t.flight = none ∧ ∃ r, t.resp = some r) ∨
    (t.resp = none ∧
      ((∃ m, i = .rdrec m ∧ t.flight = some (.rdrec m)) ∨
        ∃ n out, i = .rdex n ∧ t.flight = some (.rdex n out)))

/-- R26: `STATUS.LAST` records the unit commands and nothing else. -/
def Obligations.LastRecordsUnitCommandsOnly : Prop :=
  (∀ (i : Instr) (s t : State), exec i s = .next t →
    (isUnit i = false → t.last = s.last) ∧
    (isUnit i = true → (∀ r, t.resp = some r → t.last = r.status) ∧
      (t.resp = none → t.last = s.last))) ∧
  (∀ s t : State, s.resetIn = false → s.flight.isSome → s.chan ≠ [] → step s = .next t →
    (∀ r, t.resp = some r → t.last = r.status) ∧ (t.resp = none → t.last = s.last)) ∧
  (∀ (s t : State) (w : CmdWord) (rest : List CmdWord) (e : DecodeError), s.resetIn = false →
    s.flight = none → s.cmds = w :: rest → decode w = .error e → step s = .next t →
    t.last = s.last)

/-- R132, column "raised by": which statuses each command may end with. -/
def Obligations.StatusesEachCommandMayRaise : Prop :=
  (∀ (i : Instr) (s t : State) (r : Response), exec i s = .next t → t.resp = some r →
    r.status ∈ mayEndWith i) ∧
  (∀ (s t : State) (m : Nat) (r : Response), s.resetIn = false → s.flight = some (.rdrec m) →
    s.chan ≠ [] → step s = .next t → t.resp = some r → r.status ∈ mayEndWith (.rdrec m)) ∧
  (∀ (s t : State) (n : Nat) (out : List Byte) (r : Response), s.resetIn = false →
    s.flight = some (.rdex n out) → s.chan ≠ [] → step s = .next t → t.resp = some r →
    r.status ∈ mayEndWith (.rdex n))

/-- R62, R132: the response values of the commands other than loads, at once or after a channel answer;
the layout of the response word; the code of each status. -/
def Obligations.ResponseValues : Prop :=
  (∀ (i : Instr) (s t : State) (r : Response), exec i s = .next t → t.resp = some r →
    match i with
    | .nop => r.value = 0
    | .hist => r.value = t.count
    | .build => r.value = if r.status = .ok then t.nnodes else 0
    | .enc => r.value = if r.status = .ok then t.clen else 0
    | .dec => r.value = if r.status = .ok then t.plen else 0
    | .fclr => r.value = 0
    | .rdrec _ => r.value = if r.status = .badArg then 0 else t.rlen
    | .rdex _ => r.value = if r.status = .badArg then 0 else t.clen
    | .stCsr _ _ => r.value = 0
    | .stPlain _ _ => r.value = 0
    | .stCoded _ _ => r.value = 0
    | .stFreq _ _ => r.value = 0
    | .ldCsr _ => r.status ≠ .ok → r.value = 0
    | .ldPlain _ => r.status ≠ .ok → r.value = 0
    | .ldCoded _ => r.status ≠ .ok → r.value = 0
    | .ldRec _ => r.status ≠ .ok → r.value = 0
    | .ldFreq _ => r.status ≠ .ok → r.value = 0
    | .ldCode _ => r.status ≠ .ok → r.value = 0) ∧
  (∀ (s t : State) (r : Response), s.resetIn = false → s.chan ≠ [] → step s = .next t →
    t.resp = some r →
    (∀ m, s.flight = some (.rdrec m) → r.value = t.rlen) ∧
    (∀ n out, s.flight = some (.rdex n out) → r.value = t.clen)) ∧
  (∀ r : Response, r.word.extractLsb' 32 8 = r.status.byte ∧ r.word.extractLsb' 0 32 = r.value) ∧
  Status.ok.byte = 0x00 ∧ Status.noTerm.byte = 0x01 ∧ Status.closed.byte = 0x02 ∧
  Status.short.byte = 0x03 ∧ Status.chanErr.byte = 0x04 ∧ Status.truncated.byte = 0x10 ∧
  Status.corrupt.byte = 0x11 ∧ Status.malformed.byte = 0x12 ∧ Status.noCode.byte = 0x13 ∧
  Status.badFreq.byte = 0x14 ∧ Status.noSpace.byte = 0x20 ∧ Status.illegal.byte = 0x30 ∧
  Status.badAddr.byte = 0x31 ∧ Status.badArg.byte = 0x32

/-- R34: what discarding the tree changes; `BUILD` and `DEC` start with it (a tree before makes no
difference to them); no tree is left after any `ENC`, any `DEC` and reset. -/
def Obligations.TreeIsDiscarded : Prop :=
  (∀ s : State, discardTree s =
    { s with tree := none, tv := false, sl := false, rootw := 0, nnodes := 0,
             code := Vector.replicate 256 [] }) ∧
  (∀ s : State, exec .build (discardTree s) = exec .build s ∧
    exec .dec (discardTree s) = exec .dec s) ∧
  (∀ s t : State, exec .enc s = .next t ∨ exec .dec s = .next t → discardTree t = t) ∧
  (∀ p : Params, discardTree (State.resetWith p) = State.resetWith p)

/-! ## HIST and BUILD -/

/-- R69, R70: `HIST` counts the bytes it reads, exactly (no count wraps, R14); its frame. -/
def Obligations.HistCountsEverySymbol : Prop :=
  ∀ s : State, ∃ freq,
    exec .hist s = .next
      { s with freq := freq, count := s.plen, last := .ok, resp := some ⟨.ok, s.plen⟩ } ∧
    ∀ sym : Byte, (freq[sym.toNat]'sym.isLt).toNat =
      (readPrefix s .plain 0 s.plen.toNat).count sym

/-- R71: after `HIST` the frequencies add up to `COUNT = PLEN`, so a `BUILD` that follows is `OK`. -/
def Obligations.BuildAfterHistSucceeds : Prop :=
  ∀ s t u : State, exec .hist s = .next t → exec .build t = .next u →
    freqSum t = t.count.toNat ∧ t.count = s.plen ∧
    (s.plen = 0 → ∀ sym, t.freqOf sym = 0) ∧ ∃ v, u.resp = some ⟨.ok, v⟩

/-- R79: frequencies that do not add up to `COUNT`; the sum is a mathematical integer. -/
def Obligations.BuildRejectsWrongCount : Prop :=
  ∀ s : State, freqSum s ≠ s.count.toNat →
    exec .build s = .next
      { s with tree := none, tv := false, sl := false, rootw := 0, nnodes := 0,
               code := Vector.replicate 256 [], last := .badFreq, resp := some ⟨.badFreq, 0⟩ }

/-- R78: the empty input; and `ENC` then encodes an empty `PLAIN` without a tree. -/
def Obligations.BuildOfEmptyInputLeavesNoTree : Prop :=
  ∀ s : State, s.count = 0 → (∀ sym, s.freqOf sym = 0) →
    exec .build s = .next
      { s with tree := none, tv := false, sl := false, rootw := 0, nnodes := 0,
               code := Vector.replicate 256 [], last := .ok, resp := some ⟨.ok, 0⟩ } ∧
    (s.plen = 0 → ∀ t, exec .build s = .next t →
      ∃ u, exec .enc t = .next u ∧ u.resp = some ⟨.ok, 4⟩ ∧ u.coded.Holds [0, 0, 0, 0])

/-- R80, R29: all that any `BUILD` may change; and the result of one with `COUNT > 0` that is `OK`: weight
conservation, `2L - 1` nodes, and a code for exactly the symbols of nonzero frequency. -/
def Obligations.BuildMakesTreeAndTable : Prop :=
  (∀ s : State, ∃ tree code tv sl last rootw nnodes resp,
    exec .build s = .next
      { s with
        tree := tree, code := code, tv := tv, sl := sl, last := last, rootw := rootw
        nnodes := nnodes, resp := resp }) ∧
  ∀ s : State, freqSum s = s.count.toNat → s.count ≠ 0 →
    ∃ root code,
      exec .build s = .next
        { s with
          tree := some root, code := code, tv := true, sl := root.isLeaf, rootw := s.count
          nnodes := BitVec.ofNat 32 (2 * (presentSymbols s).length - 1), last := .ok
          resp := some ⟨.ok, BitVec.ofNat 32 (2 * (presentSymbols s).length - 1)⟩ } ∧
      root.weight = s.count ∧ root.nodes = 2 * (presentSymbols s).length - 1 ∧
      ∀ sym : Byte, code[sym.toNat]'sym.isLt ≠ [] ↔ s.freqOf sym ≠ 0

/-- R74, R75, R76: the tree that `BUILD` leaves is what the combining steps of R76, written out in
`Combined`, make of one leaf per symbol of nonzero frequency: which node is popped first and which
second, which child each becomes, the tag and the exact weight of each internal node. So its leaves are
these symbols and its internal nodes carry the tags `ITAG(0)` to `ITAG(L-2)`, each once. -/
def Obligations.BuiltTreeHasEveryLeafAndTag : Prop :=
  ∀ (s t : State) (root : CodeNode), exec .build s = .next t → t.tree = some root →
    Combined 0 ((presentSymbols s).map (fun sym => .leaf sym (s.freqOf sym))) root ∧
    root.symbols.Perm (presentSymbols s) ∧
    root.internalTags.Perm ((List.range ((presentSymbols s).length - 1)).map itag) ∧
    ∀ k, k < 255 → (itag k).toInt = -(256 + (k : Int))

/-- R77: in a built tree, the code of a symbol is the path to its leaf (bit 0 left, bit 1 right), or
`[0]` for a single leaf, and nothing else. -/
def Obligations.BuiltCodesAreTreePaths : Prop :=
  ∀ (s t : State) (root : CodeNode), exec .build s = .next t → t.tree = some root →
    ∀ (sym : Byte) (path : Code), path ≠ [] → (t.codeOf sym = path ↔ root.CodeFor sym path)

/-- R81: no code of a built table is a prefix of another symbol's code. -/
def Obligations.BuiltCodesArePrefixFree : Prop :=
  ∀ (s t : State) (v : Word), exec .build s = .next t → t.resp = some ⟨.ok, v⟩ →
    ∀ x y : Byte, x ≠ y → t.codeOf x ≠ [] → t.codeOf y ≠ [] → ¬ t.codeOf x <+: t.codeOf y

/-- R12: a code of a built table has at most 255 bits. -/
def Obligations.BuiltCodesHaveAtMost255Bits : Prop :=
  ∀ s t : State, exec .build s = .next t → ∀ sym, (t.codeOf sym).length ≤ 255

/-- R75, R76: the queue order, written out in `CodeNode.precedes`; `PopMin` removes one node and leaves
none that comes before it; a combining step makes the least node the left child and the least of the
others the right child of a node with tag `ITAG(k)` and the sum of the weights. -/
def Obligations.PopMinRemovesTheLeastNode : Prop :=
  (∀ x y : CodeNode, nodeBefore x y = true ↔ x.precedes y) ∧
  (∀ (x : CodeNode) (xs : List CodeNode) (m : CodeNode) (rest : List CodeNode),
    popMin x xs = (m, rest) → (m :: rest).Perm (x :: xs) ∧ ∀ y ∈ rest, ¬ y.precedes m) ∧
  (∀ (k : Nat) (x y : CodeNode) (ys : List CodeNode) (node : CodeNode) (rest : List CodeNode),
    combineTwo k x y ys = (node, rest) →
    ∃ t w a b, node = .internal t w a b ∧ (a :: b :: rest).Perm (x :: y :: ys) ∧
      ¬ b.precedes a ∧ (∀ z ∈ rest, ¬ z.precedes a ∧ ¬ z.precedes b) ∧
      (k < 255 → t.toInt = -(256 + (k : Int))) ∧
      (a.weight.toNat + b.weight.toNat < 2 ^ 32 →
        w.toNat = a.weight.toNat + b.weight.toNat))

/-- R82: `BUILD` twice in a row gives the same state as once. -/
def Obligations.BuildTwiceIsBuildOnce : Prop :=
  ∀ s t : State, exec .build s = .next t → exec .build t = .next t

/-! ## ENC -/

/-- R87, R58: the empty input encodes to four zero bytes whether or not a tree is present; its frame. -/
def Obligations.EncOfEmptyInput : Prop :=
  ∀ s : State, s.plen = 0 →
    ∃ coded,
      exec .enc s = .next
        { discardTree s with
          coded := coded, clen := 4, payoff := 4, last := .ok, resp := some ⟨.ok, 4⟩ } ∧
      coded.Holds [0, 0, 0, 0] ∧ Memory.SameFrom 4 s.coded coded

/-- R89: `NO_CODE` without a tree, whatever `PLAIN` holds, or with a written byte below `PLEN` that has
no code, whatever the other bytes are; nothing but `CODED`, `CLEN`, `PAYOFF`, the tree and the status
changes. -/
def Obligations.EncWithoutCodeFails : Prop :=
  ∀ s : State, s.plen ≠ 0 →
    (s.tv = false ∨ ∃ i b, i < s.plen.toNat ∧ s.plain.read? i = some b ∧ s.codeOf b = []) →
    ∃ coded,
      exec .enc s = .next
        { discardTree s with
          coded := coded, clen := 0, payoff := 0, last := .noCode, resp := some ⟨.noCode, 0⟩ }

/-- R43, R84, R88, R89: which bits of the value each byte of a big-endian word holds; and, with a tree
and a code for every byte, `ENC` writes the encoded buffer of R56 and nothing above it, or answers
`NO_SPACE` where the buffer is larger than `CODED_CAP`. -/
def Obligations.EncWritesTheEncodedBuffer : Prop :=
  (∀ v : Word, ∃ b0 b1 b2 b3 : Byte, be32 v = [b0, b1, b2, b3] ∧
    ∀ j, j < 8 → b0.getLsbD j = v.getLsbD (24 + j) ∧ b1.getLsbD j = v.getLsbD (16 + j) ∧
      b2.getLsbD j = v.getLsbD (8 + j) ∧ b3.getLsbD j = v.getLsbD j) ∧
  ∀ (s : State) (bs : List Byte) (tags : List Word) (bits : List Bool) (size : Nat), bs ≠ [] →
    bs.length = s.plen.toNat → s.plain.Holds bs → s.tv = true → (∀ b ∈ bs, s.codeOf b ≠ []) →
    tags = treeTags s → bits = (bs.map s.codeOf).flatten →
    size = 4 + 4 * tags.length + (bits.length + 7) / 8 →
    ∃ coded,
      (size ≤ s.params.codedCap →
        exec .enc s = .next
          { discardTree s with
            coded := coded, clen := BitVec.ofNat 32 size
            payoff := BitVec.ofNat 32 (4 + 4 * tags.length), last := .ok
            resp := some ⟨.ok, BitVec.ofNat 32 size⟩ } ∧
        coded.Holds (be32 s.plen ++ ((tags.map be32).flatten ++ packPayload bits)) ∧
        Memory.SameFrom size s.coded coded) ∧
      (s.params.codedCap < size →
        exec .enc s = .next
          { discardTree s with
            coded := coded, clen := 0, payoff := 0, last := .noSpace
            resp := some ⟨.noSpace, 0⟩ })

/-- R44, R45, R86: payload bit `i` is bit `i mod 8` of payload byte `i div 8`, and the bits above the
last one are 0. -/
def Obligations.PayloadBitsAreLeastSignificantFirst : Prop :=
  ∀ bits : List Bool, (packPayload bits).length = (bits.length + 7) / 8 ∧
    ∀ i, i < 8 * (packPayload bits).length →
      ((packPayload bits).getD (i / 8) 0).getLsbD (i % 8) = bits.getD i false

/-- R85: `ENC` serialises `TREE`; the listing is the node's tag, then the left subtree, then the right
one, and a leaf's tag is its symbol; the explicit-stack traversal gives the same listing, one value per
node. -/
def Obligations.StackTraversalIsPreOrder : Prop :=
  (∀ (s : State) (root : CodeNode), s.tree = some root → treeTags s = serialize root) ∧
  (∀ (sym : Byte) (w : Word), serialize (.leaf sym w) = [sym.setWidth 32]) ∧
  (∀ (t w : Word) (l r : CodeNode),
    serialize (.internal t w l r) = [t] ++ serialize l ++ serialize r) ∧
  ∀ (root : CodeNode) (fuel : Nat), root.nodes ≤ fuel →
    serializeStack fuel [root] = serialize root ∧ (serialize root).length = root.nodes

/-! ## DEC -/

/-- R93, R100, R104: the checks of the header, in their order, with the frame of a failed `DEC`. -/
def Obligations.DecChecksTheHeaderFirst : Prop :=
  ∀ s : State,
    (s.clen.toNat < 4 →
      ∃ plain, exec .dec s = .next
        { discardTree s with
          plain := plain, plen := 0, payoff := 0, last := .truncated
          resp := some ⟨.truncated, 0⟩ }) ∧
    (∀ len : Word, 4 ≤ s.clen.toNat → s.coded.Holds (be32 len) → s.params.plainCap < len.toNat →
      ∃ plain, exec .dec s = .next
        { discardTree s with
          plain := plain, plen := 0, payoff := 0, last := .noSpace
          resp := some ⟨.noSpace, 0⟩ }) ∧
    (∀ len : Word, s.clen.toNat = 4 → s.coded.Holds (be32 len) → len ≠ 0 →
      len.toNat ≤ s.params.plainCap →
      ∃ plain, exec .dec s = .next
        { discardTree s with
          plain := plain, plen := 0, payoff := 0, last := .truncated
          resp := some ⟨.truncated, 0⟩ })

/-- R95: original length 0. Bytes after the four header bytes are ignored. -/
def Obligations.DecOfEmptyLength : Prop :=
  ∀ s : State, 4 ≤ s.clen.toNat → s.coded.Holds [0, 0, 0, 0] →
    exec .dec s = .next
      { discardTree s with plen := 0, payoff := 4, last := .ok, resp := some ⟨.ok, 0⟩ }

/-- R99: a single-leaf buffer. One bit per symbol, which must be 0; a 1 is `CORRUPT`; too few bits are
`TRUNCATED`. -/
def Obligations.DecOfSingleLeaf : Prop :=
  ∀ (s : State) (sym : Byte) (len : Word) (payload : List Byte), len ≠ 0 →
    len.toNat ≤ s.params.plainCap → s.clen.toNat = 8 + payload.length →
    s.coded.Holds (be32 len ++ (be32 (zextByte sym) ++ payload)) →
    ∃ plain,
      (len.toNat ≤ 8 * payload.length →
        (∀ i, i < len.toNat → (payload.getD (i / 8) 0).getLsbD (i % 8) = false) →
        exec .dec s = .next
          { discardTree s with
            plain := plain, plen := len, payoff := 8, last := .ok, resp := some ⟨.ok, len⟩ } ∧
        plain.Holds (List.replicate len.toNat sym) ∧
        Memory.SameFrom len.toNat s.plain plain) ∧
      (∀ j, j < len.toNat → j < 8 * payload.length →
        (∀ i, i < j → (payload.getD (i / 8) 0).getLsbD (i % 8) = false) →
        (payload.getD (j / 8) 0).getLsbD (j % 8) = true →
        exec .dec s = .next
          { discardTree s with
            plain := plain, plen := 0, payoff := 8, last := .corrupt
            resp := some ⟨.corrupt, 0⟩ }) ∧
      (8 * payload.length < len.toNat →
        (∀ i, i < 8 * payload.length → (payload.getD (i / 8) 0).getLsbD (i % 8) = false) →
        exec .dec s = .next
          { discardTree s with
            plain := plain, plen := 0, payoff := 8, last := .truncated
            resp := some ⟨.truncated, 0⟩ })

/-- R93, R98, R100, R103, R104, R151: `DEC` on a header and tree of the format of R56, whatever tree it
carries (at most 511 nodes, any negative internal tags, any leaf symbols), and a payload whose bits are
those of the codes as far as both go. If all the bits are there, `DEC` emits the symbols, whatever the
padding bits and the bytes after them are; if they run out before the last symbol is whole, it answers
`TRUNCATED` and emits nothing. -/
def Obligations.DecDecodesEveryWellFormedBuffer : Prop :=
  ∀ (s : State) (root : CodeNode) (syms : List Byte) (codes : List Code)
      (bits : List Bool) (header payload : List Byte),
    root.negativeTags = true → root.nodes ≤ 511 → syms ≠ [] →
    syms.length ≤ s.params.plainCap → List.Forall₂ (fun sym c => root.CodeFor sym c) syms codes →
    bits = codes.flatten →
    header = be32 (BitVec.ofNat 32 syms.length) ++ ((serialize root).map be32).flatten →
    s.coded.Holds (header ++ payload) → s.clen.toNat = (header ++ payload).length →
    (∀ i, i < bits.length → i < 8 * payload.length →
      (payload.getD (i / 8) 0).getLsbD (i % 8) = bits.getD i false) →
    ∃ plain,
      (bits.length ≤ 8 * payload.length →
        exec .dec s = .next
          { discardTree s with
            plain := plain, plen := BitVec.ofNat 32 syms.length
            payoff := BitVec.ofNat 32 (4 + 4 * root.nodes), last := .ok
            resp := some ⟨.ok, BitVec.ofNat 32 syms.length⟩ } ∧
        plain.Holds syms ∧ Memory.SameFrom syms.length s.plain plain) ∧
      (8 * payload.length < bits.length →
        exec .dec s = .next
          { discardTree s with
            plain := plain, plen := 0, payoff := BitVec.ofNat 32 (4 + 4 * root.nodes)
            last := .truncated, resp := some ⟨.truncated, 0⟩ })

/-- R93, R96, R100: what a tag denotes, written out; when a tag is `TRUNCATED` and which value it has
otherwise; the stack reconstruction gives what the recursive pre-order reading `parseTree` gives, the
same tree from the same tags and the same failures; and `DEC` answers with that failure (a tag cut off is
`TRUNCATED`, a tag above 255 or a 512th node is `MALFORMED`), or goes on to the payload at the offset
that the reading ends at. -/
def Obligations.StackRebuildIsRecursiveParse : Prop :=
  (∀ t : Word,
    (t.toInt < 0 → tagKind t = .internal) ∧
    (∀ sym : Byte, t.toInt = (sym.toNat : Int) → tagKind t = .leaf sym) ∧
    (255 < t.toInt → tagKind t = .bad)) ∧
  (∀ (s : State) (n pos : Nat),
    (n < pos + 4 → nextTag s n pos = .error .truncated) ∧
    (∀ v : Word, pos + 4 ≤ n → (∀ i, i < 4 → s.coded.read? (pos + i) = (be32 v)[i]?) →
      nextTag s n pos = .ok v)) ∧
  (∀ (s : State) (n pos : Nat),
    readTree s n 511 pos [] =
      (match parseTree s n 512 511 pos with
        | .error st => .error st
        | .ok (root, _, pos') => .ok (root, pos'))) ∧
  (∀ s : State, 4 ≤ s.clen.toNat → codedWord s 0 ≠ 0 →
    (codedWord s 0).toNat ≤ s.params.plainCap →
    match parseTree s s.clen.toNat 512 511 4 with
    | .error st => (st = .truncated ∨ st = .malformed) ∧
        ∃ plain, exec .dec s = .next
          { discardTree s with
            plain := plain, plen := 0, payoff := 0, last := st, resp := some ⟨st, 0⟩ }
    | .ok (root, _, pos) => pos = 4 + 4 * root.nodes ∧ root.nodes ≤ 511 ∧
        ∃ plain plen last resp, exec .dec s = .next
          { discardTree s with
            plain := plain, plen := plen, payoff := BitVec.ofNat 32 pos, last := last, resp := resp })

/-- R101: what every failure of `DEC` leaves: no tree, length 0, and `PAYOFF` at 0 for a failure in the
header or the tree, at the header's end for one in the payload. No `DEC` changes `CODED` or `CLEN`. -/
def Obligations.DecFailureLeavesNoOutput : Prop :=
  ∀ (s t : State) (r : Response), exec .dec s = .next t → t.resp = some r →
    t.coded = s.coded ∧ t.clen = s.clen ∧
    (r.status ≠ .ok →
      r.value = 0 ∧ t.plen = 0 ∧ discardTree t = t ∧
      t.payoff =
        if s.clen.toNat < 4 ∨ s.params.plainCap < (codedWord s 0).toNat then 0
        else
          match readTree s s.clen.toNat 511 4 [] with
          | .ok (_, pos) => BitVec.ofNat 32 pos
          | .error _ => 0)

/-- R102: all that any `DEC` may change, and the part of `PLAIN` a successful one writes. -/
def Obligations.DecChangesOnlyItsOutputs : Prop :=
  ∀ s : State, ∃ plain plen payoff last resp,
    exec .dec s = .next
      { s with
        plain := plain, plen := plen, payoff := payoff, last := last, resp := resp
        tree := none, tv := false, sl := false, rootw := 0, nnodes := 0
        code := Vector.replicate 256 [] } ∧
    (last = .ok → Memory.SameFrom plen.toNat s.plain plain)

/-- R100: `CORRUPT` arises at a single-leaf root only: the first tag is a leaf and the header has 8
bytes. -/
def Obligations.CorruptOnlyAtSingleLeafRoot : Prop :=
  ∀ (s t : State) (v : Word), exec .dec s = .next t → t.resp = some ⟨.corrupt, v⟩ →
    0 ≤ (codedWord s 4).toInt ∧ t.payoff = 8

/-! ## Round trips -/

/-- R91: a tree that has a code for every byte present, built for these bytes or not, encodes them so
that `DEC` gives them back. -/
def Obligations.DecUndoesEnc : Prop :=
  ∀ (s t : State) (bs : List Byte) (v : Word), s.Inv → bs.length = s.plen.toNat →
    s.plain.Holds bs → exec .enc s = .next t → t.resp = some ⟨.ok, v⟩ →
    ∃ u, exec .dec t = .next u ∧ u.resp = some ⟨.ok, s.plen⟩ ∧ u.plen = s.plen ∧ u.plain.Holds bs

/-- R90: `hist; build; enc; dec` gives back every byte sequence whose encoding fits `CODED_CAP`, and
`ENC` answers `NO_SPACE` only where it does not fit. -/
def Obligations.HistBuildEncDecRoundTrip : Prop :=
  ∀ (s : State) (bs : List Byte), bs.length ≤ s.params.plainCap → bs.length = s.plen.toNat →
    s.plain.Holds bs →
    ∃ s1 s2 s3 v2, exec .hist s = .next s1 ∧ s1.resp = some ⟨.ok, s.plen⟩ ∧
      exec .build s1 = .next s2 ∧ s2.resp = some ⟨.ok, v2⟩ ∧
      exec .enc s2 = .next s3 ∧
      ((s.params.codedCap < 4 + 4 * (treeTags s2).length + ceil8 (codeBits s2 bs).length ∧
          s3.resp = some ⟨.noSpace, 0⟩) ∨
        (s3.resp = some ⟨.ok, s3.clen⟩ ∧
          ∃ s4, exec .dec s3 = .next s4 ∧ s4.resp = some ⟨.ok, s.plen⟩ ∧ s4.plen = s.plen ∧
            s4.plain.Holds bs))

/-! ## The framer -/

/-- R107: `FCLR`. -/
def Obligations.FclrEmptiesTheFrameBuffer : Prop :=
  ∀ s : State, exec .fclr s = .next { s with fb := [], last := .ok, resp := some ⟨.ok, 0⟩ } ∧
    csrRead? { s with fb := [] } 7 = some 0

/-- R110, R109: a record held whole in `FB`, terminator inside the first `max_len` bytes. -/
def Obligations.RdrecDeliversTheRecord : Prop :=
  ∀ (s : State) (m : Nat) (line rest : List Byte), m ≤ s.params.fbCap →
    s.fb = line ++ 0x0A :: rest → (0x0A : Byte) ∉ line → line.length < m →
    ∃ record,
      exec (.rdrec m) s = .next
        { s with
          record := record, rlen := BitVec.ofNat 32 (line.length + 1), fb := rest, flight := none
          last := .ok, resp := some ⟨.ok, BitVec.ofNat 32 (line.length + 1)⟩ } ∧
      record.Holds (line ++ [0x0A]) ∧ Memory.SameFrom (line.length + 1) s.record record

/-- R111, R116: no terminator among the first `max_len` bytes held (`max_len = 0` included): exactly
`max_len` bytes are delivered and the rest is kept. That `REC` keeps its other bytes after `NO_TERM` is
the model's reading (log 11). -/
def Obligations.RdrecWithoutTerminator : Prop :=
  ∀ (s : State) (m : Nat) (out rest : List Byte), m ≤ s.params.fbCap → s.fb = out ++ rest →
    out.length = m → (0x0A : Byte) ∉ out →
    ∃ record,
      exec (.rdrec m) s = .next
        { s with
          record := record, rlen := BitVec.ofNat 32 m, fb := rest, flight := none
          last := .noTerm, resp := some ⟨.noTerm, BitVec.ofNat 32 m⟩ } ∧
      record.Holds out ∧ Memory.SameFrom m s.record record

/-- R105, R109, R114, R118: `RDREC` and `RDEX` start a pull exactly when `FB` does not satisfy them,
and the request size of the pull. -/
def Obligations.PullsStartOnlyWhenNeeded : Prop :=
  (∀ (s : State) (m : Nat), m ≤ s.params.fbCap →
    (s.fb.length < m ∧ (0x0A : Byte) ∉ s.fb →
      exec (.rdrec m) s = .next { s with flight := some (.rdrec m), resp := none } ∧
      pullSize s (.rdrec m) = s.params.fbCap - s.fb.length) ∧
    (¬ (s.fb.length < m ∧ (0x0A : Byte) ∉ s.fb) →
      ∃ t, exec (.rdrec m) s = .next t ∧ t.flight = none)) ∧
  (∀ (s : State) (n : Nat), n ≤ s.params.codedCap →
    (s.fb.length < n →
      exec (.rdex n) s =
        .next { s with fb := [], flight := some (.rdex n s.fb), resp := none } ∧
      pullSize { s with fb := [] } (.rdex n s.fb) = min (n - s.fb.length) s.params.fbCap) ∧
    (n ≤ s.fb.length → ∃ t, exec (.rdex n) s = .next t ∧ t.flight = none))

/-- R113, R119: an operand above the capacity: `BAD_ARG`, and only `STATUS.LAST` changes. -/
def Obligations.FramerOperandBounds : Prop :=
  (∀ (s : State) (m : Nat), s.params.fbCap < m →
    exec (.rdrec m) s = .next { s with last := .badArg, resp := some ⟨.badArg, 0⟩ }) ∧
  (∀ (s : State) (n : Nat), s.params.codedCap < n →
    exec (.rdex n) s = .next { s with last := .badArg, resp := some ⟨.badArg, 0⟩ })

/-- R109, R112, R113, R20: what each channel answer does to a waiting `RDREC`. A chunk is appended to
`FB` and the command scans again, as if issued on that buffer. -/
def Obligations.ChannelAnswersToRdrec : Prop :=
  ∀ (s : State) (m : Nat) (ans : ChanAnswer) (rest : List ChanAnswer), s.resetIn = false →
    s.flight = some (.rdrec m) → s.chan = ans :: rest → m ≤ s.params.fbCap →
    (ans = .closed → s.fb = [] →
      step s = .next
        { s with
          chan := rest, tick := s.tick + 1, flight := none, rlen := 0, last := .closed
          resp := some ⟨.closed, 0⟩ }) ∧
    (ans = .closed → s.fb ≠ [] →
      ∃ record,
        step s = .next
          { s with
            chan := rest, tick := s.tick + 1, flight := none, record := record, fb := []
            rlen := BitVec.ofNat 32 s.fb.length, last := .short
            resp := some ⟨.short, BitVec.ofNat 32 s.fb.length⟩ } ∧
        record.Holds s.fb ∧ Memory.SameFrom s.fb.length s.record record) ∧
    (ans = .error →
      step s = .next
        { s with
          chan := rest, tick := s.tick + 1, flight := none, rlen := 0, last := .chanErr
          resp := some ⟨.chanErr, 0⟩ }) ∧
    (∀ c, ans = .data c → 1 ≤ c.length → c.length ≤ s.params.fbCap - s.fb.length →
      step s = exec (.rdrec m)
        { s with chan := rest, tick := s.tick + 1, fb := s.fb ++ c }) ∧
    (∀ c, ans = .data c → ¬ (1 ≤ c.length ∧ c.length ≤ s.params.fbCap - s.fb.length) →
      step s = .refused .channelProtocol)

/-- R118, R121: `RDEX` served from the buffer alone (`n = 0` included), without a pull. -/
def Obligations.RdexServedFromTheFrameBuffer : Prop :=
  ∀ (s : State) (n : Nat) (out rest : List Byte), n ≤ s.params.codedCap → s.fb = out ++ rest →
    out.length = n →
    ∃ coded,
      exec (.rdex n) s = .next
        { s with
          coded := coded, clen := BitVec.ofNat 32 n, fb := rest, flight := none, last := .ok
          resp := some ⟨.ok, BitVec.ofNat 32 n⟩ } ∧
      coded.Holds out ∧ Memory.SameFrom n s.coded coded

/-- R118, R119, R20: what each channel answer does to a waiting `RDEX`. -/
def Obligations.ChannelAnswersToRdex : Prop :=
  ∀ (s : State) (n : Nat) (out : List Byte) (ans : ChanAnswer) (rest : List ChanAnswer),
    s.resetIn = false → s.flight = some (.rdex n out) → s.chan = ans :: rest →
    out.length < n →
    (∀ st, (ans = .closed ∧ st = (if out = [] then Status.closed else Status.short)) ∨
        (ans = .error ∧ st = .chanErr) →
      ∃ coded,
        step s = .next
          { s with
            chan := rest, tick := s.tick + 1, flight := none, coded := coded
            clen := BitVec.ofNat 32 out.length, last := st
            resp := some ⟨st, BitVec.ofNat 32 out.length⟩ } ∧
        coded.Holds out ∧ Memory.SameFrom out.length s.coded coded) ∧
    (∀ c, ans = .data c → 1 ≤ c.length → c.length ≤ min (n - out.length) s.params.fbCap →
      (c.length < n - out.length →
        step s = .next
          { s with
            chan := rest, tick := s.tick + 1, flight := some (.rdex n (out ++ c)), resp := none }) ∧
      (c.length = n - out.length →
        ∃ coded,
          step s = .next
            { s with
              chan := rest, tick := s.tick + 1, flight := none, coded := coded
              clen := BitVec.ofNat 32 n, last := .ok, resp := some ⟨.ok, BitVec.ofNat 32 n⟩ } ∧
          coded.Holds (out ++ c) ∧ Memory.SameFrom n s.coded coded)) ∧
    (∀ c, ans = .data c → ¬ (1 ≤ c.length ∧ c.length ≤ min (n - out.length) s.params.fbCap) →
      step s = .refused .channelProtocol)

/-- R20, R105: the request size of an open pull is between 1 and `FB_CAP`. -/
def Obligations.PullRequestsAreInBounds : Prop :=
  ∀ (s : State) (f : Flight), s.Inv → s.flight = some f →
    1 ≤ pullSize s f ∧ pullSize s f ≤ s.params.fbCap

/-- R53, R122: in every step but reset and `FCLR`, the bytes delivered, then the bytes held, then the
channel's stream, are what was held and the stream before, in order, none skipped or repeated. -/
def Obligations.ChannelBytesKeepTheirOrder : Prop :=
  ∀ s t : State, s.Inv → s.resetIn = false →
    (∀ w rest, s.flight = none → s.cmds = w :: rest → decode w ≠ .ok .fclr) → step s = .next t →
    ∃ delivered : List Byte,
      delivered ++ (t.held ++ channelBytes t.chan) = s.held ++ channelBytes s.chan ∧
      (delivered = [] ∨
        ∃ r, t.resp = some r ∧ r.value = BitVec.ofNat 32 delivered.length ∧
          (t.record.Holds delivered ∨ t.coded.Holds delivered))

/-- R115, for commands that deliver bytes (`RDREC`, `RDEX`; an `FCLR` drops what was read ahead, log
12): however the channel cuts one stream into chunks, closing and failing at the same places of it, runs
that complete deliver the same bytes with the same statuses and leave the same stream to come. -/
def Obligations.DeliveryDoesNotDependOnChunks : Prop :=
  ∀ (s : State) (c₁ c₂ : List ChanAnswer) (k₁ k₂ : Nat) (t₁ t₂ : State),
    s.flight = none → s.resetIn = false →
    (∀ w ∈ s.cmds, ∃ m, decode w = .ok (.rdrec m) ∨ decode w = .ok (.rdex m)) →
    channelEvents c₁ = channelEvents c₂ →
    Host.Core.run Sys2Proof.core k₁ { s with chan := c₁ } = .next t₁ →
    Host.Core.run Sys2Proof.core k₂ { s with chan := c₂ } = .next t₂ →
    t₁.flight = none → t₁.cmds = [] → t₂.flight = none → t₂.cmds = [] →
    t₁.resp = t₂.resp ∧ t₁.last = t₂.last ∧ t₁.rlen = t₂.rlen ∧ t₁.clen = t₂.clen ∧
      t₁.record = t₂.record ∧ t₁.coded = t₂.coded ∧
      t₁.fb.map .byte ++ channelEvents t₁.chan = t₂.fb.map .byte ++ channelEvents t₂.chan

/-! ## Host access -/

/-- R123: `NOP`; the all-zero word is `NOP`; an opcode 0 word with a nonzero field is illegal. -/
def Obligations.NopChangesNothing : Prop :=
  (∀ s : State, exec .nop s = .next { s with resp := some ⟨.ok, 0⟩ }) ∧
  decode 0 = .ok .nop ∧
  (∀ (a : BitVec 24) (d : BitVec 32), a ≠ 0 ∨ d ≠ 0 →
    ∃ e, decode (commandWord 0 a d) = .error e)

/-- R24, R125, R126: what `LD.CSR` returns for every index; it changes no state. -/
def Obligations.LdCsrReadsEveryRegister : Prop :=
  ∀ s : State,
    (∃ w : Word, exec (.ldCsr 0) s = .next { s with resp := some ⟨.ok, w⟩ } ∧
      ∀ j, j < 32 → w.getLsbD j =
        if j = 0 then s.tv else if j = 1 then s.sl
        else if 8 ≤ j ∧ j < 16 then s.last.byte.getLsbD (j - 8) else false) ∧
    exec (.ldCsr 1) s = .next { s with resp := some ⟨.ok, s.plen⟩ } ∧
    exec (.ldCsr 2) s = .next { s with resp := some ⟨.ok, s.clen⟩ } ∧
    exec (.ldCsr 3) s = .next { s with resp := some ⟨.ok, s.rlen⟩ } ∧
    exec (.ldCsr 4) s = .next { s with resp := some ⟨.ok, s.count⟩ } ∧
    exec (.ldCsr 5) s = .next { s with resp := some ⟨.ok, s.rootw⟩ } ∧
    exec (.ldCsr 6) s = .next { s with resp := some ⟨.ok, s.nnodes⟩ } ∧
    exec (.ldCsr 7) s = .next { s with resp := some ⟨.ok, BitVec.ofNat 32 s.fb.length⟩ } ∧
    exec (.ldCsr 8) s = .next { s with resp := some ⟨.ok, s.payoff⟩ } ∧
    exec (.ldCsr 9) s = .next { s with resp := some ⟨.ok, BitVec.ofNat 32 s.params.plainCap⟩ } ∧
    exec (.ldCsr 10) s = .next { s with resp := some ⟨.ok, BitVec.ofNat 32 s.params.codedCap⟩ } ∧
    exec (.ldCsr 11) s = .next { s with resp := some ⟨.ok, BitVec.ofNat 32 s.params.fbCap⟩ } ∧
    ∀ a, 12 ≤ a → exec (.ldCsr a) s = .next { s with resp := some ⟨.badAddr, 0⟩ }

/-- R125, R126, R49: loads of the byte spaces. A byte nothing has written gives some byte with status
`OK`. -/
def Obligations.LdOfByteSpaces : Prop :=
  ∀ (s : State) (a : Nat),
    (a < s.params.plainCap →
      ∃ b : Byte, exec (.ldPlain a) s = .next { s with resp := some ⟨.ok, b.setWidth 32⟩ } ∧
        ∀ c, s.plain.read? a = some c → b = c) ∧
    (s.params.plainCap ≤ a → exec (.ldPlain a) s = .next { s with resp := some ⟨.badAddr, 0⟩ }) ∧
    (a < s.params.codedCap →
      ∃ b : Byte, exec (.ldCoded a) s = .next { s with resp := some ⟨.ok, b.setWidth 32⟩ } ∧
        ∀ c, s.coded.read? a = some c → b = c) ∧
    (s.params.codedCap ≤ a → exec (.ldCoded a) s = .next { s with resp := some ⟨.badAddr, 0⟩ }) ∧
    (a < s.params.fbCap →
      ∃ b : Byte, exec (.ldRec a) s = .next { s with resp := some ⟨.ok, b.setWidth 32⟩ } ∧
        ∀ c, s.record.read? a = some c → b = c) ∧
    (s.params.fbCap ≤ a → exec (.ldRec a) s = .next { s with resp := some ⟨.badAddr, 0⟩ })

/-- R42, R126: the layout of the `CODE` space. -/
def Obligations.LdCodeLayout : Prop :=
  (∀ (s : State) (sym : Byte) (k : Nat), k < 16 →
    (k = 0 → exec (.ldCode (16 * sym.toNat + k)) s =
      .next { s with resp := some ⟨.ok, BitVec.ofNat 32 (s.codeOf sym).length⟩ }) ∧
    (1 ≤ k → k ≤ 8 →
      ∃ w : Word, exec (.ldCode (16 * sym.toNat + k)) s =
          .next { s with resp := some ⟨.ok, w⟩ } ∧
        ∀ j, j < 32 → w.getLsbD j = (s.codeOf sym).getD (32 * (k - 1) + j) false) ∧
    (9 ≤ k → exec (.ldCode (16 * sym.toNat + k)) s =
      .next { s with resp := some ⟨.badAddr, 0⟩ })) ∧
  (∀ (s : State) (a : Nat), 4096 ≤ a →
    exec (.ldCode a) s = .next { s with resp := some ⟨.badAddr, 0⟩ })

/-- R31, R125, R129: the `FREQ` space: a store changes one entry, a load returns it. -/
def Obligations.FreqSpaceAccess : Prop :=
  (∀ (s : State) (sym : Byte) (d : Word),
    exec (.ldFreq sym.toNat) s = .next { s with resp := some ⟨.ok, s.freqOf sym⟩ } ∧
    ∃ freq, exec (.stFreq sym.toNat d) s =
        .next { s with freq := freq, resp := some ⟨.ok, 0⟩ } ∧
      ∀ sym' : Byte, freq[sym'.toNat]'sym'.isLt = if sym' = sym then d else s.freqOf sym') ∧
  (∀ (s : State) (a : Nat) (d : Word), 256 ≤ a →
    exec (.ldFreq a) s = .next { s with resp := some ⟨.badAddr, 0⟩ } ∧
    exec (.stFreq a d) s = .next { s with resp := some ⟨.badAddr, 0⟩ })

/-- R24, R27, R129, R130: stores to every `CSR` index. -/
def Obligations.StCsrWritesThreeRegisters : Prop :=
  ∀ (s : State) (d : Word),
    (d.toNat ≤ s.params.plainCap →
      exec (.stCsr 1 d) s = .next { s with plen := d, resp := some ⟨.ok, 0⟩ }) ∧
    (s.params.plainCap < d.toNat →
      exec (.stCsr 1 d) s = .next { s with resp := some ⟨.badArg, 0⟩ }) ∧
    (d.toNat ≤ s.params.codedCap →
      exec (.stCsr 2 d) s = .next { s with clen := d, resp := some ⟨.ok, 0⟩ }) ∧
    (s.params.codedCap < d.toNat →
      exec (.stCsr 2 d) s = .next { s with resp := some ⟨.badArg, 0⟩ }) ∧
    exec (.stCsr 4 d) s = .next { s with count := d, resp := some ⟨.ok, 0⟩ } ∧
    ∀ a, a ≠ 1 → a ≠ 2 → a ≠ 4 →
      exec (.stCsr a d) s = .next { s with resp := some ⟨.badAddr, 0⟩ }

/-- R129, R130, R48, R52: stores to `PLAIN` and `CODED`: one byte changes, a load that follows returns
it, and the address is checked before the datum. -/
def Obligations.StOfByteSpaces : Prop :=
  ∀ (s : State) (a : Nat) (d : Word),
    (a < s.params.plainCap → d.toNat < 256 →
      ∃ plain, exec (.stPlain a d) s =
          .next { s with plain := plain, resp := some ⟨.ok, 0⟩ } ∧
        (∀ a', plain.read? a' = if a' = a then some (d.setWidth 8) else s.plain.read? a') ∧
        exec (.ldPlain a) { s with plain := plain, resp := some ⟨.ok, 0⟩ } =
          .next { s with plain := plain, resp := some ⟨.ok, d⟩ }) ∧
    (s.params.plainCap ≤ a →
      exec (.stPlain a d) s = .next { s with resp := some ⟨.badAddr, 0⟩ }) ∧
    (a < s.params.plainCap → 256 ≤ d.toNat →
      exec (.stPlain a d) s = .next { s with resp := some ⟨.badArg, 0⟩ }) ∧
    (a < s.params.codedCap → d.toNat < 256 →
      ∃ coded, exec (.stCoded a d) s =
          .next { s with coded := coded, resp := some ⟨.ok, 0⟩ } ∧
        (∀ a', coded.read? a' = if a' = a then some (d.setWidth 8) else s.coded.read? a') ∧
        exec (.ldCoded a) { s with coded := coded, resp := some ⟨.ok, 0⟩ } =
          .next { s with coded := coded, resp := some ⟨.ok, d⟩ }) ∧
    (s.params.codedCap ≤ a →
      exec (.stCoded a d) s = .next { s with resp := some ⟨.badAddr, 0⟩ }) ∧
    (a < s.params.codedCap → 256 ≤ d.toNat →
      exec (.stCoded a d) s = .next { s with resp := some ⟨.badArg, 0⟩ })
end

