-- ==== Sys2Proof/Laws/Bits.lean ====
section
/-! SUPPORT. Bits and fields: what a packed word's bits are, what the fields of a command word are. -/

namespace Sys2Proof

/-! ## Command words -/

@[simp] theorem opField_commandWord (op : BitVec 8) (a : BitVec 24) (d : BitVec 32) :
    opField (commandWord op a d) = op := by
  ext i hi
  simp [opField, commandWord, BitVec.getElem_extractLsb']
  grind

@[simp] theorem aField_commandWord (op : BitVec 8) (a : BitVec 24) (d : BitVec 32) :
    aField (commandWord op a d) = a := by
  ext i hi
  simp [aField, commandWord, BitVec.getElem_extractLsb']
  grind

@[simp] theorem dField_commandWord (op : BitVec 8) (a : BitVec 24) (d : BitVec 32) :
    dField (commandWord op a d) = d := by
  ext i hi
  simp [dField, commandWord, BitVec.getElem_extractLsb']
  grind

/-- A command word is its three fields (R60). -/
theorem commandWord_fields (w : CmdWord) : commandWord (opField w) (aField w) (dField w) = w := by
  ext i hi
  simp [opField, aField, dField, commandWord]
  grind

namespace Machine

/-! ## Packed bits -/

theorem testBit_bitsToNat (bits : List Bool) (i : Nat) :
    (bitsToNat bits).testBit i = bits.getD i false := by
  induction bits generalizing i with
  | nil => simp [bitsToNat]
  | cons b bs ih =>
    cases i with
    | zero => cases b <;> simp [bitsToNat]
    | succ i =>
      rw [List.getD_cons_succ, ← ih i, Nat.testBit_succ]
      congr 1
      cases b <;> simp only [bitsToNat, Bool.toNat_true, Bool.toNat_false] <;> omega

/-- Bit `j` of a packed word is element `off + j` of the bits, 0 where there is none (R42, R44, R45). -/
theorem getLsbD_packBits (width : Nat) (bits : List Bool) (off j : Nat) (h : j < width) :
    (packBits width bits off).getLsbD j = bits.getD (off + j) false := by
  simp only [packBits, BitVec.getLsbD_ofNat, testBit_bitsToNat]
  simp [h]

@[simp] theorem length_packPayload (bits : List Bool) :
    (packPayload bits).length = ceil8 bits.length := by
  simp [packPayload]

@[simp] theorem length_be32 (v : Word) : (be32 v).length = 4 := rfl

theorem length_flatten_be32 (tags : List Word) : (tags.map be32).flatten.length = 4 * tags.length := by
  induction tags with
  | nil => rfl
  | cons t ts ih =>
    simp only [List.map_cons, List.flatten_cons, List.length_append, length_be32, ih, List.length_cons]
    omega

end Machine

end Sys2Proof
end

