-- ==== Sys2Proof/Laws/Memory.lean ====
section
/-! SUPPORT. The laws of byte memories: what a read gives after each operation, and that every operation
keeps the canonical form (rising addresses) and stays inside a space. -/

namespace Sys2Proof.Machine

open Config (ByteSpace)

@[simp] theorem Memory.read?_nil (a : Nat) : Memory.read? [] a = none := rfl

@[simp] theorem Memory.read?_cons (c : Host.Cell) (cs : Memory) (a : Nat) :
    Memory.read? (c :: cs) a = if c.1 = a then some c.2 else Memory.read? cs a := rfl

theorem Memory.read?_eq_none {m : Memory} {a : Nat} (h : ∀ c ∈ m, c.1 ≠ a) : m.read? a = none := by
  induction m with
  | nil => rfl
  | cons c cs ih =>
    simp only [Memory.read?_cons]
    rw [if_neg (h c (by simp)), ih (fun c' hc' => h c' (by simp [hc']))]

theorem Memory.read?_append (m m' : Memory) (a : Nat) :
    Memory.read? (m ++ m') a = (m.read? a).or (m'.read? a) := by
  induction m with
  | nil => rfl
  | cons c cs ih =>
    simp only [List.cons_append, Memory.read?_cons]
    split
    · rfl
    · exact ih

/-! ## write -/

theorem Memory.read?_write (m : Memory) (a : Nat) (b : Byte) (a' : Nat) :
    (m.write a b).read? a' = if a' = a then some b else m.read? a' := by
  induction m with
  | nil => simp only [Memory.write, Memory.read?_cons, Memory.read?_nil, eq_comm]
  | cons c cs ih =>
    simp only [Memory.write]
    split
    · simp only [Memory.read?_cons, eq_comm]
    · split
      · simp only [Memory.read?_cons]
        grind
      · simp only [Memory.read?_cons, ih]
        grind

theorem Memory.mem_write {m : Memory} {a : Nat} {b : Byte} {c : Host.Cell}
    (h : c ∈ m.write a b) : c = (a, b) ∨ c ∈ m := by
  induction m with
  | nil => simpa [Memory.write] using h
  | cons d ds ih =>
    simp only [Memory.write] at h
    split at h
    · simpa using h
    · split at h
      · grind
      · grind

theorem Memory.write_wf {m : Memory} (h : m.wf) (a : Nat) (b : Byte) : (m.write a b).wf := by
  induction m with
  | nil => simp [Memory.write]
  | cons c cs ih =>
    have hc := List.pairwise_cons.1 h
    simp only [Memory.write]
    split
    · rename_i hlt
      refine List.pairwise_cons.2 ⟨?_, h⟩
      intro c' hc'
      rcases List.mem_cons.1 hc' with rfl | hm
      · exact hlt
      · exact lt_trans hlt (hc.1 c' hm)
    · split
      · rename_i heq
        exact List.pairwise_cons.2 ⟨fun c' hc' => heq ▸ hc.1 c' hc', hc.2⟩
      · refine List.pairwise_cons.2 ⟨?_, ih hc.2⟩
        intro c' hc'
        rcases Memory.mem_write hc' with rfl | hm
        · simp only
          omega
        · exact hc.1 c' hm

/-! ## writePrefix -/

theorem mem_cellsFrom {a : Nat} {bs : List Byte} {c : Host.Cell} (h : c ∈ cellsFrom a bs) :
    a ≤ c.1 ∧ c.1 < a + bs.length := by
  induction bs generalizing a with
  | nil => simp [cellsFrom] at h
  | cons b bs ih =>
    rcases List.mem_cons.1 h with rfl | hm
    · simp
    · have := ih hm
      simp only [List.length_cons]
      omega

theorem cellsFrom_wf (a : Nat) (bs : List Byte) : Memory.wf (cellsFrom a bs) := by
  induction bs generalizing a with
  | nil => exact List.Pairwise.nil
  | cons b bs ih =>
    exact List.pairwise_cons.2 ⟨fun c hc => (mem_cellsFrom hc).1, ih (a + 1)⟩

theorem read?_cellsFrom (a : Nat) (bs : List Byte) (i : Nat) :
    Memory.read? (cellsFrom a bs) (a + i) = bs[i]? := by
  induction bs generalizing a i with
  | nil => rfl
  | cons b bs ih =>
    simp only [cellsFrom, Memory.read?_cons]
    cases i with
    | zero => simp
    | succ i =>
      have h := ih (a + 1) i
      rw [if_neg (by omega), show a + (i + 1) = a + 1 + i by omega, h]
      rfl

theorem Memory.read?_filter_ge (m : Memory) (n a : Nat) (h : n ≤ a) :
    Memory.read? (m.filter (fun c => decide (n ≤ c.1))) a = m.read? a := by
  induction m with
  | nil => rfl
  | cons c cs ih =>
    by_cases hc : n ≤ c.1
    · simp [hc, ih]
    · have hne : c.1 ≠ a := by omega
      simp [hc, ih, hne]

/-- What a read gives after a prefix is written (R50): the new bytes below its length, the old ones from
there on. -/
theorem Memory.read?_writePrefix (m : Memory) (bs : List Byte) (a : Nat) :
    (m.writePrefix bs).read? a = if a < bs.length then bs[a]? else m.read? a := by
  have h0 := read?_cellsFrom 0 bs a
  rw [Nat.zero_add] at h0
  rw [Memory.writePrefix, Memory.read?_append, h0]
  split
  · rename_i h
    simp [List.getElem?_eq_getElem h]
  · rename_i h
    rw [List.getElem?_eq_none (by omega), Option.none_or,
      Memory.read?_filter_ge m bs.length a (by omega)]

theorem Memory.mem_writePrefix {m : Memory} {bs : List Byte} {c : Host.Cell}
    (h : c ∈ m.writePrefix bs) : c.1 < bs.length ∨ c ∈ m := by
  rcases List.mem_append.1 h with h | h
  · have := mem_cellsFrom h
    left
    omega
  · exact .inr (List.mem_filter.1 h).1

theorem Memory.writePrefix_wf {m : Memory} (h : m.wf) (bs : List Byte) : (m.writePrefix bs).wf := by
  refine List.pairwise_append.2 ⟨cellsFrom_wf 0 bs, h.filter _, ?_⟩
  intro c hc c' hc'
  have h1 := (mem_cellsFrom hc).2
  have h2 := (List.mem_filter.1 hc').2
  simp only [decide_eq_true_eq] at h2
  omega

theorem Memory.holds_writePrefix (m : Memory) (bs : List Byte) : (m.writePrefix bs).Holds bs := by
  intro i hi
  rw [Memory.read?_writePrefix, if_pos hi]

theorem Memory.sameFrom_writePrefix (m : Memory) (bs : List Byte) :
    Memory.SameFrom bs.length m (m.writePrefix bs) := by
  intro a ha
  rw [Memory.read?_writePrefix, if_neg (by omega)]

/-! ## lose -/

theorem Memory.mem_lose {m : Memory} {t : Nat} {sp : ByteSpace} {c : Host.Cell}
    (h : c ∈ m.lose t sp) : ∃ c' ∈ m, c'.1 = c.1 := by
  obtain ⟨c', hc', rfl⟩ := List.mem_map.1 h
  exact ⟨c', hc', rfl⟩

theorem Memory.lose_wf {m : Memory} (h : m.wf) (t : Nat) (sp : ByteSpace) : (m.lose t sp).wf :=
  List.pairwise_map.2 h

/-- A failed command loses values, not the fact that a byte was written (93 U1, U2). -/
theorem Memory.isSome_read?_lose (m : Memory) (t : Nat) (sp : ByteSpace) (a : Nat) :
    ((m.lose t sp).read? a).isSome = (m.read? a).isSome := by
  induction m with
  | nil => rfl
  | cons c cs ih =>
    simp only [Memory.lose, List.map_cons, Memory.read?_cons] at ih ⊢
    split
    · rfl
    · exact ih

/-! ## Reads of a command -/

/-- A read of a written byte gives the byte, whatever the draw. -/
theorem readByte_of_read? {s : State} {sp : ByteSpace} {a : Nat} {b : Byte} (draw : Nat)
    (h : (s.bytes sp).read? a = some b) : readByte s sp draw a = b := by
  simp [readByte, h]

/-- A memory that holds a byte sequence is read as that sequence, whatever the draw. -/
theorem readPrefix_of_holds {s : State} {sp : ByteSpace} {bs : List Byte} (draw : Nat)
    (h : (s.bytes sp).Holds bs) : readPrefix s sp draw bs.length = bs := by
  apply List.ext_getElem?
  intro i
  by_cases hi : i < bs.length
  · have hb := h i hi
    rw [List.getElem?_eq_getElem hi] at hb
    simp [readPrefix, hi, readByte, hb]
  · simp [readPrefix, hi]

@[simp] theorem length_readPrefix (s : State) (sp : ByteSpace) (draw n : Nat) :
    (readPrefix s sp draw n).length = n := by
  simp [readPrefix]

end Sys2Proof.Machine
end

