-- ==== Sys2Proof/Laws/State.lean ====
section
/-! SUPPORT. The small lemmas of the state updates: one per field per update, true by rfl. Cite them so
that no proof unfolds a record update. -/

namespace Sys2Proof.Machine

@[simp] theorem raiseAccess_eq (st : Status) (s : State) : raiseAccess st s = respond st 0 s := rfl

@[simp] theorem raiseUnit_eq (st : Status) (s : State) : raiseUnit st s = finish st 0 s := rfl

@[simp] theorem answerIllegal_eq (s : State) : answerIllegal s = respond .illegal 0 s := rfl

/-! ## respond -/

@[simp] theorem respond_params (st : Status) (v : Word) (s : State) :
    (respond st v s).params = s.params := rfl

@[simp] theorem respond_tv (st : Status) (v : Word) (s : State) :
    (respond st v s).tv = s.tv := rfl

@[simp] theorem respond_sl (st : Status) (v : Word) (s : State) :
    (respond st v s).sl = s.sl := rfl

@[simp] theorem respond_last (st : Status) (v : Word) (s : State) :
    (respond st v s).last = s.last := rfl

@[simp] theorem respond_plen (st : Status) (v : Word) (s : State) :
    (respond st v s).plen = s.plen := rfl

@[simp] theorem respond_clen (st : Status) (v : Word) (s : State) :
    (respond st v s).clen = s.clen := rfl

@[simp] theorem respond_rlen (st : Status) (v : Word) (s : State) :
    (respond st v s).rlen = s.rlen := rfl

@[simp] theorem respond_count (st : Status) (v : Word) (s : State) :
    (respond st v s).count = s.count := rfl

@[simp] theorem respond_rootw (st : Status) (v : Word) (s : State) :
    (respond st v s).rootw = s.rootw := rfl

@[simp] theorem respond_nnodes (st : Status) (v : Word) (s : State) :
    (respond st v s).nnodes = s.nnodes := rfl

@[simp] theorem respond_payoff (st : Status) (v : Word) (s : State) :
    (respond st v s).payoff = s.payoff := rfl

@[simp] theorem respond_freq (st : Status) (v : Word) (s : State) :
    (respond st v s).freq = s.freq := rfl

@[simp] theorem respond_code (st : Status) (v : Word) (s : State) :
    (respond st v s).code = s.code := rfl

@[simp] theorem respond_tree (st : Status) (v : Word) (s : State) :
    (respond st v s).tree = s.tree := rfl

@[simp] theorem respond_fb (st : Status) (v : Word) (s : State) :
    (respond st v s).fb = s.fb := rfl

@[simp] theorem respond_plain (st : Status) (v : Word) (s : State) :
    (respond st v s).plain = s.plain := rfl

@[simp] theorem respond_coded (st : Status) (v : Word) (s : State) :
    (respond st v s).coded = s.coded := rfl

@[simp] theorem respond_record (st : Status) (v : Word) (s : State) :
    (respond st v s).record = s.record := rfl

@[simp] theorem respond_flight (st : Status) (v : Word) (s : State) :
    (respond st v s).flight = s.flight := rfl

@[simp] theorem respond_resp (st : Status) (v : Word) (s : State) :
    (respond st v s).resp = some ⟨st, v⟩ := rfl

@[simp] theorem respond_cmds (st : Status) (v : Word) (s : State) :
    (respond st v s).cmds = s.cmds := rfl

@[simp] theorem respond_chan (st : Status) (v : Word) (s : State) :
    (respond st v s).chan = s.chan := rfl

@[simp] theorem respond_resetIn (st : Status) (v : Word) (s : State) :
    (respond st v s).resetIn = s.resetIn := rfl

@[simp] theorem respond_tick (st : Status) (v : Word) (s : State) :
    (respond st v s).tick = s.tick := rfl

/-! ## finish -/

@[simp] theorem finish_params (st : Status) (v : Word) (s : State) :
    (finish st v s).params = s.params := rfl

@[simp] theorem finish_tv (st : Status) (v : Word) (s : State) :
    (finish st v s).tv = s.tv := rfl

@[simp] theorem finish_sl (st : Status) (v : Word) (s : State) :
    (finish st v s).sl = s.sl := rfl

@[simp] theorem finish_last (st : Status) (v : Word) (s : State) :
    (finish st v s).last = st := rfl

@[simp] theorem finish_plen (st : Status) (v : Word) (s : State) :
    (finish st v s).plen = s.plen := rfl

@[simp] theorem finish_clen (st : Status) (v : Word) (s : State) :
    (finish st v s).clen = s.clen := rfl

@[simp] theorem finish_rlen (st : Status) (v : Word) (s : State) :
    (finish st v s).rlen = s.rlen := rfl

@[simp] theorem finish_count (st : Status) (v : Word) (s : State) :
    (finish st v s).count = s.count := rfl

@[simp] theorem finish_rootw (st : Status) (v : Word) (s : State) :
    (finish st v s).rootw = s.rootw := rfl

@[simp] theorem finish_nnodes (st : Status) (v : Word) (s : State) :
    (finish st v s).nnodes = s.nnodes := rfl

@[simp] theorem finish_payoff (st : Status) (v : Word) (s : State) :
    (finish st v s).payoff = s.payoff := rfl

@[simp] theorem finish_freq (st : Status) (v : Word) (s : State) :
    (finish st v s).freq = s.freq := rfl

@[simp] theorem finish_code (st : Status) (v : Word) (s : State) :
    (finish st v s).code = s.code := rfl

@[simp] theorem finish_tree (st : Status) (v : Word) (s : State) :
    (finish st v s).tree = s.tree := rfl

@[simp] theorem finish_fb (st : Status) (v : Word) (s : State) :
    (finish st v s).fb = s.fb := rfl

@[simp] theorem finish_plain (st : Status) (v : Word) (s : State) :
    (finish st v s).plain = s.plain := rfl

@[simp] theorem finish_coded (st : Status) (v : Word) (s : State) :
    (finish st v s).coded = s.coded := rfl

@[simp] theorem finish_record (st : Status) (v : Word) (s : State) :
    (finish st v s).record = s.record := rfl

@[simp] theorem finish_flight (st : Status) (v : Word) (s : State) :
    (finish st v s).flight = s.flight := rfl

@[simp] theorem finish_resp (st : Status) (v : Word) (s : State) :
    (finish st v s).resp = some ⟨st, v⟩ := rfl

@[simp] theorem finish_cmds (st : Status) (v : Word) (s : State) :
    (finish st v s).cmds = s.cmds := rfl

@[simp] theorem finish_chan (st : Status) (v : Word) (s : State) :
    (finish st v s).chan = s.chan := rfl

@[simp] theorem finish_resetIn (st : Status) (v : Word) (s : State) :
    (finish st v s).resetIn = s.resetIn := rfl

@[simp] theorem finish_tick (st : Status) (v : Word) (s : State) :
    (finish st v s).tick = s.tick := rfl

/-! ## discardTree -/

@[simp] theorem discardTree_params (s : State) :
    (discardTree s).params = s.params := rfl

@[simp] theorem discardTree_tv (s : State) :
    (discardTree s).tv = false := rfl

@[simp] theorem discardTree_sl (s : State) :
    (discardTree s).sl = false := rfl

@[simp] theorem discardTree_last (s : State) :
    (discardTree s).last = s.last := rfl

@[simp] theorem discardTree_plen (s : State) :
    (discardTree s).plen = s.plen := rfl

@[simp] theorem discardTree_clen (s : State) :
    (discardTree s).clen = s.clen := rfl

@[simp] theorem discardTree_rlen (s : State) :
    (discardTree s).rlen = s.rlen := rfl

@[simp] theorem discardTree_count (s : State) :
    (discardTree s).count = s.count := rfl

@[simp] theorem discardTree_rootw (s : State) :
    (discardTree s).rootw = 0 := rfl

@[simp] theorem discardTree_nnodes (s : State) :
    (discardTree s).nnodes = 0 := rfl

@[simp] theorem discardTree_payoff (s : State) :
    (discardTree s).payoff = s.payoff := rfl

@[simp] theorem discardTree_freq (s : State) :
    (discardTree s).freq = s.freq := rfl

@[simp] theorem discardTree_code (s : State) :
    (discardTree s).code = noCodes := rfl

@[simp] theorem discardTree_tree (s : State) :
    (discardTree s).tree = none := rfl

@[simp] theorem discardTree_fb (s : State) :
    (discardTree s).fb = s.fb := rfl

@[simp] theorem discardTree_plain (s : State) :
    (discardTree s).plain = s.plain := rfl

@[simp] theorem discardTree_coded (s : State) :
    (discardTree s).coded = s.coded := rfl

@[simp] theorem discardTree_record (s : State) :
    (discardTree s).record = s.record := rfl

@[simp] theorem discardTree_flight (s : State) :
    (discardTree s).flight = s.flight := rfl

@[simp] theorem discardTree_resp (s : State) :
    (discardTree s).resp = s.resp := rfl

@[simp] theorem discardTree_cmds (s : State) :
    (discardTree s).cmds = s.cmds := rfl

@[simp] theorem discardTree_chan (s : State) :
    (discardTree s).chan = s.chan := rfl

@[simp] theorem discardTree_resetIn (s : State) :
    (discardTree s).resetIn = s.resetIn := rfl

@[simp] theorem discardTree_tick (s : State) :
    (discardTree s).tick = s.tick := rfl

/-! ## acceptCommand -/

@[simp] theorem acceptCommand_params (ws : List CmdWord) (s : State) :
    (acceptCommand ws s).params = s.params := rfl

@[simp] theorem acceptCommand_tv (ws : List CmdWord) (s : State) :
    (acceptCommand ws s).tv = s.tv := rfl

@[simp] theorem acceptCommand_sl (ws : List CmdWord) (s : State) :
    (acceptCommand ws s).sl = s.sl := rfl

@[simp] theorem acceptCommand_last (ws : List CmdWord) (s : State) :
    (acceptCommand ws s).last = s.last := rfl

@[simp] theorem acceptCommand_plen (ws : List CmdWord) (s : State) :
    (acceptCommand ws s).plen = s.plen := rfl

@[simp] theorem acceptCommand_clen (ws : List CmdWord) (s : State) :
    (acceptCommand ws s).clen = s.clen := rfl

@[simp] theorem acceptCommand_rlen (ws : List CmdWord) (s : State) :
    (acceptCommand ws s).rlen = s.rlen := rfl

@[simp] theorem acceptCommand_count (ws : List CmdWord) (s : State) :
    (acceptCommand ws s).count = s.count := rfl

@[simp] theorem acceptCommand_rootw (ws : List CmdWord) (s : State) :
    (acceptCommand ws s).rootw = s.rootw := rfl

@[simp] theorem acceptCommand_nnodes (ws : List CmdWord) (s : State) :
    (acceptCommand ws s).nnodes = s.nnodes := rfl

@[simp] theorem acceptCommand_payoff (ws : List CmdWord) (s : State) :
    (acceptCommand ws s).payoff = s.payoff := rfl

@[simp] theorem acceptCommand_freq (ws : List CmdWord) (s : State) :
    (acceptCommand ws s).freq = s.freq := rfl

@[simp] theorem acceptCommand_code (ws : List CmdWord) (s : State) :
    (acceptCommand ws s).code = s.code := rfl

@[simp] theorem acceptCommand_tree (ws : List CmdWord) (s : State) :
    (acceptCommand ws s).tree = s.tree := rfl

@[simp] theorem acceptCommand_fb (ws : List CmdWord) (s : State) :
    (acceptCommand ws s).fb = s.fb := rfl

@[simp] theorem acceptCommand_plain (ws : List CmdWord) (s : State) :
    (acceptCommand ws s).plain = s.plain := rfl

@[simp] theorem acceptCommand_coded (ws : List CmdWord) (s : State) :
    (acceptCommand ws s).coded = s.coded := rfl

@[simp] theorem acceptCommand_record (ws : List CmdWord) (s : State) :
    (acceptCommand ws s).record = s.record := rfl

@[simp] theorem acceptCommand_flight (ws : List CmdWord) (s : State) :
    (acceptCommand ws s).flight = s.flight := rfl

@[simp] theorem acceptCommand_resp (ws : List CmdWord) (s : State) :
    (acceptCommand ws s).resp = s.resp := rfl

@[simp] theorem acceptCommand_cmds (ws : List CmdWord) (s : State) :
    (acceptCommand ws s).cmds = ws := rfl

@[simp] theorem acceptCommand_chan (ws : List CmdWord) (s : State) :
    (acceptCommand ws s).chan = s.chan := rfl

@[simp] theorem acceptCommand_resetIn (ws : List CmdWord) (s : State) :
    (acceptCommand ws s).resetIn = s.resetIn := rfl

@[simp] theorem acceptCommand_tick (ws : List CmdWord) (s : State) :
    (acceptCommand ws s).tick = s.tick + 1 := rfl

/-! ## takeAnswer -/

@[simp] theorem takeAnswer_params (rest : List ChanAnswer) (s : State) :
    (takeAnswer rest s).params = s.params := rfl

@[simp] theorem takeAnswer_tv (rest : List ChanAnswer) (s : State) :
    (takeAnswer rest s).tv = s.tv := rfl

@[simp] theorem takeAnswer_sl (rest : List ChanAnswer) (s : State) :
    (takeAnswer rest s).sl = s.sl := rfl

@[simp] theorem takeAnswer_last (rest : List ChanAnswer) (s : State) :
    (takeAnswer rest s).last = s.last := rfl

@[simp] theorem takeAnswer_plen (rest : List ChanAnswer) (s : State) :
    (takeAnswer rest s).plen = s.plen := rfl

@[simp] theorem takeAnswer_clen (rest : List ChanAnswer) (s : State) :
    (takeAnswer rest s).clen = s.clen := rfl

@[simp] theorem takeAnswer_rlen (rest : List ChanAnswer) (s : State) :
    (takeAnswer rest s).rlen = s.rlen := rfl

@[simp] theorem takeAnswer_count (rest : List ChanAnswer) (s : State) :
    (takeAnswer rest s).count = s.count := rfl

@[simp] theorem takeAnswer_rootw (rest : List ChanAnswer) (s : State) :
    (takeAnswer rest s).rootw = s.rootw := rfl

@[simp] theorem takeAnswer_nnodes (rest : List ChanAnswer) (s : State) :
    (takeAnswer rest s).nnodes = s.nnodes := rfl

@[simp] theorem takeAnswer_payoff (rest : List ChanAnswer) (s : State) :
    (takeAnswer rest s).payoff = s.payoff := rfl

@[simp] theorem takeAnswer_freq (rest : List ChanAnswer) (s : State) :
    (takeAnswer rest s).freq = s.freq := rfl

@[simp] theorem takeAnswer_code (rest : List ChanAnswer) (s : State) :
    (takeAnswer rest s).code = s.code := rfl

@[simp] theorem takeAnswer_tree (rest : List ChanAnswer) (s : State) :
    (takeAnswer rest s).tree = s.tree := rfl

@[simp] theorem takeAnswer_fb (rest : List ChanAnswer) (s : State) :
    (takeAnswer rest s).fb = s.fb := rfl

@[simp] theorem takeAnswer_plain (rest : List ChanAnswer) (s : State) :
    (takeAnswer rest s).plain = s.plain := rfl

@[simp] theorem takeAnswer_coded (rest : List ChanAnswer) (s : State) :
    (takeAnswer rest s).coded = s.coded := rfl

@[simp] theorem takeAnswer_record (rest : List ChanAnswer) (s : State) :
    (takeAnswer rest s).record = s.record := rfl

@[simp] theorem takeAnswer_flight (rest : List ChanAnswer) (s : State) :
    (takeAnswer rest s).flight = s.flight := rfl

@[simp] theorem takeAnswer_resp (rest : List ChanAnswer) (s : State) :
    (takeAnswer rest s).resp = s.resp := rfl

@[simp] theorem takeAnswer_cmds (rest : List ChanAnswer) (s : State) :
    (takeAnswer rest s).cmds = s.cmds := rfl

@[simp] theorem takeAnswer_chan (rest : List ChanAnswer) (s : State) :
    (takeAnswer rest s).chan = rest := rfl

@[simp] theorem takeAnswer_resetIn (rest : List ChanAnswer) (s : State) :
    (takeAnswer rest s).resetIn = s.resetIn := rfl

@[simp] theorem takeAnswer_tick (rest : List ChanAnswer) (s : State) :
    (takeAnswer rest s).tick = s.tick + 1 := rfl

/-! ## openPull -/

@[simp] theorem openPull_params (f : Flight) (s : State) :
    (openPull f s).params = s.params := rfl

@[simp] theorem openPull_tv (f : Flight) (s : State) :
    (openPull f s).tv = s.tv := rfl

@[simp] theorem openPull_sl (f : Flight) (s : State) :
    (openPull f s).sl = s.sl := rfl

@[simp] theorem openPull_last (f : Flight) (s : State) :
    (openPull f s).last = s.last := rfl

@[simp] theorem openPull_plen (f : Flight) (s : State) :
    (openPull f s).plen = s.plen := rfl

@[simp] theorem openPull_clen (f : Flight) (s : State) :
    (openPull f s).clen = s.clen := rfl

@[simp] theorem openPull_rlen (f : Flight) (s : State) :
    (openPull f s).rlen = s.rlen := rfl

@[simp] theorem openPull_count (f : Flight) (s : State) :
    (openPull f s).count = s.count := rfl

@[simp] theorem openPull_rootw (f : Flight) (s : State) :
    (openPull f s).rootw = s.rootw := rfl

@[simp] theorem openPull_nnodes (f : Flight) (s : State) :
    (openPull f s).nnodes = s.nnodes := rfl

@[simp] theorem openPull_payoff (f : Flight) (s : State) :
    (openPull f s).payoff = s.payoff := rfl

@[simp] theorem openPull_freq (f : Flight) (s : State) :
    (openPull f s).freq = s.freq := rfl

@[simp] theorem openPull_code (f : Flight) (s : State) :
    (openPull f s).code = s.code := rfl

@[simp] theorem openPull_tree (f : Flight) (s : State) :
    (openPull f s).tree = s.tree := rfl

@[simp] theorem openPull_fb (f : Flight) (s : State) :
    (openPull f s).fb = s.fb := rfl

@[simp] theorem openPull_plain (f : Flight) (s : State) :
    (openPull f s).plain = s.plain := rfl

@[simp] theorem openPull_coded (f : Flight) (s : State) :
    (openPull f s).coded = s.coded := rfl

@[simp] theorem openPull_record (f : Flight) (s : State) :
    (openPull f s).record = s.record := rfl

@[simp] theorem openPull_flight (f : Flight) (s : State) :
    (openPull f s).flight = some f := rfl

@[simp] theorem openPull_resp (f : Flight) (s : State) :
    (openPull f s).resp = none := rfl

@[simp] theorem openPull_cmds (f : Flight) (s : State) :
    (openPull f s).cmds = s.cmds := rfl

@[simp] theorem openPull_chan (f : Flight) (s : State) :
    (openPull f s).chan = s.chan := rfl

@[simp] theorem openPull_resetIn (f : Flight) (s : State) :
    (openPull f s).resetIn = s.resetIn := rfl

@[simp] theorem openPull_tick (f : Flight) (s : State) :
    (openPull f s).tick = s.tick := rfl

/-! ## deliverRecord -/

@[simp] theorem deliverRecord_params (st : Status) (out fb : List Byte) (s : State) :
    (deliverRecord st out fb s).params = s.params := rfl

@[simp] theorem deliverRecord_tv (st : Status) (out fb : List Byte) (s : State) :
    (deliverRecord st out fb s).tv = s.tv := rfl

@[simp] theorem deliverRecord_sl (st : Status) (out fb : List Byte) (s : State) :
    (deliverRecord st out fb s).sl = s.sl := rfl

@[simp] theorem deliverRecord_last (st : Status) (out fb : List Byte) (s : State) :
    (deliverRecord st out fb s).last = st := rfl

@[simp] theorem deliverRecord_plen (st : Status) (out fb : List Byte) (s : State) :
    (deliverRecord st out fb s).plen = s.plen := rfl

@[simp] theorem deliverRecord_clen (st : Status) (out fb : List Byte) (s : State) :
    (deliverRecord st out fb s).clen = s.clen := rfl

@[simp] theorem deliverRecord_rlen (st : Status) (out fb : List Byte) (s : State) :
    (deliverRecord st out fb s).rlen = BitVec.ofNat 32 out.length := rfl

@[simp] theorem deliverRecord_count (st : Status) (out fb : List Byte) (s : State) :
    (deliverRecord st out fb s).count = s.count := rfl

@[simp] theorem deliverRecord_rootw (st : Status) (out fb : List Byte) (s : State) :
    (deliverRecord st out fb s).rootw = s.rootw := rfl

@[simp] theorem deliverRecord_nnodes (st : Status) (out fb : List Byte) (s : State) :
    (deliverRecord st out fb s).nnodes = s.nnodes := rfl

@[simp] theorem deliverRecord_payoff (st : Status) (out fb : List Byte) (s : State) :
    (deliverRecord st out fb s).payoff = s.payoff := rfl

@[simp] theorem deliverRecord_freq (st : Status) (out fb : List Byte) (s : State) :
    (deliverRecord st out fb s).freq = s.freq := rfl

@[simp] theorem deliverRecord_code (st : Status) (out fb : List Byte) (s : State) :
    (deliverRecord st out fb s).code = s.code := rfl

@[simp] theorem deliverRecord_tree (st : Status) (out fb : List Byte) (s : State) :
    (deliverRecord st out fb s).tree = s.tree := rfl

@[simp] theorem deliverRecord_fb (st : Status) (out fb : List Byte) (s : State) :
    (deliverRecord st out fb s).fb = fb := rfl

@[simp] theorem deliverRecord_plain (st : Status) (out fb : List Byte) (s : State) :
    (deliverRecord st out fb s).plain = s.plain := rfl

@[simp] theorem deliverRecord_coded (st : Status) (out fb : List Byte) (s : State) :
    (deliverRecord st out fb s).coded = s.coded := rfl

@[simp] theorem deliverRecord_record (st : Status) (out fb : List Byte) (s : State) :
    (deliverRecord st out fb s).record = s.record.writePrefix out := rfl

@[simp] theorem deliverRecord_flight (st : Status) (out fb : List Byte) (s : State) :
    (deliverRecord st out fb s).flight = none := rfl

@[simp] theorem deliverRecord_resp (st : Status) (out fb : List Byte) (s : State) :
    (deliverRecord st out fb s).resp = some ⟨st, BitVec.ofNat 32 out.length⟩ := rfl

@[simp] theorem deliverRecord_cmds (st : Status) (out fb : List Byte) (s : State) :
    (deliverRecord st out fb s).cmds = s.cmds := rfl

@[simp] theorem deliverRecord_chan (st : Status) (out fb : List Byte) (s : State) :
    (deliverRecord st out fb s).chan = s.chan := rfl

@[simp] theorem deliverRecord_resetIn (st : Status) (out fb : List Byte) (s : State) :
    (deliverRecord st out fb s).resetIn = s.resetIn := rfl

@[simp] theorem deliverRecord_tick (st : Status) (out fb : List Byte) (s : State) :
    (deliverRecord st out fb s).tick = s.tick := rfl

/-! ## deliverExact -/

@[simp] theorem deliverExact_params (st : Status) (out : List Byte) (s : State) :
    (deliverExact st out s).params = s.params := rfl

@[simp] theorem deliverExact_tv (st : Status) (out : List Byte) (s : State) :
    (deliverExact st out s).tv = s.tv := rfl

@[simp] theorem deliverExact_sl (st : Status) (out : List Byte) (s : State) :
    (deliverExact st out s).sl = s.sl := rfl

@[simp] theorem deliverExact_last (st : Status) (out : List Byte) (s : State) :
    (deliverExact st out s).last = st := rfl

@[simp] theorem deliverExact_plen (st : Status) (out : List Byte) (s : State) :
    (deliverExact st out s).plen = s.plen := rfl

@[simp] theorem deliverExact_clen (st : Status) (out : List Byte) (s : State) :
    (deliverExact st out s).clen = BitVec.ofNat 32 out.length := rfl

@[simp] theorem deliverExact_rlen (st : Status) (out : List Byte) (s : State) :
    (deliverExact st out s).rlen = s.rlen := rfl

@[simp] theorem deliverExact_count (st : Status) (out : List Byte) (s : State) :
    (deliverExact st out s).count = s.count := rfl

@[simp] theorem deliverExact_rootw (st : Status) (out : List Byte) (s : State) :
    (deliverExact st out s).rootw = s.rootw := rfl

@[simp] theorem deliverExact_nnodes (st : Status) (out : List Byte) (s : State) :
    (deliverExact st out s).nnodes = s.nnodes := rfl

@[simp] theorem deliverExact_payoff (st : Status) (out : List Byte) (s : State) :
    (deliverExact st out s).payoff = s.payoff := rfl

@[simp] theorem deliverExact_freq (st : Status) (out : List Byte) (s : State) :
    (deliverExact st out s).freq = s.freq := rfl

@[simp] theorem deliverExact_code (st : Status) (out : List Byte) (s : State) :
    (deliverExact st out s).code = s.code := rfl

@[simp] theorem deliverExact_tree (st : Status) (out : List Byte) (s : State) :
    (deliverExact st out s).tree = s.tree := rfl

@[simp] theorem deliverExact_fb (st : Status) (out : List Byte) (s : State) :
    (deliverExact st out s).fb = s.fb := rfl

@[simp] theorem deliverExact_plain (st : Status) (out : List Byte) (s : State) :
    (deliverExact st out s).plain = s.plain := rfl

@[simp] theorem deliverExact_coded (st : Status) (out : List Byte) (s : State) :
    (deliverExact st out s).coded = s.coded.writePrefix out := rfl

@[simp] theorem deliverExact_record (st : Status) (out : List Byte) (s : State) :
    (deliverExact st out s).record = s.record := rfl

@[simp] theorem deliverExact_flight (st : Status) (out : List Byte) (s : State) :
    (deliverExact st out s).flight = none := rfl

@[simp] theorem deliverExact_resp (st : Status) (out : List Byte) (s : State) :
    (deliverExact st out s).resp = some ⟨st, BitVec.ofNat 32 out.length⟩ := rfl

@[simp] theorem deliverExact_cmds (st : Status) (out : List Byte) (s : State) :
    (deliverExact st out s).cmds = s.cmds := rfl

@[simp] theorem deliverExact_chan (st : Status) (out : List Byte) (s : State) :
    (deliverExact st out s).chan = s.chan := rfl

@[simp] theorem deliverExact_resetIn (st : Status) (out : List Byte) (s : State) :
    (deliverExact st out s).resetIn = s.resetIn := rfl

@[simp] theorem deliverExact_tick (st : Status) (out : List Byte) (s : State) :
    (deliverExact st out s).tick = s.tick := rfl

/-! ## failEnc -/

@[simp] theorem failEnc_params (st : Status) (s : State) :
    (failEnc st s).params = s.params := rfl

@[simp] theorem failEnc_tv (st : Status) (s : State) :
    (failEnc st s).tv = false := rfl

@[simp] theorem failEnc_sl (st : Status) (s : State) :
    (failEnc st s).sl = false := rfl

@[simp] theorem failEnc_last (st : Status) (s : State) :
    (failEnc st s).last = st := rfl

@[simp] theorem failEnc_plen (st : Status) (s : State) :
    (failEnc st s).plen = s.plen := rfl

@[simp] theorem failEnc_clen (st : Status) (s : State) :
    (failEnc st s).clen = 0 := rfl

@[simp] theorem failEnc_rlen (st : Status) (s : State) :
    (failEnc st s).rlen = s.rlen := rfl

@[simp] theorem failEnc_count (st : Status) (s : State) :
    (failEnc st s).count = s.count := rfl

@[simp] theorem failEnc_rootw (st : Status) (s : State) :
    (failEnc st s).rootw = 0 := rfl

@[simp] theorem failEnc_nnodes (st : Status) (s : State) :
    (failEnc st s).nnodes = 0 := rfl

@[simp] theorem failEnc_payoff (st : Status) (s : State) :
    (failEnc st s).payoff = s.payoff := rfl

@[simp] theorem failEnc_freq (st : Status) (s : State) :
    (failEnc st s).freq = s.freq := rfl

@[simp] theorem failEnc_code (st : Status) (s : State) :
    (failEnc st s).code = noCodes := rfl

@[simp] theorem failEnc_tree (st : Status) (s : State) :
    (failEnc st s).tree = none := rfl

@[simp] theorem failEnc_fb (st : Status) (s : State) :
    (failEnc st s).fb = s.fb := rfl

@[simp] theorem failEnc_plain (st : Status) (s : State) :
    (failEnc st s).plain = s.plain := rfl

@[simp] theorem failEnc_coded (st : Status) (s : State) :
    (failEnc st s).coded = s.coded.lose s.tick .coded := rfl

@[simp] theorem failEnc_record (st : Status) (s : State) :
    (failEnc st s).record = s.record := rfl

@[simp] theorem failEnc_flight (st : Status) (s : State) :
    (failEnc st s).flight = s.flight := rfl

@[simp] theorem failEnc_resp (st : Status) (s : State) :
    (failEnc st s).resp = some ⟨st, 0⟩ := rfl

@[simp] theorem failEnc_cmds (st : Status) (s : State) :
    (failEnc st s).cmds = s.cmds := rfl

@[simp] theorem failEnc_chan (st : Status) (s : State) :
    (failEnc st s).chan = s.chan := rfl

@[simp] theorem failEnc_resetIn (st : Status) (s : State) :
    (failEnc st s).resetIn = s.resetIn := rfl

@[simp] theorem failEnc_tick (st : Status) (s : State) :
    (failEnc st s).tick = s.tick := rfl

/-! ## failDec -/

@[simp] theorem failDec_params (st : Status) (s : State) :
    (failDec st s).params = s.params := rfl

@[simp] theorem failDec_tv (st : Status) (s : State) :
    (failDec st s).tv = false := rfl

@[simp] theorem failDec_sl (st : Status) (s : State) :
    (failDec st s).sl = false := rfl

@[simp] theorem failDec_last (st : Status) (s : State) :
    (failDec st s).last = st := rfl

@[simp] theorem failDec_plen (st : Status) (s : State) :
    (failDec st s).plen = 0 := rfl

@[simp] theorem failDec_clen (st : Status) (s : State) :
    (failDec st s).clen = s.clen := rfl

@[simp] theorem failDec_rlen (st : Status) (s : State) :
    (failDec st s).rlen = s.rlen := rfl

@[simp] theorem failDec_count (st : Status) (s : State) :
    (failDec st s).count = s.count := rfl

@[simp] theorem failDec_rootw (st : Status) (s : State) :
    (failDec st s).rootw = 0 := rfl

@[simp] theorem failDec_nnodes (st : Status) (s : State) :
    (failDec st s).nnodes = 0 := rfl

@[simp] theorem failDec_payoff (st : Status) (s : State) :
    (failDec st s).payoff = s.payoff := rfl

@[simp] theorem failDec_freq (st : Status) (s : State) :
    (failDec st s).freq = s.freq := rfl

@[simp] theorem failDec_code (st : Status) (s : State) :
    (failDec st s).code = noCodes := rfl

@[simp] theorem failDec_tree (st : Status) (s : State) :
    (failDec st s).tree = none := rfl

@[simp] theorem failDec_fb (st : Status) (s : State) :
    (failDec st s).fb = s.fb := rfl

@[simp] theorem failDec_plain (st : Status) (s : State) :
    (failDec st s).plain = s.plain.lose s.tick .plain := rfl

@[simp] theorem failDec_coded (st : Status) (s : State) :
    (failDec st s).coded = s.coded := rfl

@[simp] theorem failDec_record (st : Status) (s : State) :
    (failDec st s).record = s.record := rfl

@[simp] theorem failDec_flight (st : Status) (s : State) :
    (failDec st s).flight = s.flight := rfl

@[simp] theorem failDec_resp (st : Status) (s : State) :
    (failDec st s).resp = some ⟨st, 0⟩ := rfl

@[simp] theorem failDec_cmds (st : Status) (s : State) :
    (failDec st s).cmds = s.cmds := rfl

@[simp] theorem failDec_chan (st : Status) (s : State) :
    (failDec st s).chan = s.chan := rfl

@[simp] theorem failDec_resetIn (st : Status) (s : State) :
    (failDec st s).resetIn = s.resetIn := rfl

@[simp] theorem failDec_tick (st : Status) (s : State) :
    (failDec st s).tick = s.tick := rfl

end Sys2Proof.Machine
end

