-- ==== Sys2Proof/Laws/Ops.lean ====
section
/-! SUPPORT. For each shared operation, one lemma that says once everything it can do. -/

namespace Sys2Proof.Machine

open Config (ByteSpace)

/-! ## Host access -/

theorem loadElement_cases (v : Option Word) (s : State) :
    (∃ w, v = some w ∧ loadElement v s = respond .ok w s) ∨
      (v = none ∧ loadElement v s = respond .badAddr 0 s) := by
  cases v with
  | none => exact .inr ⟨rfl, rfl⟩
  | some w => exact .inl ⟨w, rfl, rfl⟩

/-- A CSR index names a register exactly below 12 (R24). -/
theorem csrRead?_isSome (s : State) (i : Nat) : (csrRead? s i).isSome ↔ i < 12 := by
  by_cases h : i < 12
  · interval_cases i <;> simp [csrRead?]
  · simp only [h, iff_false, Bool.not_eq_true]
    unfold csrRead?
    split <;> first | omega | rfl

/-! ## The framer -/

/-- Everything one pass of `RDREC`'s loop can do (R109): deliver up to the first terminator, deliver `m`
bytes, or pull. -/
theorem scanRecord_cases (m : Nat) (s : State) :
    (∃ i, i < m ∧ i < s.fb.length ∧ s.fb[i]? = some terminator ∧ terminator ∉ s.fb.take i ∧
      scanRecord m s = deliverRecord .ok (s.fb.take (i + 1)) (s.fb.drop (i + 1)) s) ∨
    (terminator ∉ s.fb.take m ∧ m ≤ s.fb.length ∧
      scanRecord m s = deliverRecord .noTerm (s.fb.take m) (s.fb.drop m) s) ∨
    (terminator ∉ s.fb ∧ s.fb.length < m ∧ scanRecord m s = openPull (.rdrec m) s) := by
  unfold scanRecord
  split
  · rename_i i hi
    obtain ⟨hlt, hp, hbefore⟩ := List.findIdx?_eq_some_iff_getElem.1 hi
    simp only [List.length_take, lt_inf_iff] at hlt
    refine .inl ⟨i, hlt.1, hlt.2, ?_, ?_, rfl⟩
    · simp only [List.getElem_take, beq_iff_eq] at hp
      rw [List.getElem?_eq_getElem hlt.2, hp]
    · intro hmem
      obtain ⟨j, hj, hjt⟩ := List.getElem_of_mem hmem
      simp only [List.length_take, lt_inf_iff] at hj
      have := hbefore j hj.1
      simp only [List.getElem_take, beq_iff_eq] at this hjt
      exact absurd hjt (by simpa using this)
  · rename_i hnone
    have hno : terminator ∉ s.fb.take m := by
      intro hmem
      have := List.findIdx?_eq_none_iff.1 hnone terminator hmem
      simp at this
    split
    · rename_i hle
      exact .inr (.inl ⟨hno, hle, rfl⟩)
    · rename_i hlt
      refine .inr (.inr ⟨?_, by omega, rfl⟩)
      rwa [List.take_of_length_le (by omega)] at hno

/-- Everything one pass of `RDEX`'s loop can do (R118). -/
theorem scanExact_cases (n : Nat) (out : List Byte) (s : State) :
    (n ≤ out.length ∧ scanExact n out s = deliverExact .ok out s) ∨
      (out.length < n ∧ scanExact n out s = openPull (.rdex n out) s) := by
  unfold scanExact
  split
  · rename_i h
    exact .inl ⟨h, rfl⟩
  · rename_i h
    exact .inr ⟨by omega, rfl⟩

/-- Everything a channel answer can do to a command in flight (R20): a legal one is taken, an illegal
one is refused by name. -/
theorem channelAnswer_cases (f : Flight) (ans : ChanAnswer) (s : State) :
    (answerLegal (pullSize s f) ans = true ∧ channelAnswer f ans s = .next (answerFlight f ans s)) ∨
      (answerLegal (pullSize s f) ans = false ∧
        channelAnswer f ans s = .refused .channelProtocol) := by
  unfold channelAnswer
  cases h : answerLegal (pullSize s f) ans <;> simp

theorem answerLegal_data {r : Nat} {c : List Byte} :
    answerLegal r (.data c) = true ↔ 1 ≤ c.length ∧ c.length ≤ r := by
  simp [answerLegal]

/-! ## The encoder -/

theorem length_encodedBuffer (len : Word) (tags : List Word) (bits : List Bool) :
    (encodedBuffer len tags bits).length = 4 + 4 * tags.length + ceil8 bits.length := by
  simp only [encodedBuffer, List.length_append, length_be32, length_flatten_be32, length_packPayload]
  omega

/-- Everything the end of `ENC` can do (R84, R89). -/
theorem encWrite_cases (tags : List Word) (bits : List Bool) (s : State) :
    (s.params.codedCap < 4 + 4 * tags.length + ceil8 bits.length ∧
      encWrite tags bits s = failEnc .noSpace s) ∨
    (4 + 4 * tags.length + ceil8 bits.length ≤ s.params.codedCap ∧
      encWrite tags bits s =
        finish .ok (BitVec.ofNat 32 (4 + 4 * tags.length + ceil8 bits.length))
          (discardTree
            { s with
              coded := s.coded.writePrefix (encodedBuffer s.plen tags bits)
              payoff := BitVec.ofNat 32 (4 + 4 * tags.length)
              clen := BitVec.ofNat 32 (4 + 4 * tags.length + ceil8 bits.length) })) := by
  unfold encWrite
  split
  · rename_i h
    exact .inl ⟨h, rfl⟩
  · rename_i h
    exact .inr ⟨by omega, rfl⟩

/-! ## The decoder -/

theorem nextTag_cases (s : State) (n pos : Nat) :
    (n < pos + 4 ∧ nextTag s n pos = .error .truncated) ∨
      (pos + 4 ≤ n ∧ nextTag s n pos = .ok (codedWord s pos)) := by
  unfold nextTag
  split
  · rename_i h
    exact .inl ⟨h, rfl⟩
  · rename_i h
    exact .inr ⟨by omega, rfl⟩

theorem nextBit_cases (s : State) (n pos bi : Nat) :
    (n ≤ pos + bi / 8 ∧ nextBit s n pos bi = .error .truncated) ∨
      (pos + bi / 8 < n ∧
        nextBit s n pos bi = .ok ((readByte s .coded bi (pos + bi / 8)).getLsbD (bi % 8))) := by
  unfold nextBit
  split
  · rename_i h
    exact .inl ⟨h, rfl⟩
  · rename_i h
    exact .inr ⟨by omega, rfl⟩

/-! ## The builder -/

/-- `PopMin` keeps the nodes of the queue (R75). -/
theorem popMin_perm (x : CodeNode) (xs : List CodeNode) :
    ((popMin x xs).1 :: (popMin x xs).2).Perm (x :: xs) := by
  induction xs generalizing x with
  | nil => exact List.Perm.refl _
  | cons y ys ih =>
    simp only [popMin]
    split
    · exact ((List.Perm.swap x _ _).trans (List.Perm.cons x (ih y)))
    · exact ((List.Perm.swap y _ _).trans (List.Perm.cons y (ih x))).trans (List.Perm.swap x y ys)

theorem length_popMin (x : CodeNode) (xs : List CodeNode) : (popMin x xs).2.length = xs.length := by
  have := (popMin_perm x xs).length_eq
  simpa using this

/-- Everything one combining step can do (R76): two nodes of the queue, popped first and second, become
the children of the `k`-th internal node; the other nodes stay. -/
theorem combineTwo_cases (k : Nat) (x y : CodeNode) (ys : List CodeNode) :
    ∃ a b rest, combineTwo k x y ys = (.internal (itag k) (a.weight + b.weight) a b, rest) ∧
      (a :: b :: rest).Perm (x :: y :: ys) ∧ rest.length = ys.length := by
  have hp := popMin_perm x (y :: ys)
  have hl := length_popMin x (y :: ys)
  unfold combineTwo
  cases h : popMin x (y :: ys) with
  | mk a r =>
    rw [h] at hp hl
    cases r with
    | nil => simp at hl
    | cons z zs =>
      have hp' := popMin_perm z zs
      have hl' := length_popMin z zs
      simp only [List.length_cons, Nat.add_right_cancel_iff] at hl hl'
      refine ⟨a, (popMin z zs).1, (popMin z zs).2, rfl, ?_, by omega⟩
      exact (List.Perm.cons a hp').trans hp

end Sys2Proof.Machine
end

