-- ==== Sys2Proof/Laws/Machine.lean ====
section
/-! SUPPORT. Everything one step of the machine can do. -/

namespace Sys2Proof.Machine

theorem runWord_ok {w : CmdWord} {i : Instr} (h : decode w = .ok i) (s : State) :
    runWord w s = exec i s := by
  simp [runWord, h]

theorem runWord_error {w : CmdWord} {e : DecodeError} (h : decode w = .error e) (s : State) :
    runWord w s = .next (respond .illegal 0 s) := by
  simp [runWord, h]

/-- Everything a step can do: a reset, a wait, a channel's answer, or an accepted word. -/
theorem step_cases (s : State) :
    (s.resetIn = true ∧ step s = .next (takeReset s)) ∨
    (s.resetIn = false ∧ (∃ f, s.flight = some f) ∧ s.chan = [] ∧ step s = .next s) ∨
    (s.resetIn = false ∧ ∃ f ans rest, s.flight = some f ∧ s.chan = ans :: rest ∧
      step s = channelAnswer f ans (takeAnswer rest s)) ∨
    (s.resetIn = false ∧ s.flight = none ∧ s.cmds = [] ∧ step s = .next s) ∨
    (s.resetIn = false ∧ s.flight = none ∧ ∃ w rest, s.cmds = w :: rest ∧
      step s = runWord w (acceptCommand rest s)) := by
  unfold step
  cases hr : s.resetIn with
  | true => exact .inl ⟨rfl, rfl⟩
  | false =>
    right
    cases hf : s.flight with
    | some f =>
      cases hc : s.chan with
      | nil => exact .inl ⟨rfl, ⟨f, rfl⟩, rfl, rfl⟩
      | cons ans rest => exact .inr (.inl ⟨rfl, f, ans, rest, rfl, rfl, rfl⟩)
    | none =>
      right
      right
      cases hc : s.cmds with
      | nil => exact .inl ⟨rfl, rfl, rfl, rfl⟩
      | cons w rest => exact .inr ⟨rfl, rfl, w, rest, rfl, rfl⟩

end Sys2Proof.Machine
end

