-- ==== Sys2Proof/Laws/PerInstr.lean ====
section
/-! SUPPORT. Statements for all commands, made per command. `EncodedFields`: the word of a command
carries its opcode (R63), and every field that the command does not use is 0 (R64). -/

namespace Sys2Proof.Laws.EncodedFields

/-- Opcode and unused fields of an encoded command. -/
def Statement (i : Instr) : Prop :=
  opField (encode i) = i.opcode ∧
    ((opField (encode i)).toNat < 0x20 → aField (encode i) = 0) ∧
    (i.opcode ∉ [0x11, 0x12, 0x30, 0x31, 0x32, 0x34] → dField (encode i) = 0)

theorem nop : Statement .nop := by
  simp [Statement, encode, Instr.opcode, Instr.aOperand, Instr.dOperand]

theorem hist : Statement .hist := by
  simp [Statement, encode, Instr.opcode, Instr.aOperand, Instr.dOperand]

theorem build : Statement .build := by
  simp [Statement, encode, Instr.opcode, Instr.aOperand, Instr.dOperand]

theorem enc : Statement .enc := by
  simp [Statement, encode, Instr.opcode, Instr.aOperand, Instr.dOperand]

theorem dec : Statement .dec := by
  simp [Statement, encode, Instr.opcode, Instr.aOperand, Instr.dOperand]

theorem fclr : Statement .fclr := by
  simp [Statement, encode, Instr.opcode, Instr.aOperand, Instr.dOperand]

theorem rdrec (m : Nat) : Statement (.rdrec m) := by
  simp [Statement, encode, Instr.opcode, Instr.aOperand, Instr.dOperand]

theorem rdex (n : Nat) : Statement (.rdex n) := by
  simp [Statement, encode, Instr.opcode, Instr.aOperand, Instr.dOperand]

theorem ldCsr (a : Nat) : Statement (.ldCsr a) := by
  simp [Statement, encode, Instr.opcode, Instr.aOperand, Instr.dOperand]

theorem ldPlain (a : Nat) : Statement (.ldPlain a) := by
  simp [Statement, encode, Instr.opcode, Instr.aOperand, Instr.dOperand]

theorem ldCoded (a : Nat) : Statement (.ldCoded a) := by
  simp [Statement, encode, Instr.opcode, Instr.aOperand, Instr.dOperand]

theorem ldRec (a : Nat) : Statement (.ldRec a) := by
  simp [Statement, encode, Instr.opcode, Instr.aOperand, Instr.dOperand]

theorem ldFreq (a : Nat) : Statement (.ldFreq a) := by
  simp [Statement, encode, Instr.opcode, Instr.aOperand, Instr.dOperand]

theorem ldCode (a : Nat) : Statement (.ldCode a) := by
  simp [Statement, encode, Instr.opcode, Instr.aOperand, Instr.dOperand]

theorem stCsr (a : Nat) (d : Word) : Statement (.stCsr a d) := by
  simp [Statement, encode, Instr.opcode, Instr.aOperand, Instr.dOperand]

theorem stPlain (a : Nat) (d : Word) : Statement (.stPlain a d) := by
  simp [Statement, encode, Instr.opcode, Instr.aOperand, Instr.dOperand]

theorem stCoded (a : Nat) (d : Word) : Statement (.stCoded a d) := by
  simp [Statement, encode, Instr.opcode, Instr.aOperand, Instr.dOperand]

theorem stFreq (a : Nat) (d : Word) : Statement (.stFreq a d) := by
  simp [Statement, encode, Instr.opcode, Instr.aOperand, Instr.dOperand]

end Sys2Proof.Laws.EncodedFields
end

