-- ==== Sys2Proof/Machine/Listing.lean ====
section
/-! DEFINITION. The listing syntax (R66) and the pseudo-instructions (R67). Host-side notation: no step
of the machine depends on it (log 20). -/

namespace Sys2Proof.Machine

/-- The listing form of a command (R66): mnemonic in lower case, operands separated by a comma, numbers
in decimal. -/
def listing : Instr → String
  | .nop => "nop"
  | .hist => "hist"
  | .build => "build"
  | .enc => "enc"
  | .dec => "dec"
  | .fclr => "fclr"
  | .rdrec maxLen => "rdrec " ++ toString maxLen
  | .rdex n => "rdex " ++ toString n
  | .ldCsr addr => "ld.csr " ++ toString addr
  | .ldPlain addr => "ld.plain " ++ toString addr
  | .ldCoded addr => "ld.coded " ++ toString addr
  | .ldRec addr => "ld.rec " ++ toString addr
  | .ldFreq addr => "ld.freq " ++ toString addr
  | .ldCode addr => "ld.code " ++ toString addr
  | .stCsr addr data => "st.csr " ++ toString addr ++ ", " ++ toString data.toNat
  | .stPlain addr data => "st.plain " ++ toString addr ++ ", " ++ toString data.toNat
  | .stCoded addr data => "st.coded " ++ toString addr ++ ", " ++ toString data.toNat
  | .stFreq addr data => "st.freq " ++ toString addr ++ ", " ++ toString data.toNat

/-- The names a `CSR` index may be written by (R24, R66). -/
def csrName : Nat → Option String
  | 0 => some "STATUS"
  | 1 => some "PLEN"
  | 2 => some "CLEN"
  | 3 => some "RLEN"
  | 4 => some "COUNT"
  | 5 => some "ROOTW"
  | 6 => some "NNODES"
  | 7 => some "FBLEN"
  | 8 => some "PAYOFF"
  | 9 => some "CAP_PLAIN"
  | 10 => some "CAP_CODED"
  | 11 => some "CAP_FB"
  | _ => none

/-- The pseudo-instructions of R67. -/
inductive Pseudo where
  | compress
  | decompress
  | setplen (v : Word)
  | setclen (v : Word)
  | setcount (v : Word)
  deriving DecidableEq, Repr

/-- The fixed expansion of a pseudo-instruction (R67). -/
def expandPseudo : Pseudo → List Instr
  | .compress => [.hist, .build, .enc]
  | .decompress => [.dec]
  | .setplen v => [.stCsr 1 v]
  | .setclen v => [.stCsr 2 v]
  | .setcount v => [.stCsr 4 v]

end Sys2Proof.Machine
end

