-- ==== Sys2Proof/Tests/Slice0.lean ====
section
/-! SUPPORT. Tests. Expected results are the spec's: 95_test_vectors.md (ids B, E, D, F, X, H and the
words of 2.6) and its part 1. Then, for the statements with hypotheses, states and operands that meet
all of a statement's hypotheses together (`witness_<statement>`). -/

namespace Sys2Proof.Tests

open Sys2Proof Sys2Proof.Machine Sys2Proof.Config

/-! ## Helpers -/

/-- The next state of a command, or the state itself. -/
def after (i : Instr) (s : State) : State :=
  match exec i s with
  | .next t => t
  | .fault _ => s
  | .refused _ => s

/-- The next state of a step, or the state itself. -/
def stepped (s : State) : State :=
  match step s with
  | .next t => t
  | .fault _ => s
  | .refused _ => s

/-- Whether an outcome is a next state. -/
def isNext : Result → Bool
  | .next _ => true
  | .fault _ => false
  | .refused _ => false

theorem exec_after {i : Instr} {s : State} (h : isNext (exec i s) = true) :
    exec i s = .next (after i s) := by
  unfold after
  cases he : exec i s <;> simp_all [isNext]

theorem step_stepped {s : State} (h : isNext (step s) = true) : step s = .next (stepped s) := by
  unfold stepped
  cases he : step s <;> simp_all [isNext]

/-- No command stops on the way to its result here, so the results need no evaluation. -/
theorem isNext_build (s : State) : isNext (exec .build s) = true := by
  simp only [exec, execBuild]
  split
  · rfl
  · split <;> rfl

/-- Commands one after another. -/
def afterAll : List Instr → State → State
  | [], s => s
  | i :: is, s => afterAll is (after i s)

/-- A state whose `PLAIN` holds the bytes, `PLEN` their number. -/
def withPlain (bs : List Byte) : State :=
  { State.reset with plain := cellsFrom 0 bs, plen := BitVec.ofNat 32 bs.length }

/-- A state whose `CODED` holds the bytes, `CLEN` their number. -/
def withCoded (bs : List Byte) : State :=
  { State.reset with coded := cellsFrom 0 bs, clen := BitVec.ofNat 32 bs.length }

/-- A state whose frame buffer holds the bytes. -/
def withFb (bs : List Byte) : State := { State.reset with fb := bs }

/-- Small capacities: `PLAIN_CAP = 4`, `CODED_CAP = 9`, `FB_CAP = 4`. -/
def tinyParams : Params := ⟨4, 9, 4, by decide⟩

/-- A state with small capacities and a frame buffer. -/
def tiny (fb : List Byte) : State := { State.resetWith tinyParams with fb := fb }

/-- "AAB" of scenario A. -/
def aab : List Byte := [0x41, 0x41, 0x42]

/-- The encoded buffer of scenario A (E1). -/
def aabCoded : List Byte :=
  [0x00, 0x00, 0x00, 0x03, 0xFF, 0xFF, 0xFF, 0x00, 0x00, 0x00, 0x00, 0x42, 0x00, 0x00, 0x00, 0x41,
    0x03]

/-- The tree of scenario A, as the decoder rebuilds it. -/
def aabTree : CodeNode := .internal 0xFFFFFF00 0 (.leaf 0x42 0) (.leaf 0x41 0)

/-- The encoded buffer of scenario B (E2) with another payload byte. -/
def aaaaCoded (payload : Byte) : List Byte :=
  [0x00, 0x00, 0x00, 0x04, 0x00, 0x00, 0x00, 0x41, payload]

/-- Scenario A with its frequencies in place (the example of 41_builder.md). -/
def aabCounted : State :=
  { withPlain aab with freq := ((Vector.replicate 256 0).set 0x41 2).set 0x42 1, count := 3 }

/-- Scenario A with its tree and table in place (the example of 41_builder.md). -/
def aabBuilt : State :=
  { withPlain aab with
    tree := some (.internal 0xFFFFFF00 3 (.leaf 0x42 1) (.leaf 0x41 2))
    code := ((Vector.replicate 256 []).set 0x41 [true]).set 0x42 [false]
    tv := true, rootw := 3, nnodes := 3 }

/-- A waiting `RDREC`, with the channel's answers. -/
def waitingRecord (m : Nat) (fb : List Byte) (chan : List ChanAnswer) : State :=
  { tiny fb with flight := some (.rdrec m), chan := chan }

/-- A waiting `RDEX`, with the channel's answers. -/
def waitingExact (n : Nat) (out : List Byte) (chan : List ChanAnswer) : State :=
  { tiny [] with flight := some (.rdex n out), chan := chan }

/-! ## WellFormed: an ill-formed term for each check -/

theorem test_illformed_rdrec : (Instr.rdrec (2 ^ 32)).wellFormed = false := by decide
theorem test_illformed_rdex : (Instr.rdex (2 ^ 32)).wellFormed = false := by decide
theorem test_illformed_ldCsr : (Instr.ldCsr (2 ^ 24)).wellFormed = false := by decide
theorem test_illformed_ldPlain : (Instr.ldPlain (2 ^ 24)).wellFormed = false := by decide
theorem test_illformed_ldCoded : (Instr.ldCoded (2 ^ 24)).wellFormed = false := by decide
theorem test_illformed_ldRec : (Instr.ldRec (2 ^ 24)).wellFormed = false := by decide
theorem test_illformed_ldFreq : (Instr.ldFreq (2 ^ 24)).wellFormed = false := by decide
theorem test_illformed_ldCode : (Instr.ldCode (2 ^ 24)).wellFormed = false := by decide
theorem test_illformed_stCsr : (Instr.stCsr (2 ^ 24) 0).wellFormed = false := by decide
theorem test_illformed_stPlain : (Instr.stPlain (2 ^ 24) 0).wellFormed = false := by decide
theorem test_illformed_stCoded : (Instr.stCoded (2 ^ 24) 0).wellFormed = false := by decide
theorem test_illformed_stFreq : (Instr.stFreq (2 ^ 24) 0).wellFormed = false := by decide
theorem test_wellformed_widest : (Instr.stCsr (2 ^ 24 - 1) 0xFFFFFFFF).wellFormed = true := by decide

/-! ## Decoding: the words of 2.6 (R60, R63), one per command, and illegal words of 2.5 -/

theorem test_decode_nop : decodeTableWord 64 0x0000000000000000 = some .nop := by decide
theorem test_decode_hist : decodeTableWord 64 0x0100000000000000 = some .hist := by decide
theorem test_decode_build : decodeTableWord 64 0x0200000000000000 = some .build := by decide
theorem test_decode_enc : decodeTableWord 64 0x0300000000000000 = some .enc := by decide
theorem test_decode_dec : decodeTableWord 64 0x0400000000000000 = some .dec := by decide
theorem test_decode_fclr : decodeTableWord 64 0x1000000000000000 = some .fclr := by decide
theorem test_decode_rdrec : decodeTableWord 64 0x1100000000000040 = some (.rdrec 64) := by decide
theorem test_decode_rdex : decodeTableWord 64 0x1200000000000011 = some (.rdex 17) := by decide
theorem test_decode_ldCsr : decodeTableWord 64 0x2000000500000000 = some (.ldCsr 5) := by decide
theorem test_decode_ldPlain : decodeTableWord 64 0x2100000200000000 = some (.ldPlain 2) := by decide
theorem test_decode_ldCoded : decodeTableWord 64 0x2200001000000000 = some (.ldCoded 16) := by decide
theorem test_decode_ldRec : decodeTableWord 64 0x2300000900000000 = some (.ldRec 9) := by decide
theorem test_decode_ldFreq : decodeTableWord 64 0x2400004100000000 = some (.ldFreq 0x41) := by decide
theorem test_decode_ldCode : decodeTableWord 64 0x2500041100000000 = some (.ldCode 0x411) := by
  decide
theorem test_decode_stCsr : decodeTableWord 64 0x3000000100000003 = some (.stCsr 1 3) := by decide
theorem test_decode_stPlain : decodeTableWord 64 0x3100000200000042 = some (.stPlain 2 0x42) := by
  decide
theorem test_decode_stCoded : decodeTableWord 64 0x3200001000000003 = some (.stCoded 16 0x03) := by
  decide
theorem test_decode_stFreq : decodeTableWord 64 0x3400004100000002 = some (.stFreq 0x41 2) := by
  decide

/-- H2 to H8, H13, H35, H36, F10: illegal words, refused by name. -/
theorem test_decode_illegal :
    decode 0x0000000000000001 = .error .unusedD ∧ decode 0x0000000100000000 = .error .unusedA ∧
    decode 0x0500000000000000 = .error .unknownOpcode ∧
    decode 0x3300000000000000 = .error .unknownOpcode ∧
    decode 0x3500000000000000 = .error .unknownOpcode ∧
    decode 0x2600000000000000 = .error .unknownOpcode ∧
    decode 0xFFFFFFFFFFFFFFFF = .error .unknownOpcode ∧
    decode 0x2000000000000001 = .error .unusedD ∧ decode 0x0100000000000001 = .error .unusedD ∧
    decode 0x0200000100000000 = .error .unusedA ∧ decode 0x1100000100001000 = .error .unusedA := by
  decide

/-- The words of 2.6 written by the encoder. -/
theorem test_encode :
    encode (.rdrec 64) = 0x1100000000000040 ∧ encode (.ldCode 0x411) = 0x2500041100000000 ∧
    encode (.stPlain 2 0x42) = 0x3100000200000042 ∧ encode .dec = 0x0400000000000000 := by decide

/-- The response words after 2.6. -/
theorem test_response_word :
    (Response.mk .ok 17).word = 0x0000000011 ∧ (Response.mk .truncated 0).word = 0x1000000000 ∧
    (Response.mk .noTerm 4).word = 0x0100000004 ∧ (Response.mk .badArg 0).word = 0x3200000000 := by
  decide

/-- R66: the listing form. -/
theorem test_listing : listing (.stPlain 2 0x42) = "st.plain 2, 66" := by decide

/-! ## One command -/

/-- The example of 41_builder.md. -/
theorem test_hist :
    (after .hist (withPlain aab)).freqOf 0x41 = 2 ∧ (after .hist (withPlain aab)).freqOf 0x42 = 1 ∧
    (after .hist (withPlain aab)).resp = some ⟨.ok, 3⟩ := by decide +kernel

/-- B5 "xyzz": the tie between a leaf and an internal node at weight 2. -/
theorem test_build_tie :
    (afterAll [.hist, .build] (withPlain [0x78, 0x79, 0x7A, 0x7A])).tree =
      some (.internal 0xFFFFFEFF 4 (.leaf 0x7A 2)
        (.internal 0xFFFFFF00 2 (.leaf 0x78 1) (.leaf 0x79 1))) := by decide +kernel

/-- B16: the sum is compared as a mathematical integer. -/
theorem test_build_bad_freq :
    (afterAll [.stFreq 0 0xFFFFFFFF, .stFreq 1 1, .stCsr 4 0xFFFFFFFF, .build] State.reset).resp =
      some ⟨.badFreq, 0⟩ := by decide +kernel

/-- E1: scenario A. -/
theorem test_enc :
    (after .enc aabBuilt).coded = cellsFrom 0 aabCoded ∧ (after .enc aabBuilt).payoff = 16 := by decide +kernel

/-- E13: no tree. -/
theorem test_enc_no_code :
    (after .enc (withPlain [0x41])).resp = some ⟨.noCode, 0⟩ ∧
    statusWord (after .enc (withPlain [0x41])) = 0x1300 := by decide +kernel

/-- D1: scenario A backwards. -/
theorem test_dec :
    (after .dec (withCoded aabCoded)).plain = cellsFrom 0 aab ∧
    (after .dec (withCoded aabCoded)).resp = some ⟨.ok, 3⟩ := by decide +kernel

/-- D10: a 1 bit at a leaf root; `PAYOFF` tells that the header was complete. -/
theorem test_dec_corrupt :
    (after .dec (withCoded (aaaaCoded 0x04))).resp = some ⟨.corrupt, 0⟩ ∧
    (after .dec (withCoded (aaaaCoded 0x04))).payoff = 8 := by decide +kernel

/-- F15. -/
theorem test_fclr : (after .fclr (withFb [0x6F, 0x6B, 0x0A])).fb = [] := by decide

/-- F13: the record, and the rest kept. -/
theorem test_rdrec :
    (after (.rdrec 8) (withFb [0x6F, 0x6B, 0x0A, 0x72])).record = cellsFrom 0 [0x6F, 0x6B, 0x0A] ∧
    (after (.rdrec 8) (withFb [0x6F, 0x6B, 0x0A, 0x72])).fb = [0x72] := by decide

/-- F8a: an error delivers nothing and keeps the buffer. -/
theorem test_rdrec_error :
    (stepped (waitingRecord 4 [0x70, 0x61, 0x72] [.error])).resp = some ⟨.chanErr, 0⟩ ∧
    (stepped (waitingRecord 4 [0x70, 0x61, 0x72] [.error])).fb = [0x70, 0x61, 0x72] := by decide

/-- X1. -/
theorem test_rdex :
    (after (.rdex 2) (withFb [0x01, 0x02, 0x03])).coded = cellsFrom 0 [0x01, 0x02] ∧
    (after (.rdex 2) (withFb [0x01, 0x02, 0x03])).fb = [0x03] := by decide

/-- X5: an error after one byte of two more. -/
theorem test_rdex_error :
    (stepped (waitingExact 5 [0x04, 0x05] [.error])).resp = some ⟨.chanErr, 2⟩ := by decide

theorem test_nop : (after .nop State.reset).resp = some ⟨.ok, 0⟩ := by decide

/-- H9: `CAP_FB`. -/
theorem test_ldCsr : (after (.ldCsr 11) State.reset).resp = some ⟨.ok, 4096⟩ := by decide

/-- B2 and B13: `STATUS` with a single-leaf tree and with `BAD_FREQ` latched. -/
theorem test_ldCsr_status :
    (after (.ldCsr 0) { State.reset with tv := true, sl := true }).resp = some ⟨.ok, 0x3⟩ ∧
    (after (.ldCsr 0) { State.reset with last := .badFreq }).resp = some ⟨.ok, 0x1400⟩ := by decide

theorem test_ldPlain : (after (.ldPlain 2) (withPlain aab)).resp = some ⟨.ok, 66⟩ := by decide
theorem test_ldCoded : (after (.ldCoded 16) (withCoded aabCoded)).resp = some ⟨.ok, 3⟩ := by decide

/-- Program 3: the terminator of the record. -/
theorem test_ldRec :
    (afterAll [.rdrec 64, .ldRec 1] (withFb [0x6B, 0x0A])).resp = some ⟨.ok, 10⟩ := by decide

/-- H32. -/
theorem test_ldRec_outside : (after (.ldRec 4096) State.reset).resp = some ⟨.badAddr, 0⟩ := by decide

/-- H28, H30. -/
theorem test_freq_space :
    (afterAll [.stFreq 255 0xFFFFFFFF, .ldFreq 255] State.reset).resp = some ⟨.ok, 0xFFFFFFFF⟩ ∧
    (after (.ldFreq 256) State.reset).resp = some ⟨.badAddr, 0⟩ := by decide +kernel

/-- The readback of B1: the code of `B` is `[0]`, of `A` is `[1]`. -/
theorem test_ldCode :
    (after (.ldCode 0x411) aabBuilt).resp = some ⟨.ok, 1⟩ ∧
    (after (.ldCode 0x421) aabBuilt).resp = some ⟨.ok, 0⟩ ∧
    (after (.ldCode 0x420) aabBuilt).resp = some ⟨.ok, 1⟩ := by
  decide +kernel

/-- H33, H34. -/
theorem test_ldCode_edges :
    (after (.ldCode 0xFFF) State.reset).resp = some ⟨.badAddr, 0⟩ ∧
    (after (.ldCode 0xFF8) State.reset).resp = some ⟨.ok, 0⟩ := by decide +kernel

/-- H16, H17. -/
theorem test_stCsr :
    (afterAll [.stCsr 1 65536, .stCsr 1 65537] State.reset).plen = 65536 ∧
    (afterAll [.stCsr 1 65536, .stCsr 1 65537] State.reset).resp = some ⟨.badArg, 0⟩ := by decide

/-- H15: `RLEN` is read-only. -/
theorem test_stCsr_readonly : (after (.stCsr 3 5) State.reset).resp = some ⟨.badAddr, 0⟩ := by decide

/-- H25: the address is checked before the datum. -/
theorem test_stPlain :
    (after (.stPlain 65536 0x100) State.reset).resp = some ⟨.badAddr, 0⟩ ∧
    (after (.stPlain 0 0x100) State.reset).resp = some ⟨.badArg, 0⟩ := by decide

/-- H26, H27. -/
theorem test_stCoded :
    (after (.stCoded 67583 1) State.reset).coded = [(67583, 1)] ∧
    (after (.stCoded 67584 1) State.reset).resp = some ⟨.badAddr, 0⟩ := by decide

/-! ## One step -/

/-- The request sizes of F8a (`FB_CAP - |FB|`) and of X5. -/
theorem test_pull_sizes :
    pullSize (waitingRecord 4 [0x70, 0x61, 0x72] []) (.rdrec 4) = 1 ∧
    pullSize (waitingExact 9 [0x04, 0x05] []) (.rdex 9 [0x04, 0x05]) = 4 := by decide

/-- R142: reset while a pull is open. -/
theorem test_reset_in_flight :
    (stepped { waitingRecord 4 [0x70] [.closed] with resetIn := true }).flight = none ∧
    (stepped { waitingRecord 4 [0x70] [.closed] with resetIn := true }).fb = [] := by decide

/-- H2: an illegal word is answered and `STATUS.LAST` stays. -/
theorem test_illegal_word :
    (stepped (State.reset.withFetchWord 64 1)).resp = some ⟨.illegal, 0⟩ ∧
    (stepped (State.reset.withFetchWord 64 1)).last = .ok := by decide

/-! ## Witnesses: hypotheses that hold together -/

/-- The invariant of a state with bytes in every memory and a waiting `RDREC`. -/
theorem witness_inv :
    State.Inv { waitingRecord 4 [0x70, 0x61, 0x72] [.data [0x0A]] with
      plain := cellsFrom 0 aab, plen := 3, coded := [(8, 1)], clen := 9 } where
  plain_wf := by decide
  coded_wf := by decide
  record_wf := by decide
  plain_inside := by decide
  coded_inside := by decide
  record_inside := by decide
  plen_le := by decide
  clen_le := by decide
  rlen_le := by decide
  fb_le := by decide
  tv_tree := by decide
  sl_tree := by decide
  rootw_tree := by decide
  nnodes_tree := by decide
  nodes_le := by decide
  tags_negative := by decide
  code_tree := rfl
  flight_waits := by
    intro f hf
    have h : Flight.rdrec 4 = f := Option.some.inj hf
    subst h
    exact ⟨by decide, by decide, by decide⟩
  flight_silent := by decide

/-- The invariant with a tree in place: a single leaf built from one symbol. -/
theorem witness_inv_tree :
    State.Inv { withPlain [0x41] with
      tree := some (.leaf 0x41 1), code := assignCodes (.leaf 0x41 1), tv := true, sl := true
      rootw := 1, nnodes := 1 } where
  plain_wf := by decide
  coded_wf := by decide
  record_wf := by decide
  plain_inside := by decide
  coded_inside := by decide
  record_inside := by decide
  plen_le := by decide
  clen_le := by decide
  rlen_le := by decide
  fb_le := by decide
  tv_tree := by decide
  sl_tree := by decide
  rootw_tree := by decide
  nnodes_tree := by decide
  nodes_le := by decide
  tags_negative := by decide
  code_tree := rfl
  flight_waits := by
    intro f hf
    exact absurd hf (by simp [withPlain, State.reset, State.resetWith])
  flight_silent := by decide

theorem witness_DecodeOfEncodeIsTheCommand :
    (Instr.stFreq (2 ^ 24 - 1) 5).WellFormed ∧ (Instr.rdrec (2 ^ 32 - 1)).WellFormed := by decide

theorem witness_EncodeOfDecodeIsTheWord :
    decode 0x3000000100000003 = .ok (.stCsr 1 3) := by decide

theorem witness_IllegalWordsChangeNothing_illegal :
    (State.reset.withFetchWord 64 1).resetIn = false ∧
    (State.reset.withFetchWord 64 1).flight = none ∧
    (State.reset.withFetchWord 64 1).cmds = 1 :: [] ∧ illegalWord 1 := by
  refine ⟨by decide, by decide, by decide, ?_⟩
  exact .inr (.inr (by decide))

theorem witness_IllegalWordsChangeNothing_wide_datum :
    256 ≤ (0x100 : Word).toNat ∧ 3 < (tiny []).params.plainCap ∧ 8 < (tiny []).params.codedCap := by
  decide

theorem witness_StepRunsTheDecodedCommand :
    (State.reset.withFetchWord 64 0x0100000000000000).resetIn = false ∧
    (State.reset.withFetchWord 64 0x0100000000000000).flight = none ∧
    (State.reset.withFetchWord 64 0x0100000000000000).cmds = 0x0100000000000000 :: [] ∧
    decode 0x0100000000000000 = .ok .hist := by decide

theorem witness_WaitingCoreTakesNoCommand_answer :
    (waitingRecord 4 [] [.closed]).resetIn = false ∧
    (waitingRecord 4 [] [.closed]).flight.isSome = true ∧
    step (waitingRecord 4 [] [.closed]) = .next (stepped (waitingRecord 4 [] [.closed])) :=
  ⟨by decide, by decide, step_stepped (by decide)⟩

theorem witness_WaitingCoreTakesNoCommand_hang :
    (waitingRecord 4 [] []).resetIn = false ∧ (waitingRecord 4 [] []).flight.isSome = true ∧
    (waitingRecord 4 [] []).chan = [] := by decide

theorem witness_WaitingCoreTakesNoCommand_idle :
    State.reset.resetIn = false ∧ State.reset.flight = none ∧ State.reset.cmds = [] := by decide

theorem witness_ResetEventRestoresResetState :
    ({ waitingRecord 4 [] [.data [1]] with resetIn := true } : State).resetIn = true ∧
    step { waitingRecord 4 [] [.data [1]] with resetIn := true } =
      .next (stepped { waitingRecord 4 [] [.data [1]] with resetIn := true }) :=
  ⟨by decide, step_stepped (by decide)⟩

theorem witness_EveryStepKeepsTheInvariant :
    ∃ s t : State, s.Inv ∧ step s = .next t := ⟨_, _, witness_inv, step_stepped (by decide)⟩

theorem witness_OneResponseOrAnOpenPull :
    (tiny [1]).flight = none ∧ exec (.rdrec 2) (tiny [1]) = .next (after (.rdrec 2) (tiny [1])) :=
  ⟨by decide, exec_after (by decide)⟩

theorem witness_LastRecordsUnitCommandsOnly_unit :
    exec .fclr (tiny [1]) = .next (after .fclr (tiny [1])) ∧ isUnit .fclr = true ∧
    (after .fclr (tiny [1])).resp = some ⟨.ok, 0⟩ := ⟨exec_after (by decide), by decide, by decide⟩

theorem witness_LastRecordsUnitCommandsOnly_pull :
    exec (.rdrec 2) (tiny [1]) = .next (after (.rdrec 2) (tiny [1])) ∧ isUnit (.rdrec 2) = true ∧
    (after (.rdrec 2) (tiny [1])).resp = none := ⟨exec_after (by decide), by decide, by decide⟩

theorem witness_LastRecordsUnitCommandsOnly_access :
    exec .nop (tiny []) = .next (after .nop (tiny [])) ∧ isUnit .nop = false :=
  ⟨exec_after (by decide), by decide⟩

theorem witness_LastRecordsUnitCommandsOnly_answer :
    (waitingExact 5 [1] [.closed]).resetIn = false ∧
    (waitingExact 5 [1] [.closed]).flight.isSome = true ∧ (waitingExact 5 [1] [.closed]).chan ≠ [] ∧
    step (waitingExact 5 [1] [.closed]) = .next (stepped (waitingExact 5 [1] [.closed])) ∧
    (stepped (waitingExact 5 [1] [.closed])).resp = some ⟨.short, 1⟩ :=
  ⟨by decide, by decide, by decide, step_stepped (by decide), by decide⟩

theorem witness_LastRecordsUnitCommandsOnly_illegal :
    (State.reset.withFetchWord 64 1).cmds = 1 :: [] ∧ decode 1 = .error .unusedD ∧
    step (State.reset.withFetchWord 64 1) = .next (stepped (State.reset.withFetchWord 64 1)) :=
  ⟨by decide, by decide, step_stepped (by decide)⟩

theorem witness_StatusesEachCommandMayRaise :
    exec (.rdex 10) (tiny []) = .next (after (.rdex 10) (tiny [])) ∧
    (after (.rdex 10) (tiny [])).resp = some ⟨.badArg, 0⟩ := ⟨exec_after (by decide), by decide⟩

theorem witness_StatusesEachCommandMayRaise_rdrec :
    (waitingRecord 4 [1] [.closed]).flight = some (.rdrec 4) ∧
    (waitingRecord 4 [1] [.closed]).resetIn = false ∧ (waitingRecord 4 [1] [.closed]).chan ≠ [] ∧
    step (waitingRecord 4 [1] [.closed]) = .next (stepped (waitingRecord 4 [1] [.closed])) ∧
    (stepped (waitingRecord 4 [1] [.closed])).resp = some ⟨.short, 1⟩ :=
  ⟨by decide, by decide, by decide, step_stepped (by decide), by decide⟩

theorem witness_StatusesEachCommandMayRaise_rdex :
    (waitingExact 5 [] [.closed]).flight = some (.rdex 5 []) ∧
    (waitingExact 5 [] [.closed]).resetIn = false ∧ (waitingExact 5 [] [.closed]).chan ≠ [] ∧
    step (waitingExact 5 [] [.closed]) = .next (stepped (waitingExact 5 [] [.closed])) ∧
    (stepped (waitingExact 5 [] [.closed])).resp = some ⟨.closed, 0⟩ :=
  ⟨by decide, by decide, by decide, step_stepped (by decide), by decide⟩

theorem witness_ResponseValues :
    exec (.rdrec 2) (tiny [1, 2, 3]) = .next (after (.rdrec 2) (tiny [1, 2, 3])) ∧
    (after (.rdrec 2) (tiny [1, 2, 3])).resp = some ⟨.noTerm, 2⟩ :=
  ⟨exec_after (by decide), by decide⟩

/-- The responses that a closing and a failing channel bring. -/
theorem witness_ResponseValues_answers :
    (waitingRecord 4 [1] [.closed]).flight = some (.rdrec 4) ∧
    (stepped (waitingRecord 4 [1] [.closed])).resp = some ⟨.short, 1⟩ ∧
    (waitingExact 5 [4] [.error]).flight = some (.rdex 5 [4]) ∧
    (waitingExact 5 [4] [.error]).resetIn = false ∧ (waitingExact 5 [4] [.error]).chan ≠ [] ∧
    step (waitingExact 5 [4] [.error]) = .next (stepped (waitingExact 5 [4] [.error])) ∧
    (stepped (waitingExact 5 [4] [.error])).resp = some ⟨.chanErr, 1⟩ :=
  ⟨by decide, by decide, by decide, by decide, by decide, step_stepped (by decide), by decide⟩

theorem witness_TreeIsDiscarded :
    exec .enc (tiny []) = .next (after .enc (tiny [])) := exec_after (by decide)

theorem witness_BuildAfterHistSucceeds :
    exec .hist (withPlain aab) = .next (after .hist (withPlain aab)) ∧
    exec .build (after .hist (withPlain aab)) = .next (after .build (after .hist (withPlain aab))) :=
  ⟨exec_after rfl, exec_after (isNext_build _)⟩

theorem witness_BuildAfterHistSucceeds_empty : (withPlain []).plen = 0 := by decide

theorem witness_BuildRejectsWrongCount :
    freqSum { State.reset with count := 1 } ≠ ({ State.reset with count := 1 } : State).count.toNat :=
  by decide +kernel

theorem witness_BuildOfEmptyInputLeavesNoTree :
    State.reset.count = 0 ∧ (∀ sym, State.reset.freqOf sym = 0) ∧ State.reset.plen = 0 ∧
    exec .build State.reset = .next (after .build State.reset) := by
  refine ⟨by decide, ?_, by decide, exec_after (isNext_build _)⟩
  intro sym
  simp [State.freqOf, State.reset, State.resetWith]

/-- B1: the frequencies add up, `BUILD` answers `OK`, and the tree and both codes are as listed. -/
theorem witness_built :
    freqSum aabCounted = aabCounted.count.toNat ∧ aabCounted.count ≠ 0 ∧
    (after .build aabCounted).resp = some ⟨.ok, 3⟩ ∧
    (after .build aabCounted).tree =
      some (.internal 0xFFFFFF00 3 (.leaf 0x42 1) (.leaf 0x41 2)) ∧
    (after .build aabCounted).codeOf 0x41 = [true] ∧
    (after .build aabCounted).codeOf 0x42 = [false] := by decide +kernel

theorem witness_BuildMakesTreeAndTable :
    freqSum aabCounted = aabCounted.count.toNat ∧ aabCounted.count ≠ 0 :=
  ⟨witness_built.1, witness_built.2.1⟩

/-- Also for `BuiltTreeHasEveryLeafAndTag`, `BuiltCodesHaveAtMost255Bits` and
`BuildTwiceIsBuildOnce`. -/
theorem witness_BuiltCodesAreTreePaths :
    exec .build aabCounted = .next (after .build aabCounted) ∧
    (after .build aabCounted).tree =
      some (.internal 0xFFFFFF00 3 (.leaf 0x42 1) (.leaf 0x41 2)) ∧ ([true] : Code) ≠ [] :=
  ⟨exec_after (isNext_build _), witness_built.2.2.2.1, by decide⟩

theorem witness_BuiltCodesArePrefixFree :
    exec .build aabCounted = .next (after .build aabCounted) ∧
    (after .build aabCounted).resp = some ⟨.ok, 3⟩ ∧ (0x41 : Byte) ≠ 0x42 ∧
    (after .build aabCounted).codeOf 0x41 ≠ [] ∧ (after .build aabCounted).codeOf 0x42 ≠ [] :=
  ⟨exec_after (isNext_build _), witness_built.2.2.1, by decide,
    by rw [witness_built.2.2.2.2.1]; decide, by rw [witness_built.2.2.2.2.2]; decide⟩

theorem witness_PopMinRemovesTheLeastNode :
    popMin (.leaf 2 5) [.leaf 1 5, .leaf 0 7] = (.leaf 1 5, [.leaf 2 5, .leaf 0 7]) := by decide

/-- The second step of B5: the leaf 122 and the internal node of weight 2 tie, and the leaf comes
first. -/
theorem witness_PopMinRemovesTheLeastNode_combine :
    combineTwo 1 (.internal 0xFFFFFF00 2 (.leaf 120 1) (.leaf 121 1)) (.leaf 122 2) [] =
      (.internal 0xFFFFFEFF 4 (.leaf 122 2)
        (.internal 0xFFFFFF00 2 (.leaf 120 1) (.leaf 121 1)), []) ∧
    (CodeNode.leaf 122 2).weight.toNat +
      (CodeNode.internal 0xFFFFFF00 2 (.leaf 120 1) (.leaf 121 1)).weight.toNat < 2 ^ 32 := by decide

theorem witness_EncOfEmptyInput : (withPlain []).plen = 0 := by decide

/-- No tree, and a `PLEN` beyond the bytes written. -/
theorem witness_EncWithoutCodeFails_no_tree :
    ({ State.reset with plen := 3 } : State).plen ≠ 0 ∧
    ({ State.reset with plen := 3 } : State).tv = false := by decide

/-- The last byte below `PLEN` is written and has no code; the others are not written. -/
theorem witness_EncWithoutCodeFails_no_entry :
    ({ State.reset with plain := [(2, 0x42)], plen := 3, tv := true } : State).plen ≠ 0 ∧
    ∃ i b, i < ({ State.reset with plain := [(2, 0x42)], plen := 3, tv := true } : State).plen.toNat ∧
      ({ State.reset with plain := [(2, 0x42)], plen := 3, tv := true } : State).plain.read? i =
        some b ∧
      ({ State.reset with plain := [(2, 0x42)], plen := 3, tv := true } : State).codeOf b = [] :=
  ⟨by decide, 2, 0x42, by decide, by decide, by decide +kernel⟩

theorem witness_EncWritesTheEncodedBuffer_fits :
    aab ≠ [] ∧ aab.length = aabBuilt.plen.toNat ∧ aabBuilt.plain.Holds aab ∧
    aabBuilt.tv = true ∧ (∀ b ∈ aab, aabBuilt.codeOf b ≠ []) ∧
    17 = 4 + 4 * (treeTags aabBuilt).length + ((aab.map aabBuilt.codeOf).flatten.length + 7) / 8 ∧
    17 ≤ aabBuilt.params.codedCap := by decide +kernel

/-- E15: `CODED_CAP = 16`. -/
theorem witness_EncWritesTheEncodedBuffer_too_large :
    ({ aabBuilt with params := ⟨65536, 16, 4096, by decide⟩ } : State).params.codedCap < 17 := by
  decide

theorem witness_PayloadBitsAreLeastSignificantFirst :
    9 < 8 * (packPayload [true, true, false, true, true, true, true, true, true]).length := by decide

theorem witness_StackTraversalIsPreOrder :
    aabTree.nodes ≤ 3 ∧ ({ aabBuilt with tree := some aabTree } : State).tree = some aabTree := by
  decide

theorem witness_DecChecksTheHeaderFirst_short : (withCoded [0, 0, 0]).clen.toNat < 4 := by decide

/-- D19. -/
theorem witness_DecChecksTheHeaderFirst_oversize :
    4 ≤ (withCoded [0, 1, 0, 1]).clen.toNat ∧ (withCoded [0, 1, 0, 1]).coded.Holds (be32 65537) ∧
    (withCoded [0, 1, 0, 1]).params.plainCap < (65537 : Word).toNat := by decide

/-- D20. -/
theorem witness_DecChecksTheHeaderFirst_no_tree :
    (withCoded [0, 1, 0, 0]).clen.toNat = 4 ∧ (withCoded [0, 1, 0, 0]).coded.Holds (be32 65536) ∧
    (65536 : Word) ≠ 0 ∧ (65536 : Word).toNat ≤ (withCoded [0, 1, 0, 0]).params.plainCap := by decide

/-- D4. -/
theorem witness_DecOfEmptyLength :
    4 ≤ (withCoded [0, 0, 0, 0, 0xDE]).clen.toNat ∧
    (withCoded [0, 0, 0, 0, 0xDE]).coded.Holds [0, 0, 0, 0] := by decide

/-- D2, with exactly the bits needed when `len` is 8 (D14). -/
theorem witness_DecOfSingleLeaf_ok :
    (8 : Word) ≠ 0 ∧ (8 : Word).toNat ≤ (withCoded [0, 0, 0, 8, 0, 0, 0, 0x41, 0]).params.plainCap ∧
    (withCoded [0, 0, 0, 8, 0, 0, 0, 0x41, 0]).clen.toNat = 8 + ([0] : List Byte).length ∧
    (withCoded [0, 0, 0, 8, 0, 0, 0, 0x41, 0]).coded.Holds
      (be32 8 ++ (be32 (zextByte 0x41) ++ [0])) ∧
    (8 : Word).toNat ≤ 8 * ([0] : List Byte).length ∧
    ∀ i, i < (8 : Word).toNat →
      (([0] : List Byte).getD (i / 8) 0).getLsbD (i % 8) = false := by decide

/-- D10: the third bit. -/
theorem witness_DecOfSingleLeaf_corrupt :
    (withCoded (aaaaCoded 4)).clen.toNat = 8 + ([4] : List Byte).length ∧
    (withCoded (aaaaCoded 4)).coded.Holds (be32 4 ++ (be32 (zextByte 0x41) ++ [4])) ∧
    2 < (4 : Word).toNat ∧ 2 < 8 * ([4] : List Byte).length ∧
    (∀ i, i < 2 → (([4] : List Byte).getD (i / 8) 0).getLsbD (i % 8) = false) ∧
    (([4] : List Byte).getD (2 / 8) 0).getLsbD (2 % 8) = true := by decide

/-- D13. -/
theorem witness_DecOfSingleLeaf_truncated :
    (withCoded [0, 0, 0, 9, 0, 0, 0, 0x41, 0]).coded.Holds
      (be32 9 ++ (be32 (zextByte 0x41) ++ [0])) ∧
    8 * ([0] : List Byte).length < (9 : Word).toNat ∧
    ∀ i, i < 8 * ([0] : List Byte).length →
      (([0] : List Byte).getD (i / 8) 0).getLsbD (i % 8) = false := by decide

/-- The header and tree of E1. -/
def aabHeader : List Byte := aabCoded.take 16

/-- E1 with padding bits set and a byte after the payload, as in D18. -/
theorem witness_DecDecodesEveryWellFormedBuffer :
    aabTree.negativeTags = true ∧ aabTree.nodes ≤ 511 ∧ aab ≠ [] ∧
    aab.length ≤ (withCoded (aabHeader ++ [0xFB, 0xFF])).params.plainCap ∧
    List.Forall₂ (fun sym c => aabTree.CodeFor sym c) aab [[true], [true], [false]] ∧
    aabHeader = be32 (BitVec.ofNat 32 aab.length) ++ ((serialize aabTree).map be32).flatten ∧
    (withCoded (aabHeader ++ [0xFB, 0xFF])).coded.Holds (aabHeader ++ [0xFB, 0xFF]) ∧
    (withCoded (aabHeader ++ [0xFB, 0xFF])).clen.toNat = (aabHeader ++ [0xFB, 0xFF]).length ∧
    (∀ i, i < 3 → (([0xFB, 0xFF] : List Byte).getD (i / 8) 0).getLsbD (i % 8) =
      [true, true, false].getD i false) ∧
    3 ≤ 8 * ([0xFB, 0xFF] : List Byte).length := by
  refine ⟨by decide, by decide, by decide, by decide, ?_, by decide +kernel, by decide +kernel,
    by decide +kernel, by decide, by decide⟩
  exact .cons ⟨0, rfl⟩ (.cons ⟨0, rfl⟩ (.cons ⟨0, rfl⟩ .nil))

/-- D5: the same header and no payload byte. The next test is D24, one bit short. -/
theorem witness_DecDecodesEveryWellFormedBuffer_short :
    (withCoded aabHeader).coded.Holds (aabHeader ++ []) ∧
    (withCoded aabHeader).clen.toNat = (aabHeader ++ []).length ∧
    8 * ([] : List Byte).length < [true, true, false].length := by decide +kernel

theorem test_dec_one_bit_short :
    (after .dec (withCoded ([0, 0, 0, 9] ++ (aabHeader.drop 4 ++ [3])))).resp =
      some ⟨.truncated, 0⟩ := by decide +kernel

/-- D16, a tree cut off as in D17, and E1: a tag of 256, tags missing, and a whole tree. -/
theorem witness_StackRebuildIsRecursiveParse :
    (4 ≤ (withCoded [0, 0, 0, 1, 0, 0, 1, 0, 0]).clen.toNat ∧
      codedWord (withCoded [0, 0, 0, 1, 0, 0, 1, 0, 0]) 0 = 1 ∧
      parseTree (withCoded [0, 0, 0, 1, 0, 0, 1, 0, 0]) 9 512 511 4 = .error .malformed) ∧
    (codedWord (withCoded [0, 0, 0, 2, 0xFF, 0xFF, 0xFF, 0xFF]) 0 = 2 ∧
      parseTree (withCoded [0, 0, 0, 2, 0xFF, 0xFF, 0xFF, 0xFF]) 8 512 511 4 =
        .error .truncated) ∧
    (codedWord (withCoded aabCoded) 0 = 3 ∧
      parseTree (withCoded aabCoded) 17 512 511 4 = .ok (aabTree, 508, 16)) := by decide +kernel

/-- Both ends of each range of tags. -/
theorem witness_StackRebuildIsRecursiveParse_tags :
    (0x80000000 : Word).toInt < 0 ∧ (0xFFFFFFFF : Word).toInt < 0 ∧
    (0 : Word).toInt = ((0 : Byte).toNat : Int) ∧ (255 : Word).toInt = ((255 : Byte).toNat : Int) ∧
    255 < (256 : Word).toInt ∧ 255 < (0x7FFFFFFF : Word).toInt ∧
    (∀ i, i < 4 → (withCoded aabCoded).coded.read? (4 + i) = (be32 0xFFFFFF00)[i]?) := by decide

theorem witness_DecFailureLeavesNoOutput :
    exec .dec (withCoded [0, 0, 0]) = .next (after .dec (withCoded [0, 0, 0])) ∧
    (after .dec (withCoded [0, 0, 0])).resp = some ⟨.truncated, 0⟩ :=
  ⟨exec_after (by decide +kernel), by decide +kernel⟩

theorem witness_CorruptOnlyAtSingleLeafRoot :
    exec .dec (withCoded (aaaaCoded 1)) = .next (after .dec (withCoded (aaaaCoded 1))) ∧
    (after .dec (withCoded (aaaaCoded 1))).resp = some ⟨.corrupt, 0⟩ :=
  ⟨exec_after (by decide +kernel), by decide +kernel⟩

/-- The tree of `witness_inv_tree` encodes its byte. -/
theorem witness_DecUndoesEnc :
    ∃ s t : State, s.Inv ∧ ([0x41] : List Byte).length = s.plen.toNat ∧ s.plain.Holds [0x41] ∧
      exec .enc s = .next t ∧ t.resp = some ⟨.ok, 9⟩ :=
  ⟨_, _, witness_inv_tree, by decide, by decide, exec_after (by decide +kernel), by decide +kernel⟩

theorem witness_HistBuildEncDecRoundTrip :
    aab.length ≤ (withPlain aab).params.plainCap ∧ aab.length = (withPlain aab).plen.toNat ∧
    (withPlain aab).plain.Holds aab := by decide

/-- F4 at the boundary: the terminator is byte `max_len`. -/
theorem witness_RdrecDeliversTheRecord :
    4 ≤ (tiny [0x61, 0x62, 0x63, 0x0A]).params.fbCap ∧
    (tiny [0x61, 0x62, 0x63, 0x0A]).fb = [0x61, 0x62, 0x63] ++ 0x0A :: [] ∧
    (0x0A : Byte) ∉ ([0x61, 0x62, 0x63] : List Byte) ∧
    ([0x61, 0x62, 0x63] : List Byte).length < 4 := by decide

/-- F5a and F6: a terminator just after the window, and `max_len = 0`. -/
theorem witness_RdrecWithoutTerminator :
    (3 ≤ (tiny [0x61, 0x62, 0x63, 0x0A]).params.fbCap ∧
      (tiny [0x61, 0x62, 0x63, 0x0A]).fb = [0x61, 0x62, 0x63] ++ [0x0A] ∧
      ([0x61, 0x62, 0x63] : List Byte).length = 3 ∧
      (0x0A : Byte) ∉ ([0x61, 0x62, 0x63] : List Byte)) ∧
    ((tiny [0x0A]).fb = [] ++ [0x0A] ∧ ([] : List Byte).length = 0 ∧
      (0x0A : Byte) ∉ ([] : List Byte)) := by decide

theorem witness_PullsStartOnlyWhenNeeded_rdrec :
    4 ≤ (tiny [1, 2, 3]).params.fbCap ∧
    ((tiny [1, 2, 3]).fb.length < 4 ∧ (0x0A : Byte) ∉ (tiny [1, 2, 3]).fb) ∧
    ¬ ((tiny [1, 2, 3]).fb.length < 3 ∧ (0x0A : Byte) ∉ (tiny [1, 2, 3]).fb) := by decide

theorem witness_PullsStartOnlyWhenNeeded_rdex :
    9 ≤ (tiny [1, 2, 3]).params.codedCap ∧ (tiny [1, 2, 3]).fb.length < 9 ∧
    3 ≤ (tiny [1, 2, 3]).fb.length := by decide

theorem witness_FramerOperandBounds :
    (tiny []).params.fbCap < 5 ∧ (tiny []).params.codedCap < 10 := by decide

theorem witness_ChannelAnswersToRdrec :
    (waitingRecord 4 [] [.closed]).resetIn = false ∧
    (waitingRecord 4 [] [.closed]).flight = some (.rdrec 4) ∧
    (waitingRecord 4 [] [.closed]).chan = .closed :: [] ∧
    4 ≤ (waitingRecord 4 [] [.closed]).params.fbCap ∧ (waitingRecord 4 [] [.closed]).fb = [] ∧
    (waitingRecord 4 [1, 2, 3] [.closed]).fb ≠ [] ∧
    (waitingRecord 4 [1] [.error]).chan = .error :: [] ∧
    (waitingRecord 4 [1, 2, 3] [.data [4]]).chan = .data [4] :: [] ∧
    1 ≤ ([4] : List Byte).length ∧
    ([4] : List Byte).length ≤
      (waitingRecord 4 [1, 2, 3] [.data [4]]).params.fbCap -
        (waitingRecord 4 [1, 2, 3] [.data [4]]).fb.length ∧
    ¬ (1 ≤ ([4, 5] : List Byte).length ∧
      ([4, 5] : List Byte).length ≤
        (waitingRecord 4 [1, 2, 3] [.data [4, 5]]).params.fbCap -
          (waitingRecord 4 [1, 2, 3] [.data [4, 5]]).fb.length) := by decide

theorem witness_RdexServedFromTheFrameBuffer :
    3 ≤ (tiny [1, 2, 3]).params.codedCap ∧ (tiny [1, 2, 3]).fb = [1, 2, 3] ++ [] ∧
    ([1, 2, 3] : List Byte).length = 3 := by decide

theorem witness_ChannelAnswersToRdex :
    (waitingExact 5 [1] [.closed]).resetIn = false ∧
    (waitingExact 5 [1] [.closed]).flight = some (.rdex 5 [1]) ∧
    (waitingExact 5 [1] [.closed]).chan = .closed :: [] ∧ ([1] : List Byte).length < 5 ∧
    Status.short = (if ([1] : List Byte) = [] then Status.closed else Status.short) ∧
    (waitingExact 5 [1] [.data [2, 3, 4]]).chan = .data [2, 3, 4] :: [] ∧
    (1 ≤ ([2, 3, 4] : List Byte).length ∧
      ([2, 3, 4] : List Byte).length ≤ min (5 - ([1] : List Byte).length)
        (waitingExact 5 [1] [.data [2, 3, 4]]).params.fbCap ∧
      ([2, 3, 4] : List Byte).length < 5 - ([1] : List Byte).length) ∧
    (([2, 3, 4, 5] : List Byte).length ≤ min (5 - ([1] : List Byte).length)
        (waitingExact 5 [1] [.data [2, 3, 4, 5]]).params.fbCap ∧
      ([2, 3, 4, 5] : List Byte).length = 5 - ([1] : List Byte).length) ∧
    ¬ (1 ≤ ([] : List Byte).length ∧
      ([] : List Byte).length ≤ min (5 - ([1] : List Byte).length)
        (waitingExact 5 [1] [.data []]).params.fbCap) := by decide

theorem witness_PullRequestsAreInBounds :
    ∃ (s : State) (f : Flight), s.Inv ∧ s.flight = some f := ⟨_, _, witness_inv, rfl⟩

theorem witness_ChannelBytesKeepTheirOrder :
    ∃ s t : State, s.Inv ∧ s.resetIn = false ∧
      (∀ w rest, s.flight = none → s.cmds = w :: rest → decode w ≠ .ok .fclr) ∧
      step s = .next t := by
  refine ⟨_, _, witness_inv, by decide, ?_, step_stepped (by decide)⟩
  intro w rest h
  exact absurd h (by simp [waitingRecord])

/-- "ok" and the terminator whole, and byte by byte (F1a, F2). -/
theorem witness_DeliveryDoesNotDependOnChunks :
    ∃ t₁ t₂ : State,
      (∀ w ∈ ({ tiny [] with cmds := [0x1100000000000004] } : State).cmds,
        ∃ m, decode w = .ok (.rdrec m) ∨ decode w = .ok (.rdex m)) ∧
      channelEvents [.data [0x6F, 0x6B, 0x0A]] =
        channelEvents [.data [0x6F], .data [0x6B], .data [0x0A]] ∧
      Host.Core.run Sys2Proof.core 2
        { tiny [] with
          cmds := [0x1100000000000004], chan := [.data [0x6F, 0x6B, 0x0A]] } = .next t₁ ∧
      Host.Core.run Sys2Proof.core 4
        { tiny [] with
          cmds := [0x1100000000000004]
          chan := [.data [0x6F], .data [0x6B], .data [0x0A]] } = .next t₂ ∧
      t₁.flight = none ∧ t₁.cmds = [] ∧ t₂.flight = none ∧ t₂.cmds = [] := by
  refine ⟨_, _, ?_, rfl, rfl, rfl, rfl, rfl, rfl, rfl⟩
  intro w hw
  exact ⟨4, .inl (by rw [List.mem_singleton.1 hw]; decide)⟩

/-- A stream that fails, goes on and closes, for two `RDREC`s, cut after "a" in one run only. -/
theorem witness_DeliveryDoesNotDependOnChunks_ends :
    ∃ t₁ t₂ : State,
      channelEvents [.data [0x61, 0x62], .error, .closed] =
        channelEvents [.data [0x61], .data [0x62], .error, .closed] ∧
      Host.Core.run Sys2Proof.core 5
        { tiny [] with
          cmds := [0x1100000000000004, 0x1100000000000004]
          chan := [.data [0x61, 0x62], .error, .closed] } = .next t₁ ∧
      Host.Core.run Sys2Proof.core 6
        { tiny [] with
          cmds := [0x1100000000000004, 0x1100000000000004]
          chan := [.data [0x61], .data [0x62], .error, .closed] } = .next t₂ ∧
      t₁.flight = none ∧ t₁.cmds = [] ∧ t₂.flight = none ∧ t₂.cmds = [] ∧
      t₁.resp = some ⟨.short, 2⟩ :=
  ⟨_, _, rfl, rfl, rfl, rfl, rfl, rfl, rfl, rfl⟩

theorem witness_NopChangesNothing : (1 : BitVec 24) ≠ 0 ∨ (0 : BitVec 32) ≠ 0 := by decide

theorem witness_LdOfByteSpaces :
    3 < (tiny []).params.plainCap ∧ (tiny []).params.plainCap ≤ 4 ∧ 8 < (tiny []).params.codedCap ∧
    (tiny []).params.codedCap ≤ 9 ∧ 3 < (tiny []).params.fbCap ∧ (tiny []).params.fbCap ≤ 4 ∧
    (withPlain aab).plain.read? 2 = some 0x42 ∧ (withCoded aabCoded).coded.read? 16 = some 3 ∧
    (after (.rdrec 1) (withFb [0x0A])).record.read? 0 = some 0x0A := by decide

/-- Symbol 255 with `k` at both ends of each range, and the first address past the space. -/
theorem witness_LdCodeLayout :
    (∀ k ∈ [0, 1, 8, 9, 15], k < 16 ∧ codeSymbol (16 * (255 : Byte).toNat + k) = 255 ∧
      codeIndex (16 * (255 : Byte).toNat + k) = k) ∧
    4096 ≤ 16 * 256 := by decide

/-- The first indices that do not exist: `LdCsrReadsEveryRegister` and `FreqSpaceAccess`. -/
theorem witness_FreqSpaceAccess :
    12 ≤ 12 ∧ csrRead? State.reset 12 = none ∧ 256 ≤ 256 ∧
    (freqElement 256 State.reset).isNone ∧ (255 : Byte).toNat < 256 := by decide

theorem witness_StOfByteSpaces :
    3 < (tiny []).params.plainCap ∧ (255 : Word).toNat < 256 ∧ (tiny []).params.plainCap ≤ 4 ∧
    256 ≤ (256 : Word).toNat ∧ 8 < (tiny []).params.codedCap ∧ (tiny []).params.codedCap ≤ 9 := by
  decide

theorem witness_StCsrWritesThreeRegisters :
    (4 : Word).toNat ≤ (tiny []).params.plainCap ∧ (tiny []).params.plainCap < (5 : Word).toNat ∧
    (9 : Word).toNat ≤ (tiny []).params.codedCap ∧ (tiny []).params.codedCap < (10 : Word).toNat := by
  decide

end Sys2Proof.Tests
end

/-! # The state (10_state.md): reset values, where the tree is discarded, what `STATUS.LAST` records -/

namespace Sys2Proof.Machine

open Config (ByteSpace Params)

/-! ## The state after reset -/

@[simp] theorem statusWord_resetWith (p : Params) : statusWord (State.resetWith p) = 0 := by
  simp only [statusWord, State.resetWith]
  decide

@[simp] theorem freqOf_resetWith (p : Params) (sym : Byte) : (State.resetWith p).freqOf sym = 0 :=
  Vector.getElem_replicate sym.isLt

@[simp] theorem codeOf_resetWith (p : Params) (sym : Byte) : (State.resetWith p).codeOf sym = [] :=
  Vector.getElem_replicate sym.isLt

@[simp] theorem bytes_resetWith (p : Params) (sp : ByteSpace) : (State.resetWith p).bytes sp = [] := by
  cases sp <;> rfl

/-- The registers below the three capacities read 0 after reset (R39). -/
theorem csrRead?_resetWith (p : Params) {i : Nat} (h : i < 9) :
    csrRead? (State.resetWith p) i = some 0 := by
  interval_cases i
  · exact congrArg some (statusWord_resetWith p)
  all_goals rfl

/-- Settles O8: the table of R39, row by row. -/
theorem resetValues : Obligations.ResetValues := by
  refine ⟨fun p => ?_, rfl, rfl, rfl⟩
  refine ⟨fun _ => csrRead?_resetWith p, rfl, rfl, rfl, freqOf_resetWith p, codeOf_resetWith p,
    rfl, rfl, rfl, rfl, rfl, fun sp a => ?_, rfl⟩
  rw [bytes_resetWith, Memory.read?_nil]

/-! ## Discarding the tree

`DiscardTree()` writes only what `BUILD` and `DEC` do not read, and it commutes with a response, so
running it again after a command that ended with it changes nothing. -/

@[simp] theorem discardTree_discardTree (s : State) : discardTree (discardTree s) = discardTree s :=
  rfl

@[simp] theorem discardTree_resetWith (p : Params) :
    discardTree (State.resetWith p) = State.resetWith p := rfl

@[simp] theorem discardTree_finish (st : Status) (v : Word) (s : State) :
    discardTree (finish st v s) = finish st v (discardTree s) := rfl

@[simp] theorem freqSum_discardTree (s : State) : freqSum (discardTree s) = freqSum s := rfl

@[simp] theorem seedQueue_discardTree (s : State) : seedQueue (discardTree s) = seedQueue s := rfl

/-- A tree before makes no difference to `BUILD` (R34, R73). -/
theorem execBuild_discardTree (s : State) : execBuild (discardTree s) = execBuild s := by
  unfold execBuild
  rw [freqSum_discardTree, discardTree_count, seedQueue_discardTree, discardTree_discardTree]

/-- A tree before makes no difference to `DEC` (R34, R93). -/
theorem execDec_discardTree (s : State) : execDec (discardTree s) = execDec s := by
  simp only [execDec, discardTree_discardTree]

/-! ## How `HIST`, `BUILD`, `ENC` and `DEC` end -/

/-- Everything `BUILD` can do (R73, R78, R79). -/
theorem execBuild_cases (s : State) :
    (freqSum s ≠ s.count.toNat ∧ execBuild s = .next (finish .badFreq 0 (discardTree s))) ∨
    (freqSum s = s.count.toNat ∧ seedQueue s = [] ∧
      execBuild s = .next (finish .ok 0 (discardTree s))) ∨
    (freqSum s = s.count.toNat ∧ ∃ x q, seedQueue s = x :: q ∧
      execBuild s = .next (buildFrom x q (discardTree s))) := by
  unfold execBuild
  by_cases hsum : freqSum s = s.count.toNat
  · cases hq : seedQueue s with
    | nil => simp [hsum]
    | cons x q => simp [hsum]
  · simp [hsum]

/-- Every `ENC` ends with `DiscardTree()` and its response (R34, R84). -/
theorem encFrom_ends (s : State) : ∃ st v u, encFrom s = finish st v (discardTree u) := by
  unfold encFrom
  split
  · exact ⟨_, _, _, rfl⟩
  · split
    · exact ⟨_, _, _, rfl⟩
    · split
      · exact ⟨_, _, _, rfl⟩
      · rcases encWrite_cases (treeTags s) (codeBits s (readPrefix s .plain 1 s.plen.toNat)) s with
          ⟨-, h⟩ | ⟨-, h⟩
        · exact ⟨_, _, _, h⟩
        · exact ⟨_, _, _, h⟩

/-- The payload half of `DEC` ends with `DiscardTree()` and its response (R93). -/
theorem decPayload_ends (root : CodeNode) (pos : Nat) (len : Word) (s : State) :
    ∃ st v u, decPayload root pos len s = finish st v (discardTree u) := by
  unfold decPayload
  split
  · exact ⟨_, _, _, rfl⟩
  · exact ⟨_, _, _, rfl⟩

/-- `DEC` past its header checks ends with `DiscardTree()` and its response (R93). -/
theorem decTree_ends (len : Word) (s : State) :
    ∃ st v u, decTree len s = finish st v (discardTree u) := by
  unfold decTree
  split
  · exact ⟨_, _, _, rfl⟩
  · exact decPayload_ends _ _ _ _

/-- `DEC` of a state without a tree leaves none: the empty length answers without a second
`DiscardTree()`, and the one at the start has done its work (R34, R93, R95). -/
theorem decFrom_ends {s : State} (hs : discardTree s = s) :
    ∃ st v u, decFrom s = finish st v (discardTree u) := by
  unfold decFrom
  split
  · exact ⟨_, _, _, rfl⟩
  · split
    · exact ⟨.ok, 0, { s with plen := 0, payoff := 4 }, by rw [← hs]; rfl⟩
    · split
      · exact ⟨_, _, _, rfl⟩
      · exact decTree_ends _ s

theorem execEnc_ends (s : State) : ∃ st v u, execEnc s = .next (finish st v (discardTree u)) := by
  obtain ⟨st, v, u, h⟩ := encFrom_ends { s with payoff := 0 }
  exact ⟨st, v, u, congrArg _ h⟩

theorem execDec_ends (s : State) : ∃ st v u, execDec s = .next (finish st v (discardTree u)) := by
  obtain ⟨st, v, u, h⟩ := decFrom_ends (s := { discardTree s with payoff := 0 }) rfl
  exact ⟨st, v, u, congrArg _ h⟩

/-- What ended with `DiscardTree()` and its response is not changed by discarding again. -/
theorem discardTree_of_ends {x : Result} {t : State}
    (hx : ∃ st v u, x = .next (finish st v (discardTree u))) (ht : x = .next t) :
    discardTree t = t := by
  obtain ⟨st, v, u, h⟩ := hx
  cases h.symm.trans ht
  rw [discardTree_finish, discardTree_discardTree]

/-- Settles O16: `BUILD` and `DEC` do not see a tree, `ENC` and `DEC` end without one. -/
theorem treeIsDiscarded : Obligations.TreeIsDiscarded := by
  refine ⟨fun _ => rfl, fun s => ⟨execBuild_discardTree s, execDec_discardTree s⟩, ?_,
    discardTree_resetWith⟩
  rintro s t (h | h)
  · exact discardTree_of_ends (execEnc_ends s) h
  · exact discardTree_of_ends (execDec_ends s) h

/-! ## How a command leaves `STATUS.LAST` -/

/-- A host access answers by `respond` alone, on a state with the same `LAST` (R26). -/
def AccessEnds (s : State) (x : Result) : Prop :=
  ∃ st v u, x = .next (respond st v u) ∧ u.last = s.last

/-- A unit command ends by `finish`, or opens a pull on a state with the same `LAST` (R17, R26). -/
def UnitEnds (s : State) (x : Result) : Prop :=
  (∃ st v u, x = .next (finish st v u)) ∨ ∃ f u, x = .next (openPull f u) ∧ u.last = s.last

theorem AccessEnds.last_eq {s t : State} {x : Result} (hx : AccessEnds s x) (ht : x = .next t) :
    t.last = s.last := by
  obtain ⟨st, v, u, h, hlast⟩ := hx
  cases h.symm.trans ht
  rw [respond_last, hlast]

/-- `LAST` is the response's status, and as before while there is no response (R26). -/
theorem UnitEnds.last_eq {s t : State} {x : Result} (hx : UnitEnds s x) (ht : x = .next t) :
    (∀ r, t.resp = some r → t.last = r.status) ∧ (t.resp = none → t.last = s.last) := by
  rcases hx with ⟨st, v, u, h⟩ | ⟨f, u, h, hlast⟩
  · cases h.symm.trans ht
    refine ⟨fun r hr => ?_, fun hr => ?_⟩
    · cases hr
      rfl
    · cases hr
  · cases h.symm.trans ht
    refine ⟨fun r hr => ?_, fun _ => ?_⟩
    · cases hr
    · rw [openPull_last, hlast]

/-! ### Host access -/

theorem loadElement_accessEnds (v : Option Word) (s : State) :
    AccessEnds s (.next (loadElement v s)) := by
  rcases loadElement_cases v s with ⟨w, -, h⟩ | ⟨-, h⟩
  · exact ⟨.ok, w, s, congrArg _ h, rfl⟩
  · exact ⟨.badAddr, 0, s, congrArg _ h, rfl⟩

theorem execStCsr_accessEnds (a : Nat) (d : Word) (s : State) : AccessEnds s (execStCsr a d s) := by
  unfold execStCsr
  split
  · split
    · exact ⟨_, _, _, rfl, rfl⟩
    · exact ⟨_, _, _, rfl, rfl⟩
  · split
    · exact ⟨_, _, _, rfl, rfl⟩
    · exact ⟨_, _, _, rfl, rfl⟩
  · exact ⟨_, _, _, rfl, rfl⟩
  · exact ⟨_, _, _, rfl, rfl⟩

theorem execStPlain_accessEnds (a : Nat) (d : Word) (s : State) :
    AccessEnds s (execStPlain a d s) := by
  unfold execStPlain
  split
  · exact ⟨_, _, _, rfl, rfl⟩
  · split
    · exact ⟨_, _, _, rfl, rfl⟩
    · exact ⟨_, _, _, rfl, rfl⟩

theorem execStCoded_accessEnds (a : Nat) (d : Word) (s : State) :
    AccessEnds s (execStCoded a d s) := by
  unfold execStCoded
  split
  · exact ⟨_, _, _, rfl, rfl⟩
  · split
    · exact ⟨_, _, _, rfl, rfl⟩
    · exact ⟨_, _, _, rfl, rfl⟩

theorem execStFreq_accessEnds (a : Nat) (d : Word) (s : State) :
    AccessEnds s (execStFreq a d s) := by
  unfold execStFreq
  split
  · exact ⟨_, _, _, rfl, rfl⟩
  · exact ⟨_, _, _, rfl, rfl⟩

/-- Every command that is no unit command answers as a host access (R26, R123, R125, R129). -/
theorem exec_accessEnds {i : Instr} (hi : isUnit i = false) (s : State) :
    AccessEnds s (exec i s) := by
  cases i with
  | nop => exact ⟨.ok, 0, s, rfl, rfl⟩
  | ldCsr a => exact loadElement_accessEnds (csrRead? s a) s
  | ldPlain a => exact loadElement_accessEnds (byteElement .plain a s) s
  | ldCoded a => exact loadElement_accessEnds (byteElement .coded a s) s
  | ldRec a => exact loadElement_accessEnds (byteElement .record a s) s
  | ldFreq a => exact loadElement_accessEnds (freqElement a s) s
  | ldCode a => exact loadElement_accessEnds (codeElement a s) s
  | stCsr a d => exact execStCsr_accessEnds a d s
  | stPlain a d => exact execStPlain_accessEnds a d s
  | stCoded a d => exact execStCoded_accessEnds a d s
  | stFreq a d => exact execStFreq_accessEnds a d s
  | hist | build | enc | dec | fclr | rdrec | rdex => cases hi

/-! ### Unit commands -/

theorem scanRecord_unitEnds (m : Nat) {s s₀ : State} (hlast : s.last = s₀.last) :
    UnitEnds s₀ (.next (scanRecord m s)) := by
  rcases scanRecord_cases m s with ⟨i, -, -, -, -, h⟩ | ⟨-, -, h⟩ | ⟨-, -, h⟩
  · exact .inl ⟨_, _, _, congrArg _ h⟩
  · exact .inl ⟨_, _, _, congrArg _ h⟩
  · exact .inr ⟨_, s, congrArg _ h, hlast⟩

theorem scanExact_unitEnds (n : Nat) (out : List Byte) {s s₀ : State} (hlast : s.last = s₀.last) :
    UnitEnds s₀ (.next (scanExact n out s)) := by
  rcases scanExact_cases n out s with ⟨-, h⟩ | ⟨-, h⟩
  · exact .inl ⟨_, _, _, congrArg _ h⟩
  · exact .inr ⟨_, s, congrArg _ h, hlast⟩

theorem execBuild_unitEnds (s : State) : UnitEnds s (execBuild s) := by
  rcases execBuild_cases s with ⟨-, h⟩ | ⟨-, -, h⟩ | ⟨-, x, q, -, h⟩
  · exact .inl ⟨_, _, _, h⟩
  · exact .inl ⟨_, _, _, h⟩
  · exact .inl ⟨_, _, _, h⟩

theorem execEnc_unitEnds (s : State) : UnitEnds s (execEnc s) := by
  obtain ⟨st, v, u, h⟩ := execEnc_ends s
  exact .inl ⟨st, v, discardTree u, h⟩

theorem execDec_unitEnds (s : State) : UnitEnds s (execDec s) := by
  obtain ⟨st, v, u, h⟩ := execDec_ends s
  exact .inl ⟨st, v, discardTree u, h⟩

theorem execRdrec_unitEnds (m : Nat) (s : State) : UnitEnds s (execRdrec m s) := by
  unfold execRdrec
  split
  · exact .inl ⟨_, _, _, rfl⟩
  · exact scanRecord_unitEnds m rfl

theorem execRdex_unitEnds (n : Nat) (s : State) : UnitEnds s (execRdex n s) := by
  unfold execRdex
  split
  · exact .inl ⟨_, _, _, rfl⟩
  · exact scanExact_unitEnds n _ rfl

theorem exec_unitEnds {i : Instr} (hi : isUnit i = true) (s : State) : UnitEnds s (exec i s) := by
  cases i with
  | hist => exact .inl ⟨_, _, _, rfl⟩
  | build => exact execBuild_unitEnds s
  | enc => exact execEnc_unitEnds s
  | dec => exact execDec_unitEnds s
  | fclr => exact .inl ⟨_, _, _, rfl⟩
  | rdrec m => exact execRdrec_unitEnds m s
  | rdex n => exact execRdex_unitEnds n s
  | nop | ldCsr | ldPlain | ldCoded | ldRec | ldFreq | ldCode | stCsr | stPlain | stCoded | stFreq =>
    cases hi

/-! ### Channel answers and illegal words -/

theorem answerRecord_unitEnds (m : Nat) (ans : ChanAnswer) (s : State) :
    UnitEnds s (.next (answerRecord m ans s)) := by
  cases ans with
  | data c => exact scanRecord_unitEnds m rfl
  | closed =>
    unfold answerRecord
    dsimp only
    split
    · exact .inl ⟨_, _, _, rfl⟩
    · exact .inl ⟨_, _, _, rfl⟩
  | error => exact .inl ⟨_, _, _, rfl⟩

theorem answerExact_unitEnds (n : Nat) (out : List Byte) (ans : ChanAnswer) (s : State) :
    UnitEnds s (.next (answerExact n out ans s)) := by
  cases ans with
  | data c => exact scanExact_unitEnds n _ rfl
  | closed => exact .inl ⟨_, _, _, rfl⟩
  | error => exact .inl ⟨_, _, _, rfl⟩

theorem answerFlight_unitEnds (f : Flight) (ans : ChanAnswer) (s : State) :
    UnitEnds s (.next (answerFlight f ans s)) := by
  cases f with
  | rdrec m => exact answerRecord_unitEnds m ans s
  | rdex n out => exact answerExact_unitEnds n out ans s

/-- A waiting command whose channel has something to say takes one answer (R17, R105). -/
theorem step_of_answer {s : State} {f : Flight} {ans : ChanAnswer} {rest : List ChanAnswer}
    (hr : s.resetIn = false) (hf : s.flight = some f) (hc : s.chan = ans :: rest) :
    step s = channelAnswer f ans (takeAnswer rest s) := by
  simp [step, hr, hf, hc]

/-- An idle core takes the host's next word (R17, R18). -/
theorem step_of_word {s : State} {w : CmdWord} {rest : List CmdWord}
    (hr : s.resetIn = false) (hf : s.flight = none) (hw : s.cmds = w :: rest) :
    step s = runWord w (acceptCommand rest s) := by
  simp [step, hr, hf, hw]

/-- What a step does that takes a channel answer and is not refused (R20). -/
theorem step_of_answer_next {s t : State} {f : Flight} {ans : ChanAnswer} {rest : List ChanAnswer}
    (hr : s.resetIn = false) (hf : s.flight = some f) (hc : s.chan = ans :: rest)
    (ht : step s = .next t) : t = answerFlight f ans (takeAnswer rest s) := by
  rw [step_of_answer hr hf hc] at ht
  rcases channelAnswer_cases f ans (takeAnswer rest s) with ⟨-, h⟩ | ⟨-, h⟩
  · cases h.symm.trans ht
    rfl
  · cases h.symm.trans ht

/-- Settles O13: a unit command ends by `finish` or opens a pull, everything else only responds. -/
theorem lastRecordsUnitCommandsOnly : Obligations.LastRecordsUnitCommandsOnly := by
  refine ⟨fun i s t ht => ⟨fun hi => ?_, fun hi => ?_⟩, ?_, ?_⟩
  · exact (exec_accessEnds hi s).last_eq ht
  · exact (exec_unitEnds hi s).last_eq ht
  · intro s t hr hf hc ht
    obtain ⟨f, hf⟩ := Option.isSome_iff_exists.1 hf
    obtain ⟨ans, rest, hc⟩ := List.exists_cons_of_ne_nil hc
    cases step_of_answer_next hr hf hc ht
    exact (answerFlight_unitEnds f ans (takeAnswer rest s)).last_eq rfl
  · intro s t w rest e hr hf hw he ht
    rw [step_of_word hr hf hw, runWord_error he] at ht
    cases ht
    rw [respond_last, acceptCommand_last]

end Sys2Proof.Machine

/-! # The `CODE` space (20_memory.md, R42): what a load finds at address `16*s + k` -/

namespace Sys2Proof.Machine

/-! ## The two fields of an address -/

/-- `a[11:4]` of `16*s + k` is `s` (R42). -/
theorem codeSymbol_entry (sym : Byte) {k : Nat} (hk : k < 16) :
    codeSymbol (16 * sym.toNat + k) = sym := by
  have hdiv : (16 * sym.toNat + k) / 16 = sym.toNat := by omega
  rw [codeSymbol, hdiv, BitVec.ofNat_toNat, BitVec.setWidth_eq]

/-- `a[3:0]` of `16*s + k` is `k` (R42). -/
theorem codeIndex_entry (n : Nat) {k : Nat} (hk : k < 16) : codeIndex (16 * n + k) = k := by
  rw [codeIndex, Nat.mul_add_mod, Nat.mod_eq_of_lt hk]

/-! ## The words of an entry -/

/-- Word 0 is the code's length (R42). -/
@[simp] theorem codeWord_zero (c : Code) : codeWord c 0 = BitVec.ofNat 32 c.length := rfl

/-- Bit `j` of word `k` is code bit `32*(k-1) + j`, 0 past the end (R42). -/
theorem getLsbD_codeWord (c : Code) {k j : Nat} (hk : 1 ≤ k) (hj : j < 32) :
    (codeWord c k).getLsbD j = c.getD (32 * (k - 1) + j) false := by
  rw [codeWord, if_neg (Nat.one_le_iff_ne_zero.1 hk), getLsbD_packBits 32 c _ j hj]

/-! ## Which addresses name an element -/

/-- The nine used addresses of every entry name an element (R40, R42). -/
theorem codeElement_entry (sym : Byte) {k : Nat} (hk : k < 9) (s : State) :
    codeElement (16 * sym.toNat + k) s = some (codeWord (s.codeOf sym) k) := by
  have hk16 : k < 16 := by omega
  have hspace : 16 * sym.toNat + k < 4096 := by omega
  rw [codeElement, codeSymbol_entry sym hk16, codeIndex_entry _ hk16, if_pos ⟨hspace, hk⟩]

/-- The seven unused addresses of an entry name none (R42). -/
theorem codeElement_unused (n : Nat) {k : Nat} (hk : 9 ≤ k) (hk16 : k < 16) (s : State) :
    codeElement (16 * n + k) s = none := by
  rw [codeElement, codeIndex_entry n hk16, if_neg fun h => Nat.not_lt.2 hk h.2]

/-- No address past the space names an element (R40, R49). -/
theorem codeElement_outside {a : Nat} (ha : 4096 ≤ a) (s : State) : codeElement a s = none :=
  if_neg fun h => Nat.not_lt.2 ha h.1

/-! ## What `LD.CODE` answers -/

theorem exec_ldCode (a : Nat) (s : State) :
    exec (.ldCode a) s = .next (loadElement (codeElement a s) s) := rfl

/-- A load answers `OK` with the element its address names (R125). -/
theorem exec_ldCode_of_some {a : Nat} {s : State} {w : Word} (h : codeElement a s = some w) :
    exec (.ldCode a) s = .next { s with resp := some ⟨.ok, w⟩ } := by
  rw [exec_ldCode, h]
  rfl

/-- A load answers `BAD_ADDR` where its address names none (R49, R125). -/
theorem exec_ldCode_of_none {a : Nat} {s : State} (h : codeElement a s = none) :
    exec (.ldCode a) s = .next { s with resp := some ⟨.badAddr, 0⟩ } := by
  rw [exec_ldCode, h]
  rfl

/-- Settles O57: the ranges of `k` in R42, then the addresses past the space. -/
theorem ldCodeLayout : Obligations.LdCodeLayout := by
  refine ⟨fun s sym k hk16 => ⟨?length, ?bits, ?unused⟩, ?outside⟩
  case length =>
    rintro rfl
    rw [← codeWord_zero]
    exact exec_ldCode_of_some (codeElement_entry sym (by decide) s)
  case bits =>
    intro hpos hle
    exact ⟨codeWord (s.codeOf sym) k,
      exec_ldCode_of_some (codeElement_entry sym (Nat.lt_succ_of_le hle) s),
      fun _ hj => getLsbD_codeWord (s.codeOf sym) hpos hj⟩
  case unused => exact fun hk => exec_ldCode_of_none (codeElement_unused sym.toNat hk hk16 s)
  case outside => exact fun s _ ha => exec_ldCode_of_none (codeElement_outside ha s)

end Sys2Proof.Machine

/-! # The Code Table Builder (41_builder.md): `HIST`, what `BUILD` writes, the codes of a built tree -/

namespace Sys2Proof.Machine

/-! ## Symbols and tables indexed by them -/

theorem mem_allSymbols (sym : Byte) : sym ∈ allSymbols :=
  List.mem_map.2 ⟨sym.toNat, List.mem_range.2 sym.isLt, BitVec.ofNat_toNat 8 sym⟩

theorem nodup_allSymbols : allSymbols.Nodup := by
  refine List.nodup_range.map_on fun i hi j hj hij => ?_
  have hmod := congrArg BitVec.toNat hij
  rw [BitVec.toNat_ofNat, BitVec.toNat_ofNat] at hmod
  rwa [Nat.mod_eq_of_lt (List.mem_range.1 hi), Nat.mod_eq_of_lt (List.mem_range.1 hj)] at hmod

/-- A symbol's entry after one entry of a table is written. -/
theorem getElem_set_symbol {α : Type} (table : Vector α 256) (b : Byte) (x : α) (sym : Byte) :
    (table.set b.toNat x b.isLt)[sym.toNat]'sym.isLt =
      if b = sym then x else table[sym.toNat]'sym.isLt := by
  simp only [Vector.getElem_set, BitVec.toNat_inj]

@[simp] theorem getElem_noCodes (sym : Byte) : noCodes[sym.toNat]'sym.isLt = [] :=
  Vector.getElem_replicate sym.isLt

/-! ## Counting bytes -/

/-- `FREQ[s] <- FREQ[s] + 1` changes the entry of `s` alone (R69). -/
theorem getElem_countByte (freq : Vector Word 256) (b sym : Byte) :
    (countByte freq b)[sym.toNat]'sym.isLt =
      freq[sym.toNat]'sym.isLt + if b = sym then 1 else 0 := by
  rw [countByte, getElem_set_symbol]
  split
  case isTrue h => subst h; rfl
  case isFalse => exact (BitVec.add_zero _).symm

/-- Counting adds a symbol's number of occurrences to its entry, modulo `2^32` (R69). -/
theorem getElem_foldl_countByte (bs : List Byte) (freq : Vector Word 256) (sym : Byte) :
    (bs.foldl countByte freq)[sym.toNat]'sym.isLt =
      freq[sym.toNat]'sym.isLt + BitVec.ofNat 32 (bs.count sym) := by
  induction bs generalizing freq with
  | nil => exact (BitVec.add_zero _).symm
  | cons b bs ih =>
    rw [List.foldl_cons, ih, getElem_countByte, List.count_cons, BitVec.add_assoc]
    by_cases h : b = sym
    · simp [h, BitVec.ofNat_add, BitVec.add_comm]
    · simp [h]

/-- No count wraps: there are fewer than `2^32` bytes (R14). -/
theorem toNat_getElem_histogram {bs : List Byte} (hlen : bs.length < 2 ^ 32) (sym : Byte) :
    ((histogram bs)[sym.toNat]'sym.isLt).toNat = bs.count sym := by
  have hcount : bs.count sym < 2 ^ 32 := lt_of_le_of_lt List.count_le_length hlen
  rw [histogram, getElem_foldl_countByte, Vector.getElem_replicate, zero_add,
    BitVec.toNat_ofNat, Nat.mod_eq_of_lt hcount]

/-- Settles O17: a count never exceeds the number of bytes, which fits the register `PLEN`. -/
theorem histCountsEverySymbol : Obligations.HistCountsEverySymbol := by
  intro s
  refine ⟨histogram (readPrefix s .plain 0 s.plen.toNat), rfl, toNat_getElem_histogram ?_⟩
  rw [length_readPrefix]
  exact s.plen.isLt

/-! ## The queue at the start (R74) -/

theorem mem_presentSymbols (s : State) (sym : Byte) :
    sym ∈ presentSymbols s ↔ s.freqOf sym ≠ 0 := by
  simp [presentSymbols, mem_allSymbols]

theorem nodup_presentSymbols (s : State) : (presentSymbols s).Nodup := nodup_allSymbols.filter _

theorem seedLeaf_of_zero {s : State} {sym : Byte} (h : s.freqOf sym = 0) : seedLeaf s sym = none :=
  if_pos h

theorem seedLeaf_of_ne_zero {s : State} {sym : Byte} (h : s.freqOf sym ≠ 0) :
    seedLeaf s sym = some (.leaf sym (s.freqOf sym)) := if_neg h

/-- One leaf per present symbol, in rising order (R74). -/
theorem seedQueue_eq (s : State) :
    seedQueue s = (presentSymbols s).map fun sym => .leaf sym (s.freqOf sym) := by
  rw [seedQueue, presentSymbols]
  induction allSymbols with
  | nil => rfl
  | cons sym syms ih =>
    by_cases h : s.freqOf sym = 0
    · rw [List.filterMap_cons_none (seedLeaf_of_zero h), ih,
        List.filter_cons_of_neg (by simpa using h)]
    · rw [List.filterMap_cons_some (seedLeaf_of_ne_zero h), ih,
        List.filter_cons_of_pos (by simpa using h), List.map_cons]

theorem symbols_seedQueue (s : State) : (seedQueue s).flatMap CodeNode.symbols = presentSymbols s := by
  simp [seedQueue_eq, List.flatMap_map, CodeNode.symbols]

theorem nodes_seedQueue (s : State) :
    ((seedQueue s).map CodeNode.nodes).sum = (presentSymbols s).length := by
  simp [seedQueue_eq, Function.comp_def, CodeNode.nodes]

/-- The leaves' weights add up, modulo `2^32`, to the sum of all frequencies (R29, R73). -/
theorem weight_seedQueue (s : State) :
    ((seedQueue s).map CodeNode.weight).sum = BitVec.ofNat 32 (freqSum s) := by
  rw [seedQueue, freqSum]
  induction allSymbols with
  | nil => rfl
  | cons sym syms ih =>
    by_cases h : s.freqOf sym = 0
    · rw [List.filterMap_cons_none (seedLeaf_of_zero h), ih]
      simp [h]
    · rw [List.filterMap_cons_some (seedLeaf_of_ne_zero h), List.map_cons, List.sum_cons, ih]
      simp [CodeNode.weight, BitVec.ofNat_add]

/-- After the check of R79 the leaves' weights add up to `COUNT`. -/
theorem weight_seedQueue_of_freqSum {s : State} (hsum : freqSum s = s.count.toNat) :
    ((seedQueue s).map CodeNode.weight).sum = s.count := by
  rw [weight_seedQueue, hsum, BitVec.ofNat_toNat, BitVec.setWidth_eq]

/-! ## `BUILD` of the empty input -/

theorem exec_build (s : State) : exec .build s = execBuild s := rfl

theorem freqSum_of_freqOf_zero {s : State} (hfreq : ∀ sym, s.freqOf sym = 0) : freqSum s = 0 := by
  simp [freqSum, hfreq]

theorem seedQueue_of_freqOf_zero {s : State} (hfreq : ∀ sym, s.freqOf sym = 0) :
    seedQueue s = [] := by
  simp [seedQueue_eq, presentSymbols, hfreq]

/-- `BUILD` of the empty input discards the tree and builds none (R78). -/
theorem exec_build_of_empty {s : State} (hcount : s.count = 0) (hfreq : ∀ sym, s.freqOf sym = 0) :
    exec .build s = .next (finish .ok 0 (discardTree s)) := by
  rw [exec_build, execBuild, freqSum_of_freqOf_zero hfreq, seedQueue_of_freqOf_zero hfreq, hcount]
  exact if_neg fun h => h rfl

/-- `ENC` of an empty `PLAIN` writes the length 0 alone (R58, R87). -/
theorem exec_enc_of_plen_zero {s : State} (hplen : s.plen = 0) :
    exec .enc s = .next (finish .ok 4
      (discardTree { s with coded := s.coded.writePrefix (be32 0), clen := 4, payoff := 4 })) :=
  congrArg Host.Outcome.next (if_pos hplen)

/-- Settles O20: the queue has no leaf, and `ENC` looks for no tree when `PLEN` is 0. -/
theorem buildOfEmptyInputLeavesNoTree : Obligations.BuildOfEmptyInputLeavesNoTree := by
  intro s hcount hfreq
  have hbuild := exec_build_of_empty hcount hfreq
  refine ⟨hbuild, fun hplen t ht => ?_⟩
  cases hbuild.symm.trans ht
  have henc := exec_enc_of_plen_zero (s := finish .ok 0 (discardTree s)) hplen
  exact ⟨_, henc, rfl, Memory.holds_writePrefix s.coded (be32 0)⟩

/-! ## What the combining loop keeps (R76) -/

/-- A property of queues that does not depend on their order and that every combining step keeps. -/
structure KeptByCombining (P : List CodeNode → Prop) : Prop where
  perm : ∀ {q q' : List CodeNode}, q.Perm q' → P q → P q'
  step : ∀ (k : Nat) (a b : CodeNode) (rest : List CodeNode), P (a :: b :: rest) →
    P (.internal (itag k) (a.weight + b.weight) a b :: rest)

/-- What combining keeps holds at the end of the loop, when the root alone is left. -/
theorem KeptByCombining.combineAll {P : List CodeNode → Prop} (hkept : KeptByCombining P) {fuel : Nat}
    (k : Nat) {x : CodeNode} {q : List CodeNode} (hfuel : q.length ≤ fuel) (hstart : P (x :: q)) :
    P [combineAll fuel k x q] := by
  induction fuel generalizing k x q with
  | zero =>
    cases List.length_eq_zero_iff.1 (Nat.le_zero.1 hfuel)
    exact hstart
  | succ fuel ih =>
    cases q with
    | nil => exact hstart
    | cons y ys =>
      obtain ⟨a, b, rest, hcombine, hq, hlen⟩ := combineTwo_cases k x y ys
      rw [Machine.combineAll, hcombine]
      exact ih (k + 1) (hlen.trans_le (Nat.le_of_succ_le_succ hfuel))
        (hkept.step k a b rest (hkept.perm hq.symm hstart))

theorem KeptByCombining.treeOf {P : List CodeNode → Prop} (hkept : KeptByCombining P) {x : CodeNode}
    {q : List CodeNode} (hstart : P (x :: q)) : P [treeOf x q] :=
  hkept.combineAll 0 le_rfl hstart

theorem symbols_keptByCombining (syms : List Byte) :
    KeptByCombining fun q => (q.flatMap CodeNode.symbols).Perm syms where
  perm hq h := (hq.flatMap_right _).symm.trans h
  step k a b rest h := by simpa [CodeNode.symbols] using h

theorem weight_keptByCombining (w : Word) :
    KeptByCombining fun q => (q.map CodeNode.weight).sum = w where
  perm hq h := (hq.map _).sum_eq.symm.trans h
  step k a b rest h := by simpa [CodeNode.weight, BitVec.add_assoc] using h

/-- A combining step makes one node and leaves the queue one shorter. -/
theorem nodes_keptByCombining (n : Nat) :
    KeptByCombining fun q => (q.map CodeNode.nodes).sum + q.length = n where
  perm hq h := by rw [← h, (hq.map _).sum_eq, hq.length_eq]
  step k a b rest h := by
    simp only [List.map_cons, List.sum_cons, List.length_cons, CodeNode.nodes] at h ⊢
    omega

/-- The tree has the leaves of the queue (R76). -/
theorem symbols_treeOf (x : CodeNode) (q : List CodeNode) :
    (treeOf x q).symbols.Perm ((x :: q).flatMap CodeNode.symbols) := by
  simpa using (symbols_keptByCombining ((x :: q).flatMap CodeNode.symbols)).treeOf (List.Perm.refl _)

/-- The root weighs what the queue weighs (R29, R76). -/
theorem weight_treeOf (x : CodeNode) (q : List CodeNode) :
    (treeOf x q).weight = ((x :: q).map CodeNode.weight).sum := by
  simpa using (weight_keptByCombining ((x :: q).map CodeNode.weight).sum).treeOf rfl

theorem nodes_treeOf (x : CodeNode) (q : List CodeNode) :
    (treeOf x q).nodes + 1 = ((x :: q).map CodeNode.nodes).sum + (x :: q).length := by
  simpa using (nodes_keptByCombining (((x :: q).map CodeNode.nodes).sum + (x :: q).length)).treeOf rfl

/-! ## Paths -/

@[simp] theorem CodeNode.follow_nil (x : CodeNode) : x.follow [] = some x := by
  cases x <;> rfl

@[simp] theorem CodeNode.follow_leaf_cons (s : Byte) (w : Word) (b : Bool) (path : Code) :
    (CodeNode.leaf s w).follow (b :: path) = none := rfl

@[simp] theorem CodeNode.follow_internal_cons (t w : Word) (l r : CodeNode) (b : Bool) (path : Code) :
    (CodeNode.internal t w l r).follow (b :: path) = if b then r.follow path else l.follow path := rfl

theorem CodeNode.mem_symbols_of_follow {x : CodeNode} {path : Code} {sym : Byte} {v : Word}
    (h : x.follow path = some (.leaf sym v)) : sym ∈ x.symbols := by
  induction x generalizing path with
  | leaf s w =>
    cases path with
    | nil => simp_all [CodeNode.symbols]
    | cons b path => cases h
  | internal t w l r ihl ihr =>
    cases path with
    | nil => cases h
    | cons b path =>
      cases b with
      | false => exact List.mem_append_left _ (ihl h)
      | true => exact List.mem_append_right _ (ihr h)

theorem CodeNode.exists_follow_of_mem {x : CodeNode} {sym : Byte} (h : sym ∈ x.symbols) :
    ∃ path v, x.follow path = some (.leaf sym v) := by
  induction x with
  | leaf s w =>
    cases List.mem_singleton.1 h
    exact ⟨[], w, rfl⟩
  | internal t w l r ihl ihr =>
    rcases List.mem_append.1 h with hl | hr
    · obtain ⟨path, v, hpath⟩ := ihl hl
      exact ⟨false :: path, v, hpath⟩
    · obtain ⟨path, v, hpath⟩ := ihr hr
      exact ⟨true :: path, v, hpath⟩

/-! ## The walk (R77) -/

/-- The walk writes the entries of the node's leaves only. -/
theorem getElem_walkCodes_of_not_mem {x : CodeNode} {sym : Byte} (h : sym ∉ x.symbols) (pre : Code)
    (table : Vector Code 256) :
    (walkCodes x pre table)[sym.toNat]'sym.isLt = table[sym.toNat]'sym.isLt := by
  induction x generalizing pre table with
  | leaf s w => exact (getElem_set_symbol ..).trans (if_neg fun hs => h (List.mem_singleton.2 hs.symm))
  | internal t w l r ihl ihr =>
    obtain ⟨hl, hr⟩ := not_or.1 (mt List.mem_append.2 h)
    exact (ihr hr ..).trans (ihl hl ..)

/-- Where the leaves' symbols are distinct, the walk accumulates the path to each leaf (R77). -/
theorem getElem_walkCodes_of_follow {x : CodeNode} (hnodup : x.symbols.Nodup) {path : Code}
    {sym : Byte} {v : Word} (h : x.follow path = some (.leaf sym v)) (pre : Code)
    (table : Vector Code 256) :
    (walkCodes x pre table)[sym.toNat]'sym.isLt = pre ++ path := by
  induction x generalizing path pre table with
  | leaf s w =>
    cases path with
    | nil =>
      cases h
      rw [walkCodes, getElem_set_symbol, if_pos rfl, List.append_nil]
    | cons b path => cases h
  | internal t w l r ihl ihr =>
    obtain ⟨hl, hr, hdisjoint⟩ := List.nodup_append'.1 hnodup
    cases path with
    | nil => cases h
    | cons b path =>
      cases b with
      | false =>
        have hnot : sym ∉ r.symbols := hdisjoint (CodeNode.mem_symbols_of_follow h)
        rw [walkCodes, getElem_walkCodes_of_not_mem hnot, ihl hl h, ← List.append_cons]
      | true => rw [walkCodes, ihr hr h, ← List.append_cons]

/-! ## The code table of a tree (R73, R77) -/

theorem CodeNode.mem_symbols_of_codeFor {root : CodeNode} {sym : Byte} {path : Code}
    (h : root.CodeFor sym path) : sym ∈ root.symbols := by
  cases root with
  | leaf s w => exact List.mem_singleton.2 h.1
  | internal t w l r =>
    obtain ⟨v, hv⟩ := h
    exact CodeNode.mem_symbols_of_follow hv

theorem CodeNode.exists_codeFor_of_mem {root : CodeNode} {sym : Byte} (h : sym ∈ root.symbols) :
    ∃ path, path ≠ [] ∧ root.CodeFor sym path := by
  cases root with
  | leaf s w => exact ⟨[false], by decide, List.mem_singleton.1 h, rfl⟩
  | internal t w l r =>
    obtain ⟨path, v, hv⟩ := CodeNode.exists_follow_of_mem h
    refine ⟨path, ?_, v, hv⟩
    rintro rfl
    cases hv

theorem getElem_assignCodes_of_not_mem {root : CodeNode} {sym : Byte} (h : sym ∉ root.symbols) :
    (assignCodes root)[sym.toNat]'sym.isLt = [] := by
  cases root with
  | leaf s w =>
    rw [assignCodes, getElem_set_symbol, if_neg fun hs => h (List.mem_singleton.2 hs.symm),
      getElem_noCodes]
  | internal t w l r => rw [assignCodes, getElem_walkCodes_of_not_mem h, getElem_noCodes]

theorem getElem_assignCodes_of_codeFor {root : CodeNode} (hnodup : root.symbols.Nodup) {sym : Byte}
    {path : Code} (h : root.CodeFor sym path) :
    (assignCodes root)[sym.toNat]'sym.isLt = path := by
  cases root with
  | leaf s w =>
    obtain ⟨rfl, rfl⟩ := h
    rw [assignCodes, getElem_set_symbol, if_pos rfl]
  | internal t w l r =>
    obtain ⟨v, hv⟩ := h
    rw [assignCodes, getElem_walkCodes_of_follow hnodup hv, List.nil_append]

/-- A symbol has an entry exactly if a leaf holds it. -/
theorem getElem_assignCodes_ne_nil_iff {root : CodeNode} (hnodup : root.symbols.Nodup) (sym : Byte) :
    (assignCodes root)[sym.toNat]'sym.isLt ≠ [] ↔ sym ∈ root.symbols := by
  refine ⟨fun h => ?_, fun h => ?_⟩
  · by_contra hnot
    exact h (getElem_assignCodes_of_not_mem hnot)
  · obtain ⟨path, hne, hcode⟩ := CodeNode.exists_codeFor_of_mem h
    rwa [getElem_assignCodes_of_codeFor hnodup hcode]

/-- The table holds the codes of the tree and nothing else. -/
theorem getElem_assignCodes_eq_iff {root : CodeNode} (hnodup : root.symbols.Nodup) (sym : Byte)
    {path : Code} (hne : path ≠ []) :
    (assignCodes root)[sym.toNat]'sym.isLt = path ↔ root.CodeFor sym path := by
  refine ⟨fun h => ?_, getElem_assignCodes_of_codeFor hnodup⟩
  have hmem : sym ∈ root.symbols := (getElem_assignCodes_ne_nil_iff hnodup sym).1 (h ▸ hne)
  obtain ⟨path', -, hcode⟩ := CodeNode.exists_codeFor_of_mem hmem
  rwa [← h, getElem_assignCodes_of_codeFor hnodup hcode]

/-! ## The tree of the seed queue -/

section
variable {s : State} {x : CodeNode} {q : List CodeNode}

theorem length_of_seedQueue (hq : seedQueue s = x :: q) : q.length + 1 = (presentSymbols s).length := by
  have hlen := congrArg List.length hq
  rwa [seedQueue_eq, List.length_map, eq_comm] at hlen

theorem symbols_treeOf_seedQueue (hq : seedQueue s = x :: q) :
    (treeOf x q).symbols.Perm (presentSymbols s) := by
  rw [← symbols_seedQueue, hq]
  exact symbols_treeOf x q

/-- The leaves of a built tree hold distinct symbols. -/
theorem nodup_symbols_treeOf_seedQueue (hq : seedQueue s = x :: q) : (treeOf x q).symbols.Nodup :=
  (symbols_treeOf_seedQueue hq).nodup_iff.2 (nodup_presentSymbols s)

/-- `L` leaves become a tree of `2L - 1` nodes (R80). -/
theorem nodes_treeOf_seedQueue (hq : seedQueue s = x :: q) :
    (treeOf x q).nodes = 2 * (presentSymbols s).length - 1 := by
  have hnodes := nodes_treeOf x q
  rw [← hq, nodes_seedQueue, hq, List.length_cons, length_of_seedQueue hq] at hnodes
  omega

/-- Weight conservation (R29). -/
theorem weight_treeOf_seedQueue (hsum : freqSum s = s.count.toNat) (hq : seedQueue s = x :: q) :
    (treeOf x q).weight = s.count := by
  rw [weight_treeOf, ← hq, weight_seedQueue_of_freqSum hsum]

end

/-! ## What `BUILD` leaves -/

theorem seedQueue_ne_nil {s : State} (hsum : freqSum s = s.count.toNat) (hcount : s.count ≠ 0) :
    seedQueue s ≠ [] := by
  intro hq
  have hweight := weight_seedQueue_of_freqSum hsum
  rw [hq] at hweight
  exact hcount hweight.symm

/-- A `BUILD` whose frequencies add up to `COUNT > 0` builds a tree (R73, R80). -/
theorem execBuild_of_count_ne_zero {s : State} (hsum : freqSum s = s.count.toNat)
    (hcount : s.count ≠ 0) :
    ∃ x q, seedQueue s = x :: q ∧ execBuild s = .next (buildFrom x q (discardTree s)) := by
  rcases execBuild_cases s with ⟨hne, -⟩ | ⟨-, hnil, -⟩ | ⟨-, hbuild⟩
  · exact absurd hsum hne
  · exact absurd hnil (seedQueue_ne_nil hsum hcount)
  · exact hbuild

/-- A tree after `BUILD` is the one it made of the seed queue, and `CODE` is its code table (R73). -/
theorem execBuild_tree {s t : State} {root : CodeNode} (ht : execBuild s = .next t)
    (hroot : t.tree = some root) :
    ∃ x q, seedQueue s = x :: q ∧ root = treeOf x q ∧ t.code = assignCodes root := by
  rcases execBuild_cases s with ⟨-, h⟩ | ⟨-, -, h⟩ | ⟨-, x, q, hq, h⟩
  · cases h.symm.trans ht
    cases hroot
  · cases h.symm.trans ht
    cases hroot
  · cases h.symm.trans ht
    cases hroot
    exact ⟨x, q, hq, rfl, rfl⟩

/-- Every `BUILD` writes the tree, its registers, `CODE`, `LAST` and the response only (R73, R80). -/
theorem execBuild_frame (s : State) : ∃ tree code tv sl last rootw nnodes resp,
    execBuild s = .next
      { s with
        tree := tree, code := code, tv := tv, sl := sl, last := last, rootw := rootw
        nnodes := nnodes, resp := resp } := by
  rcases execBuild_cases s with ⟨-, h⟩ | ⟨-, -, h⟩ | ⟨-, x, q, -, h⟩
  · exact ⟨_, _, _, _, _, _, _, _, h⟩
  · exact ⟨_, _, _, _, _, _, _, _, h⟩
  · exact ⟨_, _, _, _, _, _, _, _, h⟩

/-- Settles O21: each combining step keeps the queue's leaves, its weight, and its number of nodes and
length together, so the root has the leaves' symbols, the weight `COUNT` and `2L - 1` nodes. -/
theorem buildMakesTreeAndTable : Obligations.BuildMakesTreeAndTable := by
  refine ⟨execBuild_frame, fun s hsum hcount => ?_⟩
  obtain ⟨x, q, hq, hbuild⟩ := execBuild_of_count_ne_zero hsum hcount
  have hweight := weight_treeOf_seedQueue hsum hq
  refine ⟨treeOf x q, assignCodes (treeOf x q), ?_, hweight, nodes_treeOf_seedQueue hq,
    fun sym => ?_⟩
  · rw [exec_build, hbuild, ← length_of_seedQueue hq, buildFrom, hweight]
    rfl
  · rw [getElem_assignCodes_ne_nil_iff (nodup_symbols_treeOf_seedQueue hq),
      (symbols_treeOf_seedQueue hq).mem_iff, mem_presentSymbols]

/-- Settles O23: the leaves of a built tree hold distinct symbols, so no entry is written twice. -/
theorem builtCodesAreTreePaths : Obligations.BuiltCodesAreTreePaths := by
  intro s t root ht hroot sym path hne
  obtain ⟨x, q, hq, rfl, hcode⟩ := execBuild_tree ht hroot
  rw [State.codeOf, hcode]
  exact getElem_assignCodes_eq_iff (nodup_symbols_treeOf_seedQueue hq) sym hne

end Sys2Proof.Machine

/-! # The Encoder (42_encoder.md): what `ENC` writes, and that `DEC` (43_decoder.md) reads it back -/

namespace Sys2Proof.Machine

/-- Settles O28: `ENC` tests `PLEN` before it looks for a tree, and writes the header alone. -/
theorem encOfEmptyInput : Obligations.EncOfEmptyInput := fun s hplen =>
  ⟨s.coded.writePrefix (be32 0), exec_enc_of_plen_zero hplen,
    Memory.holds_writePrefix s.coded (be32 0), Memory.sameFrom_writePrefix s.coded (be32 0)⟩

/-! ## Byte sequences inside a memory -/

/-- The memory holds a byte sequence from an address on. -/
def Memory.HoldsAt (m : Memory) (pos : Nat) (bs : List Byte) : Prop :=
  ∀ i, i < bs.length → m.read? (pos + i) = bs[i]?

theorem Memory.holdsAt_zero {m : Memory} {bs : List Byte} : m.HoldsAt 0 bs ↔ m.Holds bs := by
  simp only [Memory.HoldsAt, Memory.Holds, Nat.zero_add]

theorem Memory.holdsAt_append {m : Memory} {pos : Nat} {bs bs' : List Byte} :
    m.HoldsAt pos (bs ++ bs') ↔ m.HoldsAt pos bs ∧ m.HoldsAt (pos + bs.length) bs' := by
  refine ⟨fun h => ⟨fun i hi => ?_, fun i hi => ?_⟩, fun ⟨h, h'⟩ i hi => ?_⟩
  · rw [h i (by rw [List.length_append]; omega), List.getElem?_append_left hi]
  · rw [Nat.add_assoc, h (bs.length + i) (by rw [List.length_append]; omega),
      List.getElem?_append_right (Nat.le_add_right ..), Nat.add_sub_cancel_left]
  · by_cases hlt : i < bs.length
    · rw [List.getElem?_append_left hlt, h i hlt]
    · rw [List.length_append] at hi
      rw [List.getElem?_append_right (Nat.not_lt.1 hlt), ← h' (i - bs.length) (by omega)]
      congr 1
      omega

/-- A command reads the bytes that a memory holds, whatever the draw. -/
theorem readByte_of_holdsAt {s : State} {pos i : Nat} {bs : List Byte} {b : Byte} (draw : Nat)
    (h : s.coded.HoldsAt pos bs) (hb : bs[i]? = some b) : readByte s .coded draw (pos + i) = b := by
  obtain ⟨hi, -⟩ := List.getElem?_eq_some_iff.1 hb
  exact readByte_of_read? draw ((h i hi).trans hb)

/-! ## Big-endian words (R43) -/

theorem unBE32_extractLsb' (v : Word) :
    unBE32 (v.extractLsb' 24 8) (v.extractLsb' 16 8) (v.extractLsb' 8 8) (v.extractLsb' 0 8) = v := by
  ext i hi
  rw [unBE32]
  grind

/-- Reading a word undoes writing it (R43). -/
theorem codedWord_of_holdsAt {s : State} {pos : Nat} {v : Word} (h : s.coded.HoldsAt pos (be32 v)) :
    codedWord s pos = v := by
  have h0 : readByte s .coded 0 pos = v.extractLsb' 24 8 := readByte_of_holdsAt (i := 0) 0 h rfl
  rw [codedWord, h0, readByte_of_holdsAt (i := 1) 0 h rfl, readByte_of_holdsAt (i := 2) 0 h rfl,
    readByte_of_holdsAt (i := 3) 0 h rfl, unBE32_extractLsb']

theorem nextTag_of_holdsAt {s : State} {n pos : Nat} {t : Word} (h : s.coded.HoldsAt pos (be32 t))
    (hn : pos + 4 ≤ n) : nextTag s n pos = .ok t := by
  rw [nextTag, if_neg (Nat.not_lt.2 hn), codedWord_of_holdsAt h]

/-! ## What a tag denotes (R57, R93) -/

theorem toInt_zextByte (sym : Byte) : (zextByte sym).toInt = sym.toNat := by
  have hsym := sym.isLt
  rw [zextByte, BitVec.toInt_eq_toNat_of_lt] <;> rw [BitVec.toNat_setWidth] <;> omega

theorem tagKind_zextByte (sym : Byte) : tagKind (zextByte sym) = .leaf sym := by
  have hsym := sym.isLt
  have hbits : (zextByte sym).extractLsb' 0 8 = sym := by
    ext i hi
    simp [zextByte, BitVec.getLsbD_eq_getElem hi]
    omega
  rw [tagKind, toInt_zextByte, if_neg (by omega), if_neg (by omega), hbits]

theorem tagKind_of_neg {t : Word} (h : t.toInt < 0) : tagKind t = .internal := if_pos h

/-! ## Rebuilding a serialised tree (R85, R96) -/

/-- The tree without its weights: what the decoder rebuilds (R11). -/
def CodeNode.unweighted : CodeNode → CodeNode
  | .leaf sym _ => .leaf sym 0
  | .internal t _ l r => .internal t 0 l.unweighted r.unweighted

theorem CodeNode.follow_unweighted {x y : CodeNode} {path : Code} (h : x.follow path = some y) :
    x.unweighted.follow path = some y.unweighted := by
  induction path generalizing x with
  | nil =>
    rw [CodeNode.follow_nil] at h ⊢
    rw [Option.some.inj h]
  | cons b path ih =>
    cases x with
    | leaf sym w => cases h
    | internal t w l r =>
      cases b with
      | false => exact ih (x := l) h
      | true => exact ih (x := r) h

/-- Weights have no part in the codes of a tree (R77). -/
theorem CodeNode.codeFor_unweighted {root : CodeNode} {sym : Byte} {path : Code}
    (h : root.CodeFor sym path) : root.unweighted.CodeFor sym path := by
  cases root with
  | leaf s w => exact h
  | internal t w l r =>
    obtain ⟨v, hv⟩ := h
    exact ⟨0, CodeNode.follow_unweighted hv⟩

theorem length_serialize (x : CodeNode) : (serialize x).length = x.nodes := by
  induction x with
  | leaf sym w => rfl
  | internal t w l r ihl ihr =>
    simp only [serialize, CodeNode.nodes, List.length_cons, List.length_append, ihl, ihr]

/-- How the reading of R93 goes on from `pos` once a whole subtree is attached to the stack (R96). -/
def afterAttach (s : State) (n left pos : Nat) :
    CodeNode ⊕ List Frame → Except Status (CodeNode × Nat)
  | .inl root => .ok (root, pos)
  | .inr stack => readTree s n left pos stack

theorem afterAttach_left_child (s : State) (n left pos : Nat) (node : CodeNode) (t : Word)
    (stack : List Frame) :
    afterAttach s n left pos (attach node (⟨t, none⟩ :: stack)) =
      readTree s n left pos (⟨t, some node⟩ :: stack) := rfl

theorem attach_right_child (l r : CodeNode) (t : Word) (stack : List Frame) :
    attach r (⟨t, some l⟩ :: stack) = attach (.internal t 0 l r) stack := rfl

theorem readTree_leaf {s : State} {n pos : Nat} {sym : Byte} (left : Nat) (stack : List Frame)
    (h : nextTag s n pos = .ok (zextByte sym)) :
    readTree s n (left + 1) pos stack =
      afterAttach s n left (pos + 4) (attach (.leaf sym 0) stack) := by
  rw [readTree, h]
  simp only [tagKind_zextByte]
  cases attach (.leaf sym 0) stack <;> rfl

theorem readTree_internal {s : State} {n pos : Nat} {t : Word} (left : Nat) (stack : List Frame)
    (h : nextTag s n pos = .ok t) (ht : t.toInt < 0) :
    readTree s n (left + 1) pos stack = readTree s n left (pos + 4) (⟨t, none⟩ :: stack) := by
  rw [readTree, h]
  simp only [tagKind_of_neg ht]

/-- The stack's reading of a serialised subtree attaches that subtree and goes on behind it (R96). -/
theorem readTree_serialize {s : State} {n : Nat} {x : CodeNode} (hneg : x.negativeTags = true)
    (left : Nat) {pos : Nat} (stack : List Frame)
    (hholds : s.coded.HoldsAt pos ((serialize x).map be32).flatten) (hn : pos + 4 * x.nodes ≤ n) :
    readTree s n (left + x.nodes) pos stack =
      afterAttach s n left (pos + 4 * x.nodes) (attach x.unweighted stack) := by
  induction x generalizing left pos stack with
  | leaf sym w =>
    exact readTree_leaf left stack (nextTag_of_holdsAt hholds hn)
  | internal t w l r ihl ihr =>
    simp only [CodeNode.negativeTags, Bool.and_eq_true, decide_eq_true_eq] at hneg
    obtain ⟨⟨ht, hl⟩, hr⟩ := hneg
    simp only [serialize, List.map_cons, List.map_append, List.flatten_cons, List.flatten_append,
      Memory.holdsAt_append, length_be32, length_flatten_be32, length_serialize] at hholds
    obtain ⟨htag, hleft, hright⟩ := hholds
    simp only [CodeNode.nodes] at hn ⊢
    rw [show left + (l.nodes + r.nodes + 1) = left + r.nodes + l.nodes + 1 by omega,
      readTree_internal _ stack (nextTag_of_holdsAt htag (by omega)) ht,
      ihl hl _ _ hleft (by omega), afterAttach_left_child, ihr hr _ _ hright (by omega),
      attach_right_child, CodeNode.unweighted,
      show pos + 4 + 4 * l.nodes + 4 * r.nodes = pos + 4 * (l.nodes + r.nodes + 1) by omega]

/-- `DEC` rebuilds a serialised tree of at most 511 nodes, without its weights (R93, R96). -/
theorem readTree_root {s : State} {n pos : Nat} {root : CodeNode} (hneg : root.negativeTags = true)
    (hnodes : root.nodes ≤ 511) (hholds : s.coded.HoldsAt pos ((serialize root).map be32).flatten)
    (hn : pos + 4 * root.nodes ≤ n) :
    readTree s n 511 pos [] = .ok (root.unweighted, pos + 4 * root.nodes) := by
  have h := readTree_serialize hneg (511 - root.nodes) [] hholds hn
  rwa [Nat.sub_add_cancel hnodes] at h

/-! ## Payload bits (R44, R86, R97) -/

/-- The payload bits from number `bi` on are `bits` (R93, R97). -/
def SendsBits (s : State) (n pos bi : Nat) (bits : List Bool) : Prop :=
  ∀ i b, bits[i]? = some b → nextBit s n pos (bi + i) = .ok b

theorem sendsBits_cons {s : State} {n pos bi : Nat} {b : Bool} {bits : List Bool} :
    SendsBits s n pos bi (b :: bits) ↔
      nextBit s n pos bi = .ok b ∧ SendsBits s n pos (bi + 1) bits := by
  refine ⟨fun h => ⟨h 0 b rfl, fun i b' hb' => ?_⟩, fun ⟨h, h'⟩ i b' hb' => ?_⟩
  · rw [Nat.add_right_comm]
    exact h (i + 1) b' hb'
  · cases i with
    | zero => rwa [Nat.add_zero, ← Option.some.inj hb']
    | succ i =>
      rw [← Nat.add_assoc, Nat.add_right_comm]
      exact h' i b' hb'

theorem sendsBits_append {s : State} {n pos bi : Nat} {bits bits' : List Bool} :
    SendsBits s n pos bi (bits ++ bits') ↔
      SendsBits s n pos bi bits ∧ SendsBits s n pos (bi + bits.length) bits' := by
  induction bits generalizing bi with
  | nil => simp [SendsBits]
  | cons b bits ih =>
    rw [List.cons_append, sendsBits_cons, ih, sendsBits_cons, and_assoc, List.length_cons,
      Nat.add_right_comm, Nat.add_assoc bi]

/-- Payload bit `i` is bit `i mod 8` of payload byte `i div 8` (R44, R86). -/
theorem getLsbD_packByte {bits : List Bool} {i : Nat} {b : Bool} (hb : bits[i]? = some b) :
    (packByte bits (i / 8)).getLsbD (i % 8) = b := by
  rw [packByte, getLsbD_packBits 8 bits _ _ (Nat.mod_lt i (by decide)), Nat.div_add_mod,
    List.getD_eq_getElem?_getD, hb, Option.getD_some]

/-- Bit `i` of the payload lies in one of its bytes (R45). -/
theorem div_lt_ceil8 {i m : Nat} (hi : i < m) : i / 8 < ceil8 m := by
  rw [ceil8]
  omega

theorem getElem?_packPayload {bits : List Bool} {j : Nat} (hj : j < ceil8 bits.length) :
    (packPayload bits)[j]? = some (packByte bits j) := by
  simp [packPayload, hj]

/-- `NextBit()` returns the bits that `ENC` packs (R86, R97). -/
theorem sendsBits_of_packPayload {s : State} {n pos : Nat} {bits : List Bool}
    (hholds : s.coded.HoldsAt pos (packPayload bits)) (hn : pos + ceil8 bits.length ≤ n) :
    SendsBits s n pos 0 bits := by
  intro i b hb
  obtain ⟨hi, -⟩ := List.getElem?_eq_some_iff.1 hb
  have hbyte := div_lt_ceil8 hi
  rw [Nat.zero_add, nextBit, if_neg (by omega),
    readByte_of_holdsAt i hholds (getElem?_packPayload hbyte), getLsbD_packByte hb]

/-! ## Reading symbols (R98, R99) -/

/-- The walk follows a path to its leaf (R98). -/
theorem walkDown_of_follow {s : State} {n pos bi : Nat} {x : CodeNode} {path : Code} {sym : Byte}
    {v : Word} (h : x.follow path = some (.leaf sym v)) (hbits : SendsBits s n pos bi path) :
    walkDown s n pos x bi = .ok (sym, bi + path.length) := by
  induction path generalizing x bi with
  | nil =>
    cases x with
    | leaf s' w => cases h; rfl
    | internal t w l r => cases h
  | cons b path ih =>
    cases x with
    | leaf s' w => cases h
    | internal t w l r =>
      obtain ⟨hbit, hrest⟩ := sendsBits_cons.1 hbits
      rw [walkDown, hbit, List.length_cons, Nat.add_comm path.length, ← Nat.add_assoc]
      cases b with
      | false => exact ih (x := l) h hrest
      | true => exact ih (x := r) h hrest

theorem decodeSymbol_of_codeFor {s : State} {n pos bi : Nat} {root : CodeNode} {sym : Byte}
    {path : Code} (h : root.CodeFor sym path) (hbits : SendsBits s n pos bi path) :
    decodeSymbol s n pos root bi = .ok (sym, bi + path.length) := by
  cases root with
  | leaf s' w =>
    obtain ⟨rfl, rfl⟩ := h
    rw [decodeSymbol, (sendsBits_cons.1 hbits).1]
    rfl
  | internal t w l r =>
    obtain ⟨v, hv⟩ := h
    exact walkDown_of_follow hv hbits

/-- Codes of a tree, one after the other, are read back as their symbols (R98, R99). -/
theorem decodeSymbols_of_codes {s : State} {n pos bi : Nat} {root : CodeNode} {syms : List Byte}
    {codes : List Code} (h : List.Forall₂ root.CodeFor syms codes)
    (hbits : SendsBits s n pos bi codes.flatten) :
    decodeSymbols s n pos root syms.length bi = .ok syms := by
  induction h generalizing bi with
  | nil => rfl
  | cons hcode _ ih =>
    obtain ⟨hfirst, hrest⟩ := sendsBits_append.1 hbits
    rw [List.length_cons, decodeSymbols, decodeSymbol_of_codeFor hcode hfirst]
    simp only [ih hrest]

/-! ## `DEC` of what `ENC` writes -/

section
variable {s : State} {root : CodeNode} {syms : List Byte} {codes : List Code} {len : Word}

/-- A header with length 0 ends `DEC` before it reads a tree (R95). -/
theorem decFrom_of_zero (hholds : s.coded.HoldsAt 0 (be32 0)) (hclen : 4 ≤ s.clen.toNat) :
    decFrom s = finish .ok 0 { s with plen := 0, payoff := 4 } := by
  rw [decFrom, if_neg (Nat.not_lt.2 hclen), if_pos (codedWord_of_holdsAt hholds)]

/-- Where the header's length is neither 0 nor too large, `DEC` goes on to the tree (R93). -/
theorem decFrom_of_length (hholds : s.coded.HoldsAt 0 (be32 len)) (hclen : 4 ≤ s.clen.toNat)
    (hne : len ≠ 0) (hcap : len.toNat ≤ s.params.plainCap) : decFrom s = decTree len s := by
  rw [decFrom, codedWord_of_holdsAt hholds, if_neg (Nat.not_lt.2 hclen), if_neg hne,
    if_neg (Nat.not_lt.2 hcap)]

theorem decPayload_of_codes {pos : Nat} (hlen : syms.length = len.toNat)
    (hcodes : List.Forall₂ root.CodeFor syms codes)
    (hbits : SendsBits s s.clen.toNat pos 0 codes.flatten) :
    decPayload root pos len s =
      finish .ok len (discardTree { s with plain := s.plain.writePrefix syms, plen := len }) := by
  rw [decPayload, ← hlen, decodeSymbols_of_codes hcodes hbits]

/-- On an encoded buffer with this tree, and the codes of these symbols in it, `DEC` emits the symbols
(R93, R98). -/
theorem decFrom_of_encodedBuffer (hneg : root.negativeTags = true) (hnodes : root.nodes ≤ 511)
    (hcodes : List.Forall₂ root.CodeFor syms codes) (hlen : syms.length = len.toNat)
    (hne : len ≠ 0) (hcap : syms.length ≤ s.params.plainCap)
    (hcoded : s.coded.Holds (encodedBuffer len (serialize root) codes.flatten))
    (hclen : s.clen.toNat = (encodedBuffer len (serialize root) codes.flatten).length) :
    decFrom s = finish .ok len
      (discardTree
        { s with
          plain := s.plain.writePrefix syms, plen := len
          payoff := BitVec.ofNat 32 (4 + 4 * root.nodes) }) := by
  rw [length_encodedBuffer, length_serialize] at hclen
  simp only [← Memory.holdsAt_zero, encodedBuffer, Memory.holdsAt_append, length_be32,
    length_flatten_be32, length_serialize, Nat.zero_add] at hcoded
  obtain ⟨hheader, htree, hpayload⟩ := hcoded
  have hbits : SendsBits { s with payoff := BitVec.ofNat 32 (4 + 4 * root.nodes) } s.clen.toNat
      (4 + 4 * root.nodes) 0 codes.flatten := sendsBits_of_packPayload hpayload (by omega)
  rw [decFrom_of_length hheader (by omega) hne (hlen ▸ hcap), decTree,
    readTree_root hneg hnodes htree (by omega)]
  exact decPayload_of_codes hlen (hcodes.imp fun _ _ => CodeNode.codeFor_unweighted) hbits

theorem exec_dec_of_zero (hcoded : s.coded.Holds (be32 0)) (hclen : 4 ≤ s.clen.toNat) :
    exec .dec s = .next (finish .ok 0 { discardTree s with plen := 0, payoff := 4 }) :=
  congrArg Host.Outcome.next
    (decFrom_of_zero (s := { discardTree s with payoff := 0 }) (Memory.holdsAt_zero.2 hcoded) hclen)

/-- `DEC` reads the buffer alike after the `DiscardTree()` and `PAYOFF <- 0` it begins with (R93). -/
theorem exec_dec_of_encodedBuffer (hneg : root.negativeTags = true) (hnodes : root.nodes ≤ 511)
    (hcodes : List.Forall₂ root.CodeFor syms codes) (hlen : syms.length = len.toNat)
    (hne : len ≠ 0) (hcap : syms.length ≤ s.params.plainCap)
    (hcoded : s.coded.Holds (encodedBuffer len (serialize root) codes.flatten))
    (hclen : s.clen.toNat = (encodedBuffer len (serialize root) codes.flatten).length) :
    exec .dec s = .next (finish .ok len
      (discardTree
        { s with
          plain := s.plain.writePrefix syms, plen := len
          payoff := BitVec.ofNat 32 (4 + 4 * root.nodes) })) :=
  congrArg Host.Outcome.next (decFrom_of_encodedBuffer (s := { discardTree s with payoff := 0 })
    hneg hnodes hcodes hlen hne hcap hcoded hclen)

end

/-! ## `ENC` with a code for every byte -/

theorem CodeNode.CodeFor.ne_nil {root : CodeNode} {sym : Byte} {path : Code}
    (h : root.CodeFor sym path) : path ≠ [] := by
  rintro rfl
  cases root with
  | leaf s w => cases h.2
  | internal t w l r =>
    obtain ⟨v, hv⟩ := h
    cases hv

/-- With a tree and a code for every byte, `ENC` comes to the size check of R84. -/
theorem exec_enc_of_codes {s : State} {bs : List Byte} (hlen : bs.length = s.plen.toNat)
    (hne : s.plen ≠ 0) (hplain : s.plain.Holds bs) (htv : s.tv = true)
    (hcodes : ∀ b ∈ bs, s.codeOf b ≠ []) :
    exec .enc s = .next (encWrite (treeTags s) (codeBits s bs) { s with payoff := 0 }) := by
  have hread (draw : Nat) : readPrefix { s with payoff := 0 } .plain draw s.plen.toNat = bs :=
    hlen ▸ readPrefix_of_holds draw hplain
  have hall : ¬ bs.any (fun b => (s.codeOf b).isEmpty) = true := by simpa using hcodes
  change Host.Outcome.next (encFrom { s with payoff := 0 }) = _
  rw [encFrom]
  simp only [hread]
  rw [if_neg hne, if_neg (by simp only [htv]; decide)]
  exact congrArg _ (if_neg hall)

/-! ## The round trip -/

/-- `ENC` answers `NO_SPACE` where the encoding of `bs` is larger than `CODED_CAP`, else `OK`, and then
`DEC` gives `bs` back (R90, R91). -/
def EncDecReturns (s : State) (bs : List Byte) : Prop :=
  ∃ t, exec .enc s = .next t ∧
    ((s.params.codedCap < 4 + 4 * (treeTags s).length + ceil8 (codeBits s bs).length ∧
        t.resp = some ⟨.noSpace, 0⟩) ∨
      (t.resp = some ⟨.ok, t.clen⟩ ∧
        ∃ u, exec .dec t = .next u ∧ u.resp = some ⟨.ok, s.plen⟩ ∧ u.plen = s.plen ∧
          u.plain.Holds bs))

/-- The empty input needs no tree (R87, R95). -/
theorem encDecReturns_nil {s : State} (hplen : s.plen = 0) : EncDecReturns s [] := by
  have hdec := exec_dec_of_zero (s := finish .ok 4
    (discardTree { s with coded := s.coded.writePrefix (be32 0), clen := 4, payoff := 4 }))
    (Memory.holds_writePrefix s.coded (be32 0)) (le_refl 4)
  refine ⟨_, exec_enc_of_plen_zero hplen, .inr ⟨rfl, _, hdec, ?_⟩⟩
  rw [hplen]
  exact ⟨rfl, rfl, fun i hi => absurd hi (Nat.not_lt_zero i)⟩

/-- A tree with a code for every byte round-trips the bytes, built for them or not (R91). -/
theorem encDecReturns_of_codes {s : State} {bs : List Byte} {root : CodeNode}
    (hroot : s.tree = some root) (htv : s.tv = true) (hneg : root.negativeTags = true)
    (hnodes : root.nodes ≤ 511) (hcodes : ∀ b ∈ bs, root.CodeFor b (s.codeOf b))
    (hplain : s.plain.Holds bs) (hlen : bs.length = s.plen.toNat) (hne : s.plen ≠ 0)
    (hcap : bs.length ≤ s.params.plainCap) : EncDecReturns s bs := by
  have htags : treeTags s = serialize root := by rw [treeTags, hroot]
  have henc := exec_enc_of_codes hlen hne hplain htv fun b hb => (hcodes b hb).ne_nil
  have hforall : List.Forall₂ root.CodeFor bs (bs.map s.codeOf) :=
    List.forall₂_map_right_iff.2 (List.forall₂_same.2 hcodes)
  rcases encWrite_cases (treeTags s) (codeBits s bs) { s with payoff := 0 } with
    ⟨hsize, hwrite⟩ | ⟨hsize, hwrite⟩
  · exact ⟨_, henc, .inl ⟨hsize, by rw [hwrite]; rfl⟩⟩
  · rw [hwrite] at henc
    obtain ⟨-, ⟨-, hcodedCap⟩, -⟩ := s.params.bounds
    refine ⟨_, henc, .inr ⟨rfl, _, exec_dec_of_encodedBuffer (len := s.plen) hneg hnodes hforall hlen
      hne hcap ?_ ?_, rfl, rfl, Memory.holds_writePrefix s.plain bs⟩⟩
    · rw [← htags]
      exact Memory.holds_writePrefix s.coded (encodedBuffer s.plen (treeTags s) (codeBits s bs))
    · rw [← htags, length_encodedBuffer]
      exact Nat.mod_eq_of_lt (hsize.trans_lt (hcodedCap.trans_lt (by decide)))

/-! ## `HIST` of a byte sequence -/

theorem exec_hist_of_holds {s : State} {bs : List Byte} (hlen : bs.length = s.plen.toNat)
    (hplain : s.plain.Holds bs) :
    exec .hist s =
      .next (finish .ok s.plen { s with freq := histogram bs, count := s.plen }) := by
  have hread : readPrefix s .plain 0 s.plen.toNat = bs := hlen ▸ readPrefix_of_holds 0 hplain
  change execHist s = _
  rw [execHist, hread]

section
variable {s : State} {bs : List Byte}

theorem toNat_freqOf_of_histogram (hfreq : s.freq = histogram bs) (hlen : bs.length < 2 ^ 32)
    (sym : Byte) : (s.freqOf sym).toNat = bs.count sym := by
  rw [State.freqOf, hfreq]
  exact toNat_getElem_histogram hlen sym

/-- The frequencies of a byte sequence add up to its length (R71). -/
theorem freqSum_of_histogram (hfreq : s.freq = histogram bs) (hlen : bs.length < 2 ^ 32) :
    freqSum s = bs.length := by
  have hmem : ∀ b ∈ (bs : Multiset Byte), b ∈ allSymbols.toFinset :=
    fun b _ => List.mem_toFinset.2 (mem_allSymbols b)
  simp only [freqSum, toNat_freqOf_of_histogram hfreq hlen]
  rw [← List.sum_toFinset _ nodup_allSymbols]
  simpa using Multiset.sum_count_eq_card hmem

/-- The symbols present are those that occur (R74). -/
theorem mem_presentSymbols_of_histogram (hfreq : s.freq = histogram bs) (hlen : bs.length < 2 ^ 32)
    (sym : Byte) : sym ∈ presentSymbols s ↔ sym ∈ bs := by
  rw [mem_presentSymbols, ← List.count_pos_iff, ← toNat_freqOf_of_histogram hfreq hlen, ne_eq,
    ← BitVec.toNat_inj]
  exact Nat.pos_iff_ne_zero.symm

end

/-! ## Built trees can be encoded (R10, R24, R57) -/

theorem toInt_itag {k : Nat} (hk : k < 255) : (itag k).toInt = -(256 + (k : Int)) := by
  rw [itag, BitVec.toInt_ofInt]
  exact Int.bmod_eq_of_le (by omega) (by omega)

/-- Combining makes internal nodes with negative tags (R10, R76). -/
theorem negativeTags_combineAll {fuel k : Nat} {x : CodeNode} {q : List CodeNode}
    (hk : k + q.length ≤ 255) (hq : ∀ y ∈ x :: q, y.negativeTags = true) :
    (combineAll fuel k x q).negativeTags = true := by
  induction fuel generalizing k x q with
  | zero => exact hq x (List.mem_cons_self ..)
  | succ fuel ih =>
    cases q with
    | nil => exact hq x (List.mem_cons_self ..)
    | cons y ys =>
      obtain ⟨a, b, rest, hcombine, hperm, hlen⟩ := combineTwo_cases k x y ys
      rw [List.length_cons] at hk
      have hall : ∀ z ∈ a :: b :: rest, z.negativeTags = true :=
        fun z hz => hq z (hperm.mem_iff.1 hz)
      have htag : (itag k).toInt < 0 := by
        rw [toInt_itag (by omega)]
        omega
      rw [combineAll, hcombine]
      refine ih (by omega) (List.forall_mem_cons.2 ⟨?_, fun z hz => hall z (by simp [hz])⟩)
      simp [CodeNode.negativeTags, htag, hall a, hall b]

theorem length_presentSymbols_le (s : State) : (presentSymbols s).length ≤ 256 :=
  (List.length_filter_le _ allSymbols).trans (by rw [allSymbols, List.length_map, List.length_range])

section
variable {s : State} {x : CodeNode} {q : List CodeNode}

theorem negativeTags_treeOf_seedQueue (hq : seedQueue s = x :: q) :
    (treeOf x q).negativeTags = true := by
  have hlen := length_of_seedQueue hq
  have hle := length_presentSymbols_le s
  refine negativeTags_combineAll (by omega) fun y hy => ?_
  rw [← hq, seedQueue_eq] at hy
  obtain ⟨sym, -, rfl⟩ := List.mem_map.1 hy
  rfl

theorem nodes_treeOf_seedQueue_le (hq : seedQueue s = x :: q) : (treeOf x q).nodes ≤ 511 := by
  have hle := length_presentSymbols_le s
  rw [nodes_treeOf_seedQueue hq]
  omega

/-- The code table of a built tree has the code of every present symbol (R77). -/
theorem codeFor_treeOf_seedQueue (hq : seedQueue s = x :: q) {sym : Byte}
    (hsym : sym ∈ presentSymbols s) :
    (treeOf x q).CodeFor sym ((assignCodes (treeOf x q))[sym.toNat]'sym.isLt) := by
  have hnodup := nodup_symbols_treeOf_seedQueue hq
  have hne := (getElem_assignCodes_ne_nil_iff hnodup sym).2
    ((symbols_treeOf_seedQueue hq).mem_iff.2 hsym)
  exact (getElem_assignCodes_eq_iff hnodup sym hne).1 rfl

end

/-- After `HIST`, `BUILD` answers `OK` and leaves a state from which `ENC` and `DEC` round-trip. -/
theorem exec_build_encDecReturns {s : State} {bs : List Byte} (hfreq : s.freq = histogram bs)
    (hcount : s.count = s.plen) (hlen : bs.length = s.plen.toNat) (hplain : s.plain.Holds bs)
    (hcap : bs.length ≤ s.params.plainCap) :
    ∃ t v, exec .build s = .next t ∧ t.resp = some ⟨.ok, v⟩ ∧ t.plen = s.plen ∧
      t.params = s.params ∧ EncDecReturns t bs := by
  have hword : bs.length < 2 ^ 32 := hlen ▸ s.plen.isLt
  have hsum : freqSum s = s.count.toNat := by
    rw [freqSum_of_histogram hfreq hword, hcount, hlen]
  by_cases hne : s.plen = 0
  · have hnil : bs = [] := List.length_eq_zero_iff.1 (by rw [hlen, hne]; rfl)
    subst hnil
    have hzero (sym : Byte) : s.freqOf sym = 0 :=
      BitVec.eq_of_toNat_eq (toNat_freqOf_of_histogram hfreq hword sym)
    exact ⟨_, 0, exec_build_of_empty (hcount.trans hne) hzero, rfl, rfl, rfl, encDecReturns_nil hne⟩
  · obtain ⟨x, q, hq, hbuild⟩ := execBuild_of_count_ne_zero hsum (hcount ▸ hne)
    refine ⟨_, _, hbuild, rfl, rfl, rfl, ?_⟩
    exact encDecReturns_of_codes rfl rfl (negativeTags_treeOf_seedQueue hq)
      (nodes_treeOf_seedQueue_le hq)
      (fun b hb => codeFor_treeOf_seedQueue hq
        ((mem_presentSymbols_of_histogram hfreq hword b).2 hb)) hplain hlen hne hcap

/-- Settles O42: `BUILD` after `HIST` makes a tree that `DEC` can rebuild, with a code for every byte. -/
theorem histBuildEncDecRoundTrip : Obligations.HistBuildEncDecRoundTrip := by
  intro s bs hcap hlen hplain
  have hhist := exec_hist_of_holds hlen hplain
  obtain ⟨t, v, hbuild, hresp, hplen, hparams, u, henc, hend⟩ :=
    exec_build_encDecReturns (s := finish .ok s.plen { s with freq := histogram bs, count := s.plen })
      rfl rfl hlen hplain hcap
  rw [hplen, hparams] at hend
  exact ⟨_, t, u, v, hhist, rfl, hbuild, hresp, henc, hend⟩

end Sys2Proof.Machine

/-! # The Decoder (43_decoder.md): how `DEC` ends, what it may change, single-leaf buffers -/

namespace Sys2Proof.Machine

/-- Settles O34: a header of length 0 ends `DEC` before the tree (R95). -/
theorem decOfEmptyLength : Obligations.DecOfEmptyLength := fun _ hclen hcoded =>
  exec_dec_of_zero hcoded hclen

/-! ## What the reading of the tree and of the payload can answer (R93, R100) -/

/-- The tree is read from `CODED` alone (R93). -/
theorem readTree_congr {s s' : State} (hread : ∀ pos, codedWord s' pos = codedWord s pos)
    (n left pos : Nat) (stack : List Frame) :
    readTree s' n left pos stack = readTree s n left pos stack := by
  have htag (pos : Nat) : nextTag s' n pos = nextTag s n pos := by rw [nextTag, hread, nextTag]
  induction left generalizing pos stack with
  | zero => rw [readTree, htag, readTree]
  | succ left ih => simp only [readTree, htag, ih]

theorem readTree_error {s : State} {n left pos : Nat} {stack : List Frame} {st : Status}
    (h : readTree s n left pos stack = .error st) : st = .truncated ∨ st = .malformed := by
  induction left generalizing pos stack with
  | zero =>
    rcases nextTag_cases s n pos with ⟨-, htag⟩ | ⟨-, htag⟩
    · rw [readTree, htag] at h
      exact .inl (Except.error.inj h).symm
    · rw [readTree, htag] at h
      exact .inr (Except.error.inj h).symm
  | succ left ih =>
    rcases nextTag_cases s n pos with ⟨-, htag⟩ | ⟨-, htag⟩
    · rw [readTree, htag] at h
      exact .inl (Except.error.inj h).symm
    · rw [readTree, htag] at h
      simp only at h
      split at h
      · exact .inr (Except.error.inj h).symm
      · exact ih h
      · split at h
        · cases h
        · exact ih h

theorem walkDown_error {s : State} {n pos bi : Nat} {x : CodeNode} {st : Status}
    (h : walkDown s n pos x bi = .error st) : st = .truncated := by
  induction x generalizing bi with
  | leaf sym w => cases h
  | internal t w l r ihl ihr =>
    rcases nextBit_cases s n pos bi with ⟨-, hbit⟩ | ⟨-, hbit⟩
    · rw [walkDown, hbit] at h
      exact (Except.error.inj h).symm
    · rw [walkDown, hbit] at h
      cases hb : (readByte s .coded bi (pos + bi / 8)).getLsbD (bi % 8) with
      | false => exact ihl (by rwa [hb] at h)
      | true => exact ihr (by rwa [hb] at h)

theorem decodeSymbol_error {s : State} {n pos bi : Nat} {root : CodeNode} {st : Status}
    (h : decodeSymbol s n pos root bi = .error st) : st = .truncated ∨ st = .corrupt := by
  cases root with
  | leaf sym w =>
    rcases nextBit_cases s n pos bi with ⟨-, hbit⟩ | ⟨-, hbit⟩
    · rw [decodeSymbol, hbit] at h
      exact .inl (Except.error.inj h).symm
    · rw [decodeSymbol, hbit] at h
      cases hb : (readByte s .coded bi (pos + bi / 8)).getLsbD (bi % 8) with
      | false =>
        rw [hb] at h
        cases h
      | true =>
        rw [hb] at h
        exact .inr (Except.error.inj h).symm
  | internal t w l r => exact .inl (walkDown_error h)

/-- One more symbol: a failure of it, or of the symbols after it, fails the whole. -/
theorem decodeSymbols_succ_cases (s : State) (n pos : Nat) (root : CodeNode) (k bi : Nat) :
    (∃ st, decodeSymbol s n pos root bi = .error st ∧
      decodeSymbols s n pos root (k + 1) bi = .error st) ∨
    (∃ sym bi', decodeSymbol s n pos root bi = .ok (sym, bi') ∧
      ((∃ st, decodeSymbols s n pos root k bi' = .error st ∧
          decodeSymbols s n pos root (k + 1) bi = .error st) ∨
        ∃ out, decodeSymbols s n pos root k bi' = .ok out ∧
          decodeSymbols s n pos root (k + 1) bi = .ok (sym :: out))) := by
  cases hfirst : decodeSymbol s n pos root bi with
  | error st => exact .inl ⟨st, rfl, by rw [decodeSymbols, hfirst]⟩
  | ok found =>
    refine .inr ⟨found.1, found.2, rfl, ?_⟩
    rw [decodeSymbols, hfirst]
    cases hrest : decodeSymbols s n pos root k found.2 with
    | error st => exact .inl ⟨st, rfl, by simp only [hrest]⟩
    | ok out => exact .inr ⟨out, rfl, by simp only [hrest]⟩

theorem decodeSymbols_error {s : State} {n pos k bi : Nat} {root : CodeNode} {st : Status}
    (h : decodeSymbols s n pos root k bi = .error st) : st = .truncated ∨ st = .corrupt := by
  induction k generalizing bi with
  | zero => cases h
  | succ k ih =>
    rcases decodeSymbols_succ_cases s n pos root k bi with
      ⟨st', hfirst, hall⟩ | ⟨sym, bi', -, ⟨st', hrest, hall⟩ | ⟨out, -, hall⟩⟩
    · cases hall.symm.trans h
      exact decodeSymbol_error hfirst
    · cases hall.symm.trans h
      exact ih hrest
    · cases hall.symm.trans h

theorem length_of_decodeSymbols {s : State} {n pos k bi : Nat} {root : CodeNode} {out : List Byte}
    (h : decodeSymbols s n pos root k bi = .ok out) : out.length = k := by
  induction k generalizing bi out with
  | zero =>
    cases h
    rfl
  | succ k ih =>
    rcases decodeSymbols_succ_cases s n pos root k bi with
      ⟨st, -, hall⟩ | ⟨sym, bi', -, ⟨st, -, hall⟩ | ⟨rest, hrest, hall⟩⟩
    · cases hall.symm.trans h
    · cases hall.symm.trans h
    · cases hall.symm.trans h
      rw [List.length_cons, ih hrest]

/-! ## Everything `DEC` can do (R93) -/

/-- `DecFails s st p`: the checks of R93 end `DEC` with the status `st` while `PAYOFF` is `p` (R101);
`s` is the state after the `DiscardTree()` and `PAYOFF <- 0` of the start. -/
inductive DecFails (s : State) : Status → Word → Prop where
  /-- the header is cut off -/
  | shortHeader : s.clen.toNat < 4 → DecFails s .truncated s.payoff
  /-- the original length is larger than `PLAIN` -/
  | tooLong : 4 ≤ s.clen.toNat → s.params.plainCap < (codedWord s 0).toNat →
    DecFails s .noSpace s.payoff
  /-- the tree cannot be rebuilt -/
  | badTree {st : Status} : 4 ≤ s.clen.toNat → codedWord s 0 ≠ 0 →
    (codedWord s 0).toNat ≤ s.params.plainCap →
    readTree s s.clen.toNat 511 4 [] = .error st → DecFails s st s.payoff
  /-- the payload cannot be read -/
  | badPayload {st : Status} {root : CodeNode} {pos : Nat} : 4 ≤ s.clen.toNat → codedWord s 0 ≠ 0 →
    (codedWord s 0).toNat ≤ s.params.plainCap →
    readTree s s.clen.toNat 511 4 [] = .ok (root, pos) →
    decodeSymbols { s with payoff := BitVec.ofNat 32 pos } s.clen.toNat pos root
      (codedWord s 0).toNat 0 = .error st →
    DecFails s st (BitVec.ofNat 32 pos)

theorem DecFails.ne_ok {s : State} {st : Status} {p : Word} (h : DecFails s st p) : st ≠ .ok := by
  cases h with
  | shortHeader => decide
  | tooLong => decide
  | badTree _ _ _ htree => rcases readTree_error htree with rfl | rfl <;> decide
  | badPayload _ _ _ _ hpayload => rcases decodeSymbols_error hpayload with rfl | rfl <;> decide

theorem decPayload_of_error {s : State} {root : CodeNode} {pos : Nat} {len : Word} {st : Status}
    (h : decodeSymbols s s.clen.toNat pos root len.toNat 0 = .error st) :
    decPayload root pos len s = failDec st s := by
  rw [decPayload, h]

theorem decPayload_of_ok {s : State} {root : CodeNode} {pos : Nat} {len : Word} {out : List Byte}
    (h : decodeSymbols s s.clen.toNat pos root len.toNat 0 = .ok out) :
    decPayload root pos len s =
      finish .ok len (discardTree { s with plain := s.plain.writePrefix out, plen := len }) := by
  rw [decPayload, h]

/-- `DEC` fails, or it answers an empty or a whole decoded sequence with `OK` (R93, R95). -/
theorem decFrom_cases (s : State) :
    (∃ st p, DecFails s st p ∧ decFrom s = failDec st { s with payoff := p }) ∨
    (codedWord s 0 = 0 ∧ decFrom s = finish .ok 0 { s with plen := 0, payoff := 4 }) ∨
    (∃ root pos out,
      readTree s s.clen.toNat 511 4 [] = .ok (root, pos) ∧
      decodeSymbols { s with payoff := BitVec.ofNat 32 pos } s.clen.toNat pos root
        (codedWord s 0).toNat 0 = .ok out ∧
      decFrom s = finish .ok (codedWord s 0)
        (discardTree
          { s with
            plain := s.plain.writePrefix out, plen := codedWord s 0
            payoff := BitVec.ofNat 32 pos })) := by
  unfold decFrom
  split
  · next hshort => exact .inl ⟨_, _, .shortHeader hshort, rfl⟩
  next hclen =>
  rw [Nat.not_lt] at hclen
  split
  · next hzero => exact .inr (.inl ⟨hzero, rfl⟩)
  next hne =>
  split
  · next hlarge => exact .inl ⟨_, _, .tooLong hclen hlarge, rfl⟩
  next hcap =>
  rw [Nat.not_lt] at hcap
  rw [decTree]
  cases htree : readTree s s.clen.toNat 511 4 [] with
  | error st => exact .inl ⟨_, _, .badTree hclen hne hcap htree, rfl⟩
  | ok found =>
    obtain ⟨root, pos⟩ := found
    cases hpayload : decodeSymbols { s with payoff := BitVec.ofNat 32 pos } s.clen.toNat pos root
        (codedWord s 0).toNat 0 with
    | error st =>
      exact .inl ⟨_, _, .badPayload hclen hne hcap htree hpayload, decPayload_of_error hpayload⟩
    | ok out => exact .inr (.inr ⟨root, pos, out, rfl, hpayload, decPayload_of_ok hpayload⟩)

/-! ## The start of `DEC` (R93)

`DEC` begins with `DiscardTree()` and `PAYOFF <- 0`, which leave all that it reads as it was. -/

/-- The state in which `DEC` makes its checks. -/
def decStart (s : State) : State := { discardTree s with payoff := 0 }

theorem exec_dec (s : State) : exec .dec s = .next (decFrom (decStart s)) := rfl

@[simp] theorem decStart_params (s : State) : (decStart s).params = s.params := rfl

@[simp] theorem decStart_clen (s : State) : (decStart s).clen = s.clen := rfl

@[simp] theorem decStart_payoff (s : State) : (decStart s).payoff = 0 := rfl

@[simp] theorem codedWord_decStart (s : State) (pos : Nat) :
    codedWord (decStart s) pos = codedWord s pos := rfl

@[simp] theorem readTree_decStart (s : State) (n left pos : Nat) (stack : List Frame) :
    readTree (decStart s) n left pos stack = readTree s n left pos stack :=
  readTree_congr (codedWord_decStart s) n left pos stack

/-- Settles O39: by the ways in which `DEC` can end; only one of them writes `PLAIN` with `OK`. -/
theorem decChangesOnlyItsOutputs : Obligations.DecChangesOnlyItsOutputs := by
  intro s
  rw [exec_dec]
  rcases decFrom_cases (decStart s) with
    ⟨st, p, hfails, h⟩ | ⟨-, h⟩ | ⟨root, pos, out, -, hpayload, h⟩
  · exact ⟨_, _, _, _, _, congrArg _ h, fun hok => absurd hok hfails.ne_ok⟩
  · exact ⟨_, _, _, _, _, congrArg _ h, fun _ _ _ => rfl⟩
  · refine ⟨_, _, _, _, _, congrArg _ h, fun _ => ?_⟩
    exact length_of_decodeSymbols hpayload ▸ Memory.sameFrom_writePrefix s.plain out

/-- Settles O38: by the ways in which `DEC` can end; `PAYOFF` is written before the payload is read. -/
theorem decFailureLeavesNoOutput : Obligations.DecFailureLeavesNoOutput := by
  intro s t r ht hresp
  cases (exec_dec s).symm.trans ht
  rcases decFrom_cases (decStart s) with ⟨st, p, hfails, h⟩ | ⟨-, h⟩ | ⟨root, pos, out, -, -, h⟩
  · rw [h] at hresp ⊢
    cases hresp
    refine ⟨rfl, rfl, fun _ => ⟨rfl, rfl, rfl, ?_⟩⟩
    rw [failDec_payoff]
    cases hfails with
    | shortHeader hshort => rw [if_pos (.inl hshort), decStart_payoff]
    | tooLong _ hlarge => rw [if_pos (.inr hlarge), decStart_payoff]
    | badTree hclen _ hcap htree =>
      simp only [decStart_clen, decStart_params, codedWord_decStart, readTree_decStart]
        at hclen hcap htree
      rw [if_neg (by omega), htree, decStart_payoff]
    | badPayload hclen _ hcap htree _ =>
      simp only [decStart_clen, decStart_params, codedWord_decStart, readTree_decStart]
        at hclen hcap htree
      rw [if_neg (by omega), htree]
  · rw [h] at hresp ⊢
    cases hresp
    exact ⟨rfl, rfl, fun hbad => absurd rfl hbad⟩
  · rw [h] at hresp ⊢
    cases hresp
    exact ⟨rfl, rfl, fun hbad => absurd rfl hbad⟩

/-! ## Payload bits as bits of the stored bytes (R97) -/

section
variable {s : State} {n pos : Nat} {payload : List Byte}

theorem nextBit_of_holdsAt (hholds : s.coded.HoldsAt pos payload) (hn : pos + payload.length ≤ n)
    {i : Nat} (hi : i < 8 * payload.length) :
    nextBit s n pos i = .ok ((payload.getD (i / 8) 0).getLsbD (i % 8)) := by
  have hbyte : i / 8 < payload.length := by omega
  have hget : payload[i / 8]? = some (payload.getD (i / 8) 0) := by
    rw [List.getD_eq_getElem _ _ hbyte, List.getElem?_eq_getElem hbyte]
  rw [nextBit, if_neg (by omega), readByte_of_holdsAt i hholds hget]

theorem nextBit_past_end {i : Nat} (hn : n = pos + payload.length) (hi : 8 * payload.length ≤ i) :
    nextBit s n pos i = .error .truncated := by
  rw [nextBit, if_pos (by omega)]

/-! ## A payload that stops being readable (R98, R100) -/

/-- After the codes of some symbols, a failure of the next symbol is the failure of the payload. -/
theorem decodeSymbols_error_after_codes {bi k : Nat} {root : CodeNode} {syms : List Byte}
    {codes : List Code} {st : Status} (hcodes : List.Forall₂ root.CodeFor syms codes)
    (hbits : SendsBits s n pos bi codes.flatten)
    (hstop : decodeSymbol s n pos root (bi + codes.flatten.length) = .error st)
    (hk : syms.length < k) : decodeSymbols s n pos root k bi = .error st := by
  induction hcodes generalizing bi k with
  | nil =>
    cases k with
    | zero => cases hk
    | succ k => rw [decodeSymbols, show decodeSymbol s n pos root bi = .error st from hstop]
  | cons hcode _ ih =>
    cases k with
    | zero => cases hk
    | succ k =>
      obtain ⟨hfirst, hrest⟩ := sendsBits_append.1 hbits
      rw [List.flatten_cons, List.length_append, ← Nat.add_assoc] at hstop
      rw [decodeSymbols, decodeSymbol_of_codeFor hcode hfirst]
      simp only [ih hrest hstop (Nat.lt_of_succ_lt_succ hk)]

/-! ## Single-leaf buffers (R99) -/

theorem forall₂_codeFor_leaf (sym : Byte) (w : Word) (k : Nat) :
    List.Forall₂ (CodeNode.leaf sym w).CodeFor (List.replicate k sym)
      (List.replicate k [false]) := by
  induction k with
  | zero => exact .nil
  | succ k ih => exact .cons ⟨rfl, rfl⟩ ih

theorem decodeSymbol_leaf_of_one {bi : Nat} (sym : Byte) (w : Word)
    (h : nextBit s n pos bi = .ok true) :
    decodeSymbol s n pos (.leaf sym w) bi = .error .corrupt := by
  rw [decodeSymbol, h]

theorem decodeSymbol_leaf_of_error {bi : Nat} {st : Status} (sym : Byte) (w : Word)
    (h : nextBit s n pos bi = .error st) : decodeSymbol s n pos (.leaf sym w) bi = .error st := by
  rw [decodeSymbol, h]

/-- Payload bits that are 0 are the codes of as many symbols of a single-leaf tree. -/
theorem sendsBits_of_zeros (hholds : s.coded.HoldsAt pos payload) (hn : pos + payload.length ≤ n)
    {k : Nat} (hk : k ≤ 8 * payload.length)
    (hzero : ∀ i, i < k → (payload.getD (i / 8) 0).getLsbD (i % 8) = false) :
    SendsBits s n pos 0 (List.replicate k [false]).flatten := by
  intro i b hb
  rw [List.flatten_replicate_singleton] at hb
  obtain ⟨hi, rfl⟩ := List.getElem?_eq_some_iff.1 hb
  rw [List.length_replicate] at hi
  rw [Nat.zero_add, nextBit_of_holdsAt hholds hn (hi.trans_le hk), hzero i hi, List.getElem_replicate]

/-- At a single-leaf root the symbol behind `j` bits that are 0 is the first that can fail. -/
theorem decodeSymbols_leaf_error {j k : Nat} {sym : Byte} {w : Word} {st : Status} (hj : j < k)
    (hbits : SendsBits s n pos 0 (List.replicate j [false]).flatten)
    (hstop : decodeSymbol s n pos (.leaf sym w) j = .error st) :
    decodeSymbols s n pos (.leaf sym w) k 0 = .error st := by
  refine decodeSymbols_error_after_codes (forall₂_codeFor_leaf sym w j) hbits ?_ ?_
  · rwa [List.flatten_replicate_singleton, List.length_replicate, Nat.zero_add]
  · rwa [List.length_replicate]

end

/-- `DEC` of a single-leaf buffer comes to its payload, which begins 8 bytes into the buffer (R99). -/
theorem decFrom_of_single_leaf {s : State} {sym : Byte} {len : Word}
    (hheader : s.coded.HoldsAt 0 (be32 len)) (htag : s.coded.HoldsAt 4 (be32 (zextByte sym)))
    (hclen : 8 ≤ s.clen.toNat) (hne : len ≠ 0) (hcap : len.toNat ≤ s.params.plainCap) :
    decFrom s = decPayload (.leaf sym 0) 8 len { s with payoff := 8 } := by
  have htree : readTree s s.clen.toNat 511 4 [] = .ok (.leaf sym 0, 8) :=
    readTree_root (root := .leaf sym 0) rfl (Nat.le_of_ble_eq_true rfl) htag hclen
  rw [decFrom_of_length hheader (by omega) hne hcap, decTree, htree]
  rfl

/-- Settles O35: a symbol's code in a single-leaf tree is `[0]`, so payload bits that are 0 are symbols,
and the first bit that is not 0, or is not there, ends `DEC`. -/
theorem decOfSingleLeaf : Obligations.DecOfSingleLeaf := by
  intro s sym len payload hne hcap hclen hcoded
  simp only [← Memory.holdsAt_zero, Memory.holdsAt_append, length_be32, Nat.zero_add] at hcoded
  obtain ⟨hheader, htag, hpayload⟩ := hcoded
  have hdec : exec .dec s = .next (decPayload (.leaf sym 0) 8 len { decStart s with payoff := 8 }) :=
    congrArg _ (decFrom_of_single_leaf (s := decStart s) hheader htag
      (hclen ▸ Nat.le_add_right 8 payload.length) hne hcap)
  have hzeros {k : Nat} := sendsBits_of_zeros (s := { decStart s with payoff := 8 }) (k := k)
    hpayload hclen.ge
  refine ⟨(decPayload (.leaf sym 0) 8 len { decStart s with payoff := 8 }).plain, ?_, ?_, ?_⟩
  · intro hlen hzero
    have hsame := Memory.sameFrom_writePrefix s.plain (List.replicate len.toNat sym)
    rw [List.length_replicate] at hsame
    rw [hdec, decPayload_of_codes List.length_replicate (forall₂_codeFor_leaf sym 0 len.toNat)
      (hzeros hlen hzero)]
    exact ⟨rfl, Memory.holds_writePrefix s.plain _, hsame⟩
  · intro j hj hbound hzero hone
    have hbit : nextBit { decStart s with payoff := 8 } s.clen.toNat 8 j = .ok true :=
      hone ▸ nextBit_of_holdsAt hpayload hclen.ge hbound
    rw [hdec, decPayload_of_error (decodeSymbols_leaf_error hj (hzeros hbound.le hzero)
      (decodeSymbol_leaf_of_one sym 0 hbit))]
    rfl
  · intro hlen hzero
    rw [hdec, decPayload_of_error (decodeSymbols_leaf_error hlen (hzeros le_rfl hzero)
      (decodeSymbol_leaf_of_error sym 0 (nextBit_past_end hclen le_rfl)))]
    rfl

end Sys2Proof.Machine

/-! # The Framer (44_framer.md): `FCLR` -/

namespace Sys2Proof.Machine

theorem exec_fclr (s : State) : exec .fclr s = .next (finish .ok 0 { s with fb := [] }) := rfl

/-- Register 7 is `FBLEN` (R24). -/
theorem csrRead?_fblen (s : State) : csrRead? s 7 = some (BitVec.ofNat 32 s.fb.length) := rfl

/-- Settles O43: `FCLR` responds from a state with `FB` emptied, whose length `FBLEN` then reads. -/
theorem fclrEmptiesTheFrameBuffer : Obligations.FclrEmptiesTheFrameBuffer := fun s =>
  ⟨exec_fclr s, csrRead?_fblen { s with fb := [] }⟩

end Sys2Proof.Machine

/-! # Host access (45_host_access.md): `NOP` and the words of opcode 0 -/

namespace Sys2Proof

/-- A command without operands is legal only where both fields are 0 (R64); `a` is looked at first. -/
theorem decodeNone_commandWord (op : BitVec 8) (a : BitVec 24) (d : BitVec 32) (i : Instr) :
    decodeNone (commandWord op a d) i =
      if a ≠ 0 then .error .unusedA else if d ≠ 0 then .error .unusedD else .ok i := by
  rw [decodeNone, aField_commandWord, dField_commandWord]

/-- Opcode 0 selects `NOP` whatever the other fields hold (R63, R65). -/
theorem decode_opcode_zero (a : BitVec 24) (d : BitVec 32) :
    decode (commandWord 0 a d) = decodeNone (commandWord 0 a d) .nop := by
  rw [decode, opField_commandWord]
  rfl

theorem decode_opcode_zero_of_a_ne_zero {a : BitVec 24} (ha : a ≠ 0) (d : BitVec 32) :
    decode (commandWord 0 a d) = .error .unusedA := by
  rw [decode_opcode_zero, decodeNone_commandWord, if_pos ha]

theorem decode_opcode_zero_of_d_ne_zero {d : BitVec 32} (hd : d ≠ 0) :
    decode (commandWord 0 0 d) = .error .unusedD := by
  rw [decode_opcode_zero, decodeNone_commandWord, if_neg (not_not.2 rfl), if_pos hd]

/-- The word of R66 with every field 0 is the all-zero word. -/
theorem decode_zero : decode 0 = .ok .nop := by
  have hword : (0 : CmdWord) = commandWord 0 0 0 := rfl
  rw [hword, decode_opcode_zero, decodeNone_commandWord, if_neg (not_not.2 rfl),
    if_neg (not_not.2 rfl)]

namespace Machine

/-- `NOP` goes through `respond`, which leaves `STATUS.LAST` alone, and not through `finish`. -/
theorem exec_nop (s : State) : exec .nop s = .next (respond .ok 0 s) := rfl

/-- Settles O54: a nonzero field of an opcode 0 word is `a`, or it is `d` with `a = 0`. -/
theorem nopChangesNothing : Obligations.NopChangesNothing := by
  refine ⟨exec_nop, decode_zero, fun a d hfield => ?_⟩
  by_cases ha : a = 0
  · subst ha
    exact ⟨_, decode_opcode_zero_of_d_ne_zero (hfield.resolve_left (not_not.2 rfl))⟩
  · exact ⟨_, decode_opcode_zero_of_a_ne_zero ha d⟩

end Machine

end Sys2Proof

/-! # The command word (30_encoding.md): `decode` and `encode` are inverse; illegal words -/

namespace Sys2Proof

/-! ## The four operand forms (R61, R64) -/

section
variable {w : CmdWord}

theorem decodeNone_eq_ok_iff {i j : Instr} :
    decodeNone w i = .ok j ↔ aField w = 0 ∧ dField w = 0 ∧ i = j := by
  by_cases ha : aField w = 0
  · by_cases hd : dField w = 0 <;> simp_all [decodeNone]
  · simp_all [decodeNone]

theorem decodeD_eq_ok_iff {f : Nat → Instr} {j : Instr} :
    decodeD w f = .ok j ↔ aField w = 0 ∧ f (dField w).toNat = j := by
  by_cases ha : aField w = 0 <;> simp_all [decodeD]

theorem decodeA_eq_ok_iff {f : Nat → Instr} {j : Instr} :
    decodeA w f = .ok j ↔ dField w = 0 ∧ f (aField w).toNat = j := by
  by_cases hd : dField w = 0 <;> simp_all [decodeA]

theorem decodeAD_eq_ok_iff {f : Nat → Word → Instr} {j : Instr} :
    decodeAD w f = .ok j ↔ f (aField w).toNat (dField w) = j := by
  simp [decodeAD]

theorem decodeNone_eq_error_iff {i : Instr} :
    (∃ e, decodeNone w i = .error e) ↔ aField w ≠ 0 ∨ dField w ≠ 0 := by
  by_cases ha : aField w = 0
  · by_cases hd : dField w = 0 <;> simp_all [decodeNone]
  · simp_all [decodeNone]

theorem decodeD_eq_error_iff {f : Nat → Instr} :
    (∃ e, decodeD w f = .error e) ↔ aField w ≠ 0 := by
  by_cases ha : aField w = 0 <;> simp_all [decodeD]

theorem decodeA_eq_error_iff {f : Nat → Instr} :
    (∃ e, decodeA w f = .error e) ↔ dField w ≠ 0 := by
  by_cases hd : dField w = 0 <;> simp_all [decodeA]

theorem decodeAD_not_error {f : Nat → Word → Instr} :
    ¬ ∃ e, decodeAD w f = .error e := by
  simp [decodeAD]

end

/-! ## The word of a command -/

/-- The fields of a word are those of a well-formed command (R60, R61). -/
structure Represents (w : CmdWord) (i : Instr) : Prop where
  op : opField w = i.opcode
  a : (aField w).toNat = i.aOperand
  d : dField w = i.dOperand
  wellFormed : i.WellFormed

theorem represents_encode {i : Instr} (h : i.WellFormed) : Represents (encode i) i where
  op := opField_commandWord ..
  a := by
    have hfits : i.aOperand < 2 ^ 24 := by
      cases i <;> simp_all [Instr.WellFormed, Instr.wellFormed, Instr.aOperand]
    rw [encode, aField_commandWord, BitVec.toNat_ofNat, Nat.mod_eq_of_lt hfits]
  d := dField_commandWord ..
  wellFormed := h

theorem Represents.encode_eq {w : CmdWord} {i : Instr} (h : Represents w i) : encode i = w := by
  rw [encode, ← h.op, ← h.a, ← h.d, BitVec.ofNat_toNat, BitVec.setWidth_eq, commandWord_fields]

/-- The decoder answers with the command whose fields the word has (R63, R65). -/
theorem Represents.decode_eq {w : CmdWord} {i : Instr} (h : Represents w i) : decode w = .ok i := by
  obtain ⟨hop, ha, hd, hwf⟩ := h
  rw [decode, hop]
  cases i with
  | nop | hist | build | enc | dec | fclr =>
    exact decodeNone_eq_ok_iff.2 ⟨BitVec.eq_of_toNat_eq ha, hd, rfl⟩
  | rdrec m | rdex m =>
    refine decodeD_eq_ok_iff.2 ⟨BitVec.eq_of_toNat_eq ha, ?_⟩
    rw [hd, Instr.dOperand, BitVec.toNat_ofNat, Nat.mod_eq_of_lt (of_decide_eq_true hwf)]
  | ldCsr a | ldPlain a | ldCoded a | ldRec a | ldFreq a | ldCode a =>
    exact decodeA_eq_ok_iff.2 ⟨hd, congrArg _ ha⟩
  | stCsr a d | stPlain a d | stCoded a d | stFreq a d =>
    exact decodeAD_eq_ok_iff.2 (by rw [ha, hd]; rfl)

theorem represents_of_decode {w : CmdWord} {i : Instr} (h : decode w = .ok i) : Represents w i := by
  have hop {n : Nat} (hn : (opField w).toNat = n) : opField w = BitVec.ofNat 8 n := by
    rw [← hn, BitVec.ofNat_toNat, BitVec.setWidth_eq]
  have hd : dField w = BitVec.ofNat 32 (dField w).toNat := by
    rw [BitVec.ofNat_toNat, BitVec.setWidth_eq]
  unfold decode at h
  split at h
  case h_1 hcode | h_2 hcode | h_3 hcode | h_4 hcode | h_5 hcode | h_6 hcode =>
    obtain ⟨ha, hd, rfl⟩ := decodeNone_eq_ok_iff.1 h
    exact ⟨hop hcode, congrArg BitVec.toNat ha, hd, rfl⟩
  case h_7 hcode | h_8 hcode =>
    obtain ⟨ha, rfl⟩ := decodeD_eq_ok_iff.1 h
    exact ⟨hop hcode, congrArg BitVec.toNat ha, hd, decide_eq_true (dField w).isLt⟩
  case h_9 hcode | h_10 hcode | h_11 hcode | h_12 hcode | h_13 hcode | h_14 hcode =>
    obtain ⟨hd, rfl⟩ := decodeA_eq_ok_iff.1 h
    exact ⟨hop hcode, rfl, hd, decide_eq_true (aField w).isLt⟩
  case h_15 hcode | h_16 hcode | h_17 hcode | h_18 hcode =>
    cases decodeAD_eq_ok_iff.1 h
    exact ⟨hop hcode, rfl, rfl, decide_eq_true (aField w).isLt⟩
  case h_19 => cases h

theorem decode_eq_ok_iff {w : CmdWord} {i : Instr} : decode w = .ok i ↔ Represents w i :=
  ⟨represents_of_decode, Represents.decode_eq⟩

/-- Settles O1: the word of a well-formed command has that command's fields. -/
theorem decodeOfEncodeIsTheCommand : Obligations.DecodeOfEncodeIsTheCommand := fun _ h =>
  decode_eq_ok_iff.2 (represents_encode h)

/-- Settles O2: a legal word has the fields of its command, and a word is its three fields. -/
theorem encodeOfDecodeIsTheWord : Obligations.EncodeOfDecodeIsTheWord := fun _ _ h =>
  ⟨(decode_eq_ok_iff.1 h).wellFormed, (decode_eq_ok_iff.1 h).encode_eq⟩

/-- Settles O4: the 19 words, one by one. -/
theorem listedWordsDecode : Obligations.ListedWordsDecode := by
  unfold Obligations.ListedWordsDecode
  decide

/-! ## Illegal words (R64) -/

namespace Machine

/-- The decoder refuses the words of R64's two cases and no others. -/
theorem decode_eq_error_iff (w : CmdWord) : (∃ e, decode w = .error e) ↔ illegalWord w := by
  unfold decode
  split
  case h_1 hcode | h_2 hcode | h_3 hcode | h_4 hcode | h_5 hcode | h_6 hcode =>
    simp [decodeNone_eq_error_iff, illegalWord, hcode]
  case h_7 hcode | h_8 hcode => simp [decodeD_eq_error_iff, illegalWord, hcode]
  case h_9 hcode | h_10 hcode | h_11 hcode | h_12 hcode | h_13 hcode | h_14 hcode =>
    simp [decodeA_eq_error_iff, illegalWord, hcode]
  case h_15 hcode | h_16 hcode | h_17 hcode | h_18 hcode =>
    simp [decodeAD_not_error, illegalWord, hcode]
  case h_19 =>
    refine iff_of_true ⟨_, rfl⟩ (.inl ?_)
    simp only [List.mem_cons, List.not_mem_nil, or_false]
    tauto

/-- No word of `ST.PLAIN` or `ST.CODED` is illegal: they use both fields (R64). -/
theorem not_illegalWord_of_byte_store {i : Instr} (h : i.opcode = 0x31 ∨ i.opcode = 0x32) :
    ¬ illegalWord (encode i) := by
  rw [illegalWord, encode, opField_commandWord]
  rcases h with h | h <;> simp [h]

end Machine

end Sys2Proof

/-! # Host access (45_host_access.md): `LD` of registers, bytes and frequencies, `ST` -/

namespace Sys2Proof.Machine

open Config (ByteSpace)

/-! ## What a load answers -/

theorem loadElement_of_some {v : Option Word} {w : Word} (h : v = some w) (s : State) :
    loadElement v s = respond .ok w s := by
  rw [h, loadElement]

theorem loadElement_of_none {v : Option Word} (h : v = none) (s : State) :
    loadElement v s = respond .badAddr 0 s := by
  rw [h, loadElement, raiseAccess_eq]

/-! ## `CSR` (R24) -/

/-- No register exists from index 12 on (R24). -/
theorem csrRead?_of_le {a : Nat} (h : 12 ≤ a) (s : State) : csrRead? s a = none := by
  rw [← Option.not_isSome_iff_eq_none, csrRead?_isSome]
  omega

/-- The bits of `STATUS` (R24). -/
theorem getLsbD_statusWord (s : State) {j : Nat} (hj : j < 32) :
    (statusWord s).getLsbD j =
      if j = 0 then s.tv else if j = 1 then s.sl
      else if 8 ≤ j ∧ j < 16 then s.last.byte.getLsbD (j - 8) else false := by
  simp only [statusWord, BitVec.getLsbD_append]
  interval_cases j <;> simp [flagBit]

/-- Settles O55: the registers one by one; from index 12 on there is none. -/
theorem ldCsrReadsEveryRegister : Obligations.LdCsrReadsEveryRegister := by
  intro s
  refine ⟨⟨statusWord s, rfl, fun j => getLsbD_statusWord s⟩, rfl, rfl, rfl, rfl, rfl, rfl, rfl,
    rfl, rfl, rfl, rfl, fun a ha => ?_⟩
  exact congrArg _ (loadElement_of_none (csrRead?_of_le ha s) s)

/-! ## The byte spaces -/

theorem byteElement_inside {sp : ByteSpace} {a : Nat} {s : State}
    (h : a < byteSpaceSize s.params sp) :
    byteElement sp a s = some (zextByte (readByte s sp 0 a)) := if_pos h

theorem byteElement_outside {sp : ByteSpace} {a : Nat} {s : State}
    (h : byteSpaceSize s.params sp ≤ a) : byteElement sp a s = none := if_neg (Nat.not_lt.2 h)

/-- A load inside a byte space answers with the stored byte, or with some byte (R125, R126). -/
theorem loadElement_byte_inside {sp : ByteSpace} {a : Nat} {s : State}
    (h : a < byteSpaceSize s.params sp) :
    ∃ b : Byte, loadElement (byteElement sp a s) s = respond .ok (b.setWidth 32) s ∧
      ∀ c, (s.bytes sp).read? a = some c → b = c :=
  ⟨readByte s sp 0 a, loadElement_of_some (byteElement_inside h) s, fun _ => readByte_of_read? 0⟩

theorem loadElement_byte_outside {sp : ByteSpace} {a : Nat} {s : State}
    (h : byteSpaceSize s.params sp ≤ a) :
    loadElement (byteElement sp a s) s = respond .badAddr 0 s :=
  loadElement_of_none (byteElement_outside h) s

/-- Settles O56: the three spaces are loaded alike. -/
theorem ldOfByteSpaces : Obligations.LdOfByteSpaces := by
  intro s a
  have inside (sp : ByteSpace) (h : a < byteSpaceSize s.params sp) :
      ∃ b : Byte, Host.Outcome.next (loadElement (byteElement sp a s) s) =
          (.next { s with resp := some ⟨.ok, b.setWidth 32⟩ } : Result) ∧
        ∀ c, (s.bytes sp).read? a = some c → b = c := by
    obtain ⟨b, hb, hc⟩ := loadElement_byte_inside h
    exact ⟨b, congrArg _ hb, hc⟩
  have outside (sp : ByteSpace) (h : byteSpaceSize s.params sp ≤ a) :
      Host.Outcome.next (loadElement (byteElement sp a s) s) =
        (.next { s with resp := some ⟨.badAddr, 0⟩ } : Result) :=
    congrArg _ (loadElement_byte_outside h)
  exact ⟨inside .plain, outside .plain, inside .coded, outside .coded, inside .record,
    outside .record⟩

/-! ## The byte datum (R61, R129) -/

theorem toNat_datum_high (d : Word) : (d.extractLsb' 8 24).toNat = d.toNat / 256 := by
  have hd := d.isLt
  rw [BitVec.extractLsb'_toNat, Nat.shiftRight_eq_div_pow, Nat.mod_eq_of_lt (by omega)]

theorem byteDatum_of_lt {d : Word} (h : d.toNat < 256) : byteDatum d = some (d.setWidth 8) := by
  have hzero : d.extractLsb' 8 24 = 0 := by
    apply BitVec.eq_of_toNat_eq
    rw [toNat_datum_high, Nat.div_eq_of_lt h]
    rfl
  have hlow : d.extractLsb' 0 8 = d.setWidth 8 := by
    ext i hi
    simp
  rw [byteDatum, if_pos hzero, hlow]

theorem byteDatum_of_le {d : Word} (h : 256 ≤ d.toNat) : byteDatum d = none := by
  refine if_neg fun hzero => ?_
  have := congrArg BitVec.toNat hzero
  rw [toNat_datum_high] at this
  simp only [BitVec.ofNat_eq_ofNat, BitVec.toNat_ofNat, Nat.zero_mod] at this
  omega

/-- A datum below 256 is the zero-extension of its byte. -/
theorem setWidth_setWidth_of_lt {d : Word} (h : d.toNat < 256) :
    (d.setWidth 8).setWidth 32 = d := by
  apply BitVec.eq_of_toNat_eq
  rw [BitVec.toNat_setWidth, BitVec.toNat_setWidth]
  omega

/-! ## `ST` of the byte spaces (R129, R130) -/

section
variable {s : State} {a : Nat} {d : Word}

theorem exec_stPlain_outside (h : byteSpaceSize s.params .plain ≤ a) :
    exec (.stPlain a d) s = .next (respond .badAddr 0 s) := if_pos h

theorem exec_stCoded_outside (h : byteSpaceSize s.params .coded ≤ a) :
    exec (.stCoded a d) s = .next (respond .badAddr 0 s) := if_pos h

theorem exec_stPlain_wide (h : a < byteSpaceSize s.params .plain) (hd : 256 ≤ d.toNat) :
    exec (.stPlain a d) s = .next (respond .badArg 0 s) := by
  change execStPlain a d s = _
  rw [execStPlain, if_neg (Nat.not_le.2 h), byteDatum_of_le hd, raiseAccess_eq]

theorem exec_stCoded_wide (h : a < byteSpaceSize s.params .coded) (hd : 256 ≤ d.toNat) :
    exec (.stCoded a d) s = .next (respond .badArg 0 s) := by
  change execStCoded a d s = _
  rw [execStCoded, if_neg (Nat.not_le.2 h), byteDatum_of_le hd, raiseAccess_eq]

theorem exec_stPlain_byte (h : a < byteSpaceSize s.params .plain) (hd : d.toNat < 256) :
    exec (.stPlain a d) s =
      .next (respond .ok 0 { s with plain := s.plain.write a (d.setWidth 8) }) := by
  change execStPlain a d s = _
  rw [execStPlain, if_neg (Nat.not_le.2 h), byteDatum_of_lt hd]

theorem exec_stCoded_byte (h : a < byteSpaceSize s.params .coded) (hd : d.toNat < 256) :
    exec (.stCoded a d) s =
      .next (respond .ok 0 { s with coded := s.coded.write a (d.setWidth 8) }) := by
  change execStCoded a d s = _
  rw [execStCoded, if_neg (Nat.not_le.2 h), byteDatum_of_lt hd]

/-- A load of a stored byte returns it (R48). -/
theorem loadElement_byte_stored {sp : ByteSpace} (h : a < byteSpaceSize s.params sp)
    (hd : d.toNat < 256) (hread : (s.bytes sp).read? a = some (d.setWidth 8)) :
    loadElement (byteElement sp a s) s = respond .ok d s := by
  obtain ⟨b, hload, hb⟩ := loadElement_byte_inside h
  rw [hload, hb _ hread, setWidth_setWidth_of_lt hd]

end

theorem Memory.read?_write_same (m : Memory) (a : Nat) (b : Byte) :
    (m.write a b).read? a = some b := by
  rw [Memory.read?_write, if_pos rfl]

/-- Settles O60: the address is looked at before the datum, and one byte is written. -/
theorem stOfByteSpaces : Obligations.StOfByteSpaces := by
  intro s a d
  refine ⟨fun ha hd => ?_, exec_stPlain_outside, exec_stPlain_wide, fun ha hd => ?_,
    exec_stCoded_outside, exec_stCoded_wide⟩
  · refine ⟨_, exec_stPlain_byte ha hd, Memory.read?_write s.plain a _, ?_⟩
    exact congrArg _ (loadElement_byte_stored (sp := .plain)
      (s := { s with plain := s.plain.write a (d.setWidth 8), resp := some ⟨.ok, 0⟩ }) ha hd
      (Memory.read?_write_same ..))
  · refine ⟨_, exec_stCoded_byte ha hd, Memory.read?_write s.coded a _, ?_⟩
    exact congrArg _ (loadElement_byte_stored (sp := .coded)
      (s := { s with coded := s.coded.write a (d.setWidth 8), resp := some ⟨.ok, 0⟩ }) ha hd
      (Memory.read?_write_same ..))

/-! ## `FREQ` (R31) -/

theorem freqElement_symbol (s : State) (sym : Byte) :
    freqElement sym.toNat s = some (s.freqOf sym) := by
  rw [freqElement, if_pos sym.isLt, BitVec.ofNat_toNat, BitVec.setWidth_eq]

theorem freqElement_outside {a : Nat} (h : 256 ≤ a) (s : State) : freqElement a s = none :=
  if_neg (Nat.not_lt.2 h)

theorem exec_stFreq_symbol (s : State) (sym : Byte) (d : Word) :
    exec (.stFreq sym.toNat d) s =
      .next (respond .ok 0 { s with freq := s.freq.set sym.toNat d sym.isLt }) :=
  dif_pos sym.isLt

theorem exec_stFreq_outside {a : Nat} (h : 256 ≤ a) (d : Word) (s : State) :
    exec (.stFreq a d) s = .next (respond .badAddr 0 s) := dif_neg (Nat.not_lt.2 h)

/-- Settles O58: an address below 256 is a symbol, and a store sets that symbol's entry. -/
theorem freqSpaceAccess : Obligations.FreqSpaceAccess := by
  refine ⟨fun s sym d => ⟨?load, _, exec_stFreq_symbol s sym d, fun sym' => ?entry⟩,
    fun s a d ha => ⟨?outside, exec_stFreq_outside ha d s⟩⟩
  case load => exact congrArg _ (loadElement_of_some (freqElement_symbol s sym) s)
  case entry => simp only [getElem_set_symbol, eq_comm (a := sym), State.freqOf]
  case outside => exact congrArg _ (loadElement_of_none (freqElement_outside ha s) s)

/-! ## `ST.CSR` (R129, R130) -/

theorem exec_stCsr_other {a : Nat} (h1 : a ≠ 1) (h2 : a ≠ 2) (h4 : a ≠ 4) (d : Word) (s : State) :
    exec (.stCsr a d) s = .next (respond .badAddr 0 s) := by
  change execStCsr a d s = _
  unfold execStCsr
  split
  · exact absurd rfl h1
  · exact absurd rfl h2
  · exact absurd rfl h4
  · rfl

/-- Settles O59: the three writable registers, then every other index. -/
theorem stCsrWritesThreeRegisters : Obligations.StCsrWritesThreeRegisters := by
  intro s d
  exact ⟨fun h => if_neg (Nat.not_lt.2 h), fun h => if_pos h, fun h => if_neg (Nat.not_lt.2 h),
    fun h => if_pos h, rfl, fun a h1 h2 h4 => exec_stCsr_other h1 h2 h4 d s⟩

end Sys2Proof.Machine

/-! # The Framer (44_framer.md): `RDREC`, `RDEX` and what each channel answer does to them -/

namespace Sys2Proof.Machine

@[simp] theorem Memory.writePrefix_nil (m : Memory) : m.writePrefix [] = m := by
  simp [Memory.writePrefix, cellsFrom]

/-! ## One pass of `RDREC`'s loop, by what `FB` holds (R109) -/

section
variable {s : State} {m : Nat}

theorem scanRecord_of_line {line rest : List Byte} (hfb : s.fb = line ++ terminator :: rest)
    (hno : terminator ∉ line) (hm : line.length < m) :
    scanRecord m s = deliverRecord .ok (line ++ [terminator]) rest s := by
  have hline : ∀ b ∈ line, (b == terminator) = false := fun b hb =>
    beq_false_of_ne (ne_of_mem_of_not_mem hb hno)
  obtain ⟨k, rfl⟩ : ∃ k, m = line.length + (k + 1) := ⟨m - line.length - 1, by omega⟩
  have hfind : (s.fb.take (line.length + (k + 1))).findIdx? (· == terminator) =
      some line.length := by
    rw [hfb, List.take_length_add_append, List.take_succ_cons, List.findIdx?_append,
      List.findIdx?_eq_none_iff.2 hline]
    simp [List.findIdx?_cons]
  simp only [scanRecord, hfind]
  rw [hfb, List.take_length_add_append, List.drop_length_add_append]
  rfl

theorem scanRecord_of_full (hno : terminator ∉ s.fb.take m) (hm : m ≤ s.fb.length) :
    scanRecord m s = deliverRecord .noTerm (s.fb.take m) (s.fb.drop m) s := by
  rcases scanRecord_cases m s with ⟨i, hi, -, hget, -, -⟩ | ⟨-, -, h⟩ | ⟨-, hlt, -⟩
  · exact absurd (List.mem_of_getElem? ((List.getElem?_take_of_lt hi).trans hget)) hno
  · exact h
  · omega

theorem scanRecord_of_short (hno : terminator ∉ s.fb) (hm : s.fb.length < m) :
    scanRecord m s = openPull (.rdrec m) s := by
  rcases scanRecord_cases m s with ⟨i, -, -, hget, -, -⟩ | ⟨-, hle, -⟩ | ⟨-, -, h⟩
  · exact absurd (List.mem_of_getElem? hget) hno
  · omega
  · exact h

/-- `RDREC` pulls only where `FB` is shorter than `max_len` and holds no terminator (R109). -/
theorem scanRecord_flight_of_not_short (h : ¬ (s.fb.length < m ∧ terminator ∉ s.fb)) :
    (scanRecord m s).flight = none := by
  rcases scanRecord_cases m s with ⟨_, -, -, -, -, hs⟩ | ⟨-, -, hs⟩ | ⟨hno, hlt, -⟩
  · rw [hs, deliverRecord_flight]
  · rw [hs, deliverRecord_flight]
  · exact absurd ⟨hlt, hno⟩ h

theorem exec_rdrec (h : m ≤ s.params.fbCap) : exec (.rdrec m) s = .next (scanRecord m s) :=
  if_neg (Nat.not_lt.2 h)

theorem exec_rdrec_badArg (h : s.params.fbCap < m) :
    exec (.rdrec m) s = .next (finish .badArg 0 s) := if_pos h

/-! ## One pass of `RDEX`'s loop (R118) -/

variable {n : Nat} {out : List Byte}

theorem scanExact_of_le (h : n ≤ out.length) : scanExact n out s = deliverExact .ok out s :=
  if_pos h

theorem scanExact_of_lt (h : out.length < n) : scanExact n out s = openPull (.rdex n out) s :=
  if_neg (Nat.not_le.2 h)

theorem exec_rdex (h : n ≤ s.params.codedCap) :
    exec (.rdex n) s = .next (scanExact n (s.fb.take n) { s with fb := s.fb.drop n }) :=
  if_neg (Nat.not_lt.2 h)

theorem exec_rdex_badArg (h : s.params.codedCap < n) :
    exec (.rdex n) s = .next (finish .badArg 0 s) := if_pos h

end

/-- Settles O47: the operand bound comes first. -/
theorem framerOperandBounds : Obligations.FramerOperandBounds :=
  ⟨fun _ _ => exec_rdrec_badArg, fun _ _ => exec_rdex_badArg⟩

/-- Settles O44: the line's end is the first terminator, and it lies within `max_len` bytes. -/
theorem rdrecDeliversTheRecord : Obligations.RdrecDeliversTheRecord := by
  intro s m line rest hm hfb hno hlen
  have hsame := Memory.sameFrom_writePrefix s.record (line ++ [terminator])
  have hlength : (line ++ [terminator]).length = line.length + 1 := by simp
  rw [hlength] at hsame
  refine ⟨s.record.writePrefix (line ++ [terminator]), ?_, Memory.holds_writePrefix _ _, hsame⟩
  rw [exec_rdrec hm, scanRecord_of_line hfb hno hlen, deliverRecord, hlength]
  rfl

/-- Settles O45: the first `max_len` bytes are delivered where none of them is a terminator. -/
theorem rdrecWithoutTerminator : Obligations.RdrecWithoutTerminator := by
  rintro s m out rest hm hfb rfl hno
  have htake : s.fb.take out.length = out := by rw [hfb, List.take_left]
  have hdrop : s.fb.drop out.length = rest := by rw [hfb, List.drop_left]
  refine ⟨s.record.writePrefix out, ?_, Memory.holds_writePrefix _ _,
    Memory.sameFrom_writePrefix _ _⟩
  rw [exec_rdrec hm, scanRecord_of_full (by rwa [htake]) (by simp [hfb]), htake, hdrop]
  rfl

/-- Settles O49: `FB` has the `n` bytes, so the first pass delivers them. -/
theorem rdexServedFromTheFrameBuffer : Obligations.RdexServedFromTheFrameBuffer := by
  rintro s n out rest hn hfb rfl
  have htake : s.fb.take out.length = out := by rw [hfb, List.take_left]
  have hdrop : s.fb.drop out.length = rest := by rw [hfb, List.drop_left]
  refine ⟨s.coded.writePrefix out, ?_, Memory.holds_writePrefix _ _,
    Memory.sameFrom_writePrefix _ _⟩
  rw [exec_rdex hn, htake, hdrop, scanExact_of_le le_rfl]
  rfl

/-- Settles O46: each command pulls in exactly one case of its first pass. -/
theorem pullsStartOnlyWhenNeeded : Obligations.PullsStartOnlyWhenNeeded := by
  refine ⟨fun s m hm => ⟨?recordPulls, ?recordEnds⟩, fun s n hn => ⟨?exactPulls, ?exactEnds⟩⟩
  case recordPulls =>
    rintro ⟨hlt, hno⟩
    exact ⟨(exec_rdrec hm).trans (congrArg _ (scanRecord_of_short hno hlt)), rfl⟩
  case recordEnds => exact fun h => ⟨_, exec_rdrec hm, scanRecord_flight_of_not_short h⟩
  case exactPulls =>
    intro hlt
    refine ⟨?_, rfl⟩
    rw [exec_rdex hn, List.take_of_length_le hlt.le, List.drop_of_length_le hlt.le,
      scanExact_of_lt hlt]
    rfl
  case exactEnds =>
    intro hle
    refine ⟨_, exec_rdex hn, ?_⟩
    rw [scanExact_of_le (by rw [List.length_take]; omega), deliverExact_flight]

/-! ## Channel answers (R20, R109, R118) -/

/-- A delivery of no byte leaves `REC` as it is (R109, R113). -/
theorem deliverRecord_nothing (st : Status) (fb : List Byte) (s : State) :
    deliverRecord st [] fb s = finish st 0 { s with rlen := 0, fb := fb, flight := none } := by
  rw [deliverRecord, Memory.writePrefix_nil]
  rfl

section
variable {f : Flight} {s : State} {ans : ChanAnswer} {rest : List ChanAnswer}

/-- An answer within the protocol is taken (R20, R105). -/
theorem step_of_legal_answer (hr : s.resetIn = false) (hf : s.flight = some f)
    (hc : s.chan = ans :: rest) (hlegal : answerLegal (pullSize s f) ans = true) :
    step s = .next (answerFlight f ans (takeAnswer rest s)) :=
  (step_of_answer hr hf hc).trans (if_pos hlegal)

/-- A chunk that is empty or longer than the request is refused by name (93 U5). -/
theorem step_of_illegal_chunk {c : List Byte} (hr : s.resetIn = false) (hf : s.flight = some f)
    (hc : s.chan = .data c :: rest) (hillegal : ¬ (1 ≤ c.length ∧ c.length ≤ pullSize s f)) :
    step s = .refused .channelProtocol :=
  (step_of_answer hr hf hc).trans (if_neg (mt answerLegal_data.1 hillegal))

end

/-- Settles O48: the answers one by one; a chunk makes `RDREC` scan again. -/
theorem channelAnswersToRdrec : Obligations.ChannelAnswersToRdrec := by
  intro s m ans rest hr hf hc hm
  refine ⟨?closedEmpty, ?closedHeld, ?error, ?chunk, ?refused⟩
  case closedEmpty =>
    rintro rfl hfb
    have hend : deliverRecord .closed [] [] (takeAnswer rest s) =
        deliverRecord .closed [] s.fb (takeAnswer rest s) := by rw [hfb]
    rw [step_of_legal_answer hr hf hc rfl, answerFlight, answerRecord, takeAnswer_fb, if_pos hfb,
      hend, deliverRecord_nothing]
    rfl
  case closedHeld =>
    rintro rfl hfb
    refine ⟨s.record.writePrefix s.fb, ?_, Memory.holds_writePrefix _ _,
      Memory.sameFrom_writePrefix _ _⟩
    rw [step_of_legal_answer hr hf hc rfl, answerFlight, answerRecord, takeAnswer_fb, if_neg hfb]
    rfl
  case error =>
    rintro rfl
    rw [step_of_legal_answer hr hf hc rfl, answerFlight, answerRecord, deliverRecord_nothing]
    rfl
  case chunk =>
    rintro c rfl hpos hle
    rw [step_of_legal_answer hr hf hc (answerLegal_data.2 ⟨hpos, hle⟩)]
    exact (exec_rdrec (s := { s with chan := rest, tick := s.tick + 1, fb := s.fb ++ c }) hm).symm
  case refused =>
    rintro c rfl hillegal
    exact step_of_illegal_chunk hr hf hc hillegal

/-- Settles O50: the answers one by one; a chunk completes the delivery or leaves bytes missing. -/
theorem channelAnswersToRdex : Obligations.ChannelAnswersToRdex := by
  intro s n out ans rest hr hf hc hlt
  refine ⟨?ended, ?chunk, ?refused⟩
  case ended =>
    rintro st hst
    refine ⟨s.coded.writePrefix out, ?_, Memory.holds_writePrefix _ _,
      Memory.sameFrom_writePrefix _ _⟩
    rcases hst with ⟨rfl, rfl⟩ | ⟨rfl, rfl⟩
    · exact step_of_legal_answer hr hf hc rfl
    · exact step_of_legal_answer hr hf hc rfl
  case chunk =>
    rintro c rfl hpos hle
    have hstep := step_of_legal_answer hr hf hc (answerLegal_data.2 ⟨hpos, hle⟩)
    have hlength : (out ++ c).length = out.length + c.length := List.length_append
    refine ⟨fun hmissing => ?_, fun hwhole => ?_⟩
    · rw [hstep, answerFlight, answerExact, scanExact_of_lt (by omega)]
      rfl
    · have hn : (out ++ c).length = n := by omega
      refine ⟨s.coded.writePrefix (out ++ c), ?_, Memory.holds_writePrefix _ _,
        hn ▸ Memory.sameFrom_writePrefix _ _⟩
      rw [hstep, answerFlight, answerExact, scanExact_of_le hn.ge, deliverExact, hn]
      rfl
  case refused =>
    rintro c rfl hillegal
    exact step_of_illegal_chunk hr hf hc hillegal

/-! ## The request size (R20) -/

/-- Settles O51: what the invariant says that a command in flight waits for is missing. -/
theorem pullRequestsAreInBounds : Obligations.PullRequestsAreInBounds := by
  intro s f hinv hf
  have hwaits := hinv.flight_waits f hf
  obtain ⟨-, -, hfbCap, -⟩ := s.params.bounds
  cases f with
  | rdrec m =>
    obtain ⟨hm, hlt, -⟩ := hwaits
    simp only [pullSize]
    omega
  | rdex n out =>
    obtain ⟨-, hlt, -⟩ := hwaits
    simp only [pullSize]
    omega

end Sys2Proof.Machine

/-! # The Code Table Builder (41_builder.md): `BUILD` after `HIST`, the queue order, built trees -/

namespace Sys2Proof.Machine

/-! ## `HIST`, then `BUILD` (R71, R79, R82) -/

theorem exec_hist (s : State) :
    exec .hist s = .next (finish .ok s.plen
      { s with freq := histogram (readPrefix s .plain 0 s.plen.toNat), count := s.plen }) := rfl

theorem exec_build_of_wrong_count {s : State} (h : freqSum s ≠ s.count.toNat) :
    exec .build s = .next (finish .badFreq 0 (discardTree s)) := by
  rw [exec_build, execBuild, if_pos h, raiseUnit_eq]

theorem exec_build_of_no_symbol {s : State} (hsum : freqSum s = s.count.toNat)
    (hq : seedQueue s = []) : exec .build s = .next (finish .ok 0 (discardTree s)) := by
  rw [exec_build, execBuild, if_neg (not_not.2 hsum), hq]

theorem exec_build_of_symbols {s : State} {x : CodeNode} {q : List CodeNode}
    (hsum : freqSum s = s.count.toNat) (hq : seedQueue s = x :: q) :
    exec .build s = .next (buildFrom x q (discardTree s)) := by
  rw [exec_build, execBuild, if_neg (not_not.2 hsum), hq]

/-- `BUILD` answers `OK` where the frequencies add up to `COUNT` (R73, R79). -/
theorem exec_build_ok {s : State} (h : freqSum s = s.count.toNat) :
    ∃ t v, exec .build s = .next t ∧ t.resp = some ⟨.ok, v⟩ := by
  rcases execBuild_cases s with ⟨hne, -⟩ | ⟨-, -, hb⟩ | ⟨-, x, q, -, hb⟩
  · exact absurd h hne
  · exact ⟨_, _, hb, rfl⟩
  · exact ⟨_, _, hb, rfl⟩

/-- Settles O19: the sum check comes before anything is built. -/
theorem buildRejectsWrongCount : Obligations.BuildRejectsWrongCount := fun _ =>
  exec_build_of_wrong_count

/-- Settles O18: `HIST` counts `PLEN` bytes, and the counts of a sequence add up to its length. -/
theorem buildAfterHistSucceeds : Obligations.BuildAfterHistSucceeds := by
  intro s t u ht hu
  cases (exec_hist s).symm.trans ht
  have hlength : (readPrefix s .plain 0 s.plen.toNat).length = s.plen.toNat := length_readPrefix ..
  have hword : (readPrefix s .plain 0 s.plen.toNat).length < 2 ^ 32 :=
    hlength.trans_lt s.plen.isLt
  have hsum := (freqSum_of_histogram (s := finish .ok s.plen
    { s with freq := histogram (readPrefix s .plain 0 s.plen.toNat), count := s.plen })
    rfl hword).trans hlength
  refine ⟨hsum, rfl, fun hplen sym => ?_, ?_⟩
  · apply BitVec.eq_of_toNat_eq
    rw [toNat_freqOf_of_histogram rfl hword, hplen]
    rfl
  · obtain ⟨u', v, hu', hresp⟩ := exec_build_ok hsum
    cases hu.symm.trans hu'
    exact ⟨v, hresp⟩

/-- Settles O27: `BUILD` makes all that it writes from `FREQ` and `COUNT`, which it leaves alone. -/
theorem buildTwiceIsBuildOnce : Obligations.BuildTwiceIsBuildOnce := by
  intro s t ht
  rcases execBuild_cases s with ⟨hsum, hb⟩ | ⟨hsum, hq, hb⟩ | ⟨hsum, x, q, hq, hb⟩
  · cases hb.symm.trans ht
    exact exec_build_of_wrong_count (s := finish .badFreq 0 (discardTree s)) hsum
  · cases hb.symm.trans ht
    exact exec_build_of_no_symbol (s := finish .ok 0 (discardTree s)) hsum hq
  · cases hb.symm.trans ht
    exact exec_build_of_symbols (s := buildFrom x q (discardTree s)) hsum hq

/-! ## The queue order (R75) -/

theorem CodeNode.absTag_eq_tieKey (x : CodeNode) : x.absTag = x.tieKey := by
  cases x with
  | leaf sym w => exact congrArg Int.natAbs (toInt_zextByte sym)
  | internal t w l r => rfl

theorem nodeBefore_iff (x y : CodeNode) : nodeBefore x y = true ↔ x.precedes y := by
  simp only [nodeBefore, CodeNode.precedes, CodeNode.absTag_eq_tieKey, Bool.or_eq_true,
    Bool.and_eq_true, decide_eq_true_eq, BitVec.toNat_inj]

theorem CodeNode.not_precedes_self (x : CodeNode) : ¬ x.precedes x := by
  unfold CodeNode.precedes
  omega

theorem CodeNode.not_precedes_trans {x y z : CodeNode} (hxy : ¬ x.precedes y)
    (hyz : ¬ y.precedes z) : ¬ x.precedes z := by
  unfold CodeNode.precedes at *
  omega

theorem CodeNode.precedes_asymm {x y : CodeNode} (h : x.precedes y) : ¬ y.precedes x := by
  unfold CodeNode.precedes at *
  omega

/-- Nodes with different tie-breaking keys are strictly ordered (R75). -/
theorem CodeNode.precedes_of_not_precedes {x y : CodeNode} (h : ¬ y.precedes x)
    (hkey : x.tieKey ≠ y.tieKey) : x.precedes y := by
  unfold CodeNode.precedes at *
  omega

/-- `PopMin` leaves no node that comes before the one it removes (R75). -/
theorem popMin_least (x : CodeNode) (xs : List CodeNode) :
    ∀ y ∈ x :: xs, ¬ y.precedes (popMin x xs).1 := by
  induction xs generalizing x with
  | nil =>
    intro y hy
    cases List.mem_singleton.1 hy
    exact x.not_precedes_self
  | cons z zs ih =>
    intro y hy
    rw [popMin]
    split
    · next hz =>
      have hzleast := ih z z (List.mem_cons_self ..)
      rcases List.mem_cons.1 hy with rfl | hy
      · have hz' : ¬ y.precedes z := CodeNode.precedes_asymm ((nodeBefore_iff ..).1 hz)
        exact CodeNode.not_precedes_trans hz' hzleast
      · exact ih z y hy
    · next hz =>
      have hxleast := ih x x (List.mem_cons_self ..)
      have hz' : ¬ z.precedes x := mt (nodeBefore_iff ..).2 hz
      rcases List.mem_cons.1 hy with rfl | hy
      · exact hxleast
      · rcases List.mem_cons.1 hy with rfl | hy
        · exact CodeNode.not_precedes_trans hz' hxleast
        · exact ih x y (List.mem_cons_of_mem _ hy)

theorem mem_popMin_rest {x z : CodeNode} {xs : List CodeNode} (h : z ∈ (popMin x xs).2) :
    z ∈ x :: xs := (popMin_perm x xs).mem_iff.1 (List.mem_cons_of_mem _ h)

/-- One combining step, with the order of the nodes it pops (R75, R76). -/
theorem combineTwo_least (k : Nat) (x y : CodeNode) (ys : List CodeNode) :
    ∃ a b rest, combineTwo k x y ys = (.internal (itag k) (a.weight + b.weight) a b, rest) ∧
      (a :: b :: rest).Perm (x :: y :: ys) ∧ (∀ z ∈ b :: rest, ¬ z.precedes a) ∧
      ∀ z ∈ rest, ¬ z.precedes b := by
  have hperm := popMin_perm x (y :: ys)
  have hleast := popMin_least x (y :: ys)
  have hlength := length_popMin x (y :: ys)
  unfold combineTwo
  cases hpop : popMin x (y :: ys) with
  | mk a others =>
    rw [hpop] at hperm hleast hlength
    cases others with
    | nil => cases hlength
    | cons z zs =>
      have hperm' := (popMin_perm z zs).cons a |>.trans hperm
      refine ⟨a, (popMin z zs).1, (popMin z zs).2, rfl, hperm', fun w hw => ?_, fun w hw => ?_⟩
      · exact hleast w (hperm'.mem_iff.1 (List.mem_cons_of_mem _ hw))
      · exact popMin_least z zs w (mem_popMin_rest hw)

/-- Settles O26: the order of R75 is total up to equal keys, so the least node found so far stays
least. -/
theorem popMinRemovesTheLeastNode : Obligations.PopMinRemovesTheLeastNode := by
  refine ⟨nodeBefore_iff, fun x xs m rest hpop => ?_, fun k x y ys node rest hcombine => ?_⟩
  · have hperm := popMin_perm x xs
    have hleast := popMin_least x xs
    rw [hpop] at hperm hleast
    exact ⟨hperm, fun y hy => hleast y (hperm.mem_iff.1 (List.mem_cons_of_mem _ hy))⟩
  · obtain ⟨a, b, rest', h, hperm, ha, hb⟩ := combineTwo_least k x y ys
    cases h.symm.trans hcombine
    refine ⟨_, _, a, b, rfl, hperm, ha b (List.mem_cons_self ..),
      fun z hz => ⟨ha z (List.mem_cons_of_mem _ hz), hb z hz⟩, toInt_itag, fun hlt => ?_⟩
    rw [BitVec.toNat_add, Nat.mod_eq_of_lt hlt]

/-! ## The combining loop, as R76 writes it -/

/-- What the nodes of the queue satisfy when `k` internal nodes are made: no tie-breaking key occurs
twice, none reaches that of the next internal node, and no sum of weights wraps (R14, R75, R76). -/
structure QueueReady (k : Nat) (q : List CodeNode) : Prop where
  keys_nodup : (q.map CodeNode.tieKey).Nodup
  keys_lt : ∀ x ∈ q, x.tieKey < 256 + k
  weights_lt : (q.map fun x => x.weight.toNat).sum < 2 ^ 32

theorem QueueReady.perm {k : Nat} {q q' : List CodeNode} (hq : q.Perm q') (h : QueueReady k q) :
    QueueReady k q' where
  keys_nodup := (hq.map _).nodup_iff.1 h.keys_nodup
  keys_lt x hx := h.keys_lt x (hq.mem_iff.2 hx)
  weights_lt := (hq.map fun x => x.weight.toNat).sum_eq ▸ h.weights_lt

theorem tieKey_itag {k : Nat} (hk : k < 255) (w : Word) (l r : CodeNode) :
    (CodeNode.internal (itag k) w l r).tieKey = 256 + k := by
  rw [CodeNode.tieKey, toInt_itag hk]
  omega

section
variable {k : Nat} {a b : CodeNode} {rest : List CodeNode}

/-- The weights of two nodes of the queue are added without a wrap (R14). -/
theorem QueueReady.toNat_add_weight (h : QueueReady k (a :: b :: rest)) :
    (a.weight + b.weight).toNat = a.weight.toNat + b.weight.toNat := by
  have hlt := h.weights_lt
  simp only [List.map_cons, List.sum_cons] at hlt
  rw [BitVec.toNat_add, Nat.mod_eq_of_lt (by omega)]

/-- A combining step makes a queue ready for the next one. -/
theorem QueueReady.combine (h : QueueReady k (a :: b :: rest)) (hk : k < 255) :
    QueueReady (k + 1) (.internal (itag k) (a.weight + b.weight) a b :: rest) where
  keys_nodup := by
    have hnodup := h.keys_nodup
    simp only [List.map_cons, List.nodup_cons] at hnodup
    obtain ⟨-, -, hrest⟩ := hnodup
    rw [List.map_cons, List.nodup_cons, tieKey_itag hk]
    refine ⟨fun hmem => ?_, hrest⟩
    obtain ⟨z, hz, hkey⟩ := List.mem_map.1 hmem
    have := h.keys_lt z (by simp [hz])
    omega
  keys_lt x hx := by
    rcases List.mem_cons.1 hx with rfl | hx
    · rw [tieKey_itag hk]
      omega
    · have := h.keys_lt x (by simp [hx])
      omega
  weights_lt := by
    have hlt := h.weights_lt
    simp only [List.map_cons, List.sum_cons] at hlt
    have hsum : (CodeNode.internal (itag k) (a.weight + b.weight) a b).weight.toNat =
        a.weight.toNat + b.weight.toNat := h.toNat_add_weight
    rw [List.map_cons, List.sum_cons, hsum]
    omega

end

/-- Where no key occurs twice, a node that none comes before comes before all others (R75). -/
theorem QueueReady.precedes_rest {k : Nat} {a : CodeNode} {q : List CodeNode}
    (h : QueueReady k (a :: q)) (hleast : ∀ z ∈ q, ¬ z.precedes a) : ∀ z ∈ q, a.precedes z := by
  intro z hz
  have hnodup := h.keys_nodup
  rw [List.map_cons, List.nodup_cons] at hnodup
  refine CodeNode.precedes_of_not_precedes (hleast z hz) fun hkey => hnodup.1 ?_
  exact hkey ▸ List.mem_map_of_mem hz

theorem QueueReady.tail {k : Nat} {a : CodeNode} {q : List CodeNode} (h : QueueReady k (a :: q)) :
    QueueReady k q where
  keys_nodup := (List.nodup_cons.1 h.keys_nodup).2
  keys_lt x hx := h.keys_lt x (List.mem_cons_of_mem _ hx)
  weights_lt := by
    have hlt := h.weights_lt
    rw [List.map_cons, List.sum_cons] at hlt
    omega

/-- The loop combines as R76 says. -/
theorem combined_combineAll {fuel k : Nat} {x : CodeNode} {q : List CodeNode}
    (hfuel : q.length ≤ fuel) (hk : k + q.length ≤ 255) (hready : QueueReady k (x :: q)) :
    Combined k (x :: q) (combineAll fuel k x q) := by
  induction fuel generalizing k x q with
  | zero =>
    cases List.length_eq_zero_iff.1 (Nat.le_zero.1 hfuel)
    exact .last k x
  | succ fuel ih =>
    cases q with
    | nil => exact .last k x
    | cons y ys =>
      obtain ⟨a, b, rest, hcombine, hperm, ha, hb⟩ := combineTwo_least k x y ys
      have hlength := hperm.length_eq
      simp only [List.length_cons] at hlength hfuel hk
      have hpopped := hready.perm hperm.symm
      rw [combineAll, hcombine]
      exact .pair hperm.symm (hpopped.precedes_rest ha) (hpopped.tail.precedes_rest hb)
        (toInt_itag (by omega)) hpopped.toNat_add_weight
        (ih (by omega) (by omega) (hpopped.combine (by omega)))

/-- The internal nodes that the loop makes carry the tags from `ITAG(k)` on, each once (R76). -/
theorem internalTags_combineAll {fuel k : Nat} {x : CodeNode} {q : List CodeNode}
    (hfuel : q.length ≤ fuel) :
    (combineAll fuel k x q).internalTags.Perm
      ((x :: q).flatMap CodeNode.internalTags ++ (List.range' k q.length).map itag) := by
  induction fuel generalizing k x q with
  | zero =>
    cases List.length_eq_zero_iff.1 (Nat.le_zero.1 hfuel)
    simp [combineAll]
  | succ fuel ih =>
    cases q with
    | nil => simp [combineAll]
    | cons y ys =>
      obtain ⟨a, b, rest, hcombine, hperm, hlength⟩ := combineTwo_cases k x y ys
      rw [combineAll, hcombine]
      refine (ih (hlength.trans_le (Nat.le_of_succ_le_succ hfuel))).trans ?_
      have htags := hperm.flatMap_right CodeNode.internalTags
      rw [List.length_cons, List.range'_succ, List.map_cons, hlength]
      refine List.Perm.trans ?_ (htags.append_right _)
      simp only [List.flatMap_cons, CodeNode.internalTags, List.cons_append, List.append_assoc]
      rw [← List.append_assoc, ← List.append_assoc, ← List.append_assoc, ← List.append_assoc]
      exact List.perm_middle.symm

/-! ## The tree that `BUILD` leaves (R74, R76) -/

section
variable {s : State} {x : CodeNode} {q : List CodeNode}

theorem toNat_weights_seedQueue (s : State) :
    ((seedQueue s).map fun x => x.weight.toNat).sum = freqSum s := by
  rw [seedQueue, freqSum]
  induction allSymbols with
  | nil => rfl
  | cons sym syms ih =>
    by_cases h : s.freqOf sym = 0
    · rw [List.filterMap_cons_none (seedLeaf_of_zero h), ih, List.map_cons, List.sum_cons, h]
      simp
    · rw [List.filterMap_cons_some (seedLeaf_of_ne_zero h), List.map_cons, List.sum_cons, ih]
      rfl

/-- After the check of R79 the leaves are ready for the combining loop. -/
theorem queueReady_seedQueue (hsum : freqSum s = s.count.toNat) : QueueReady 0 (seedQueue s) where
  keys_nodup := by
    rw [seedQueue_eq, List.map_map]
    exact (nodup_presentSymbols s).map BitVec.toNat_injective
  keys_lt x hx := by
    rw [seedQueue_eq] at hx
    obtain ⟨sym, -, rfl⟩ := List.mem_map.1 hx
    exact sym.isLt
  weights_lt := by
    rw [toNat_weights_seedQueue, hsum]
    exact s.count.isLt

theorem internalTags_treeOf_seedQueue (hq : seedQueue s = x :: q) :
    (treeOf x q).internalTags.Perm
      ((List.range ((presentSymbols s).length - 1)).map itag) := by
  have hnone : (x :: q).flatMap CodeNode.internalTags = [] := by
    rw [← hq, seedQueue_eq, List.flatMap_map]
    exact List.flatMap_eq_nil_iff.2 fun _ _ => rfl
  have htags := internalTags_combineAll (k := 0) (x := x) (le_refl q.length)
  rw [← length_of_seedQueue hq, Nat.add_sub_cancel]
  rwa [hnone, List.nil_append, ← List.range_eq_range'] at htags

end

/-- A tree after `BUILD` means that the sum check passed (R79). -/
theorem freqSum_of_execBuild_tree {s t : State} {root : CodeNode} (ht : execBuild s = .next t)
    (hroot : t.tree = some root) : freqSum s = s.count.toNat := by
  rcases execBuild_cases s with ⟨-, h⟩ | ⟨hsum, -⟩ | ⟨hsum, -⟩
  · cases h.symm.trans ht
    cases hroot
  · exact hsum
  · exact hsum

/-- Settles O22: no key occurs twice in the queue and no weight wraps, so each step is the one R76
names. -/
theorem builtTreeHasEveryLeafAndTag : Obligations.BuiltTreeHasEveryLeafAndTag := by
  intro s t root ht hroot
  obtain ⟨x, q, hq, rfl, -⟩ := execBuild_tree ht hroot
  have hlength := length_of_seedQueue hq
  have hle := length_presentSymbols_le s
  have hready := queueReady_seedQueue (freqSum_of_execBuild_tree ht hroot)
  refine ⟨?_, symbols_treeOf_seedQueue hq, internalTags_treeOf_seedQueue hq, fun _ => toInt_itag⟩
  rw [← seedQueue_eq, hq]
  exact combined_combineAll le_rfl (by omega) (hq ▸ hready)

/-! ## The codes of a built table (R12, R81) -/

theorem CodeNode.symbols_ne_nil (x : CodeNode) : x.symbols ≠ [] := by
  induction x with
  | leaf sym w => exact List.cons_ne_nil _ _
  | internal t w l r ihl ihr => exact fun h => ihl (List.append_eq_nil_iff.1 h).1

/-- A path to a leaf is shorter than the number of leaves. -/
theorem CodeNode.length_lt_of_follow {x : CodeNode} {path : Code} {sym : Byte} {v : Word}
    (h : x.follow path = some (.leaf sym v)) : path.length < x.symbols.length := by
  induction x generalizing path with
  | leaf s w =>
    cases path with
    | nil => exact Nat.one_pos
    | cons b path => cases h
  | internal t w l r ihl ihr =>
    cases path with
    | nil => cases h
    | cons b path =>
      have hl := List.length_pos_of_ne_nil l.symbols_ne_nil
      have hr := List.length_pos_of_ne_nil r.symbols_ne_nil
      rw [CodeNode.symbols, List.length_append, List.length_cons]
      cases b with
      | false =>
        have := ihl (path := path) h
        omega
      | true =>
        have := ihr (path := path) h
        omega

theorem CodeNode.length_le_of_codeFor {root : CodeNode} {sym : Byte} {path : Code}
    (h : root.CodeFor sym path) : path.length ≤ max 1 (root.symbols.length - 1) := by
  cases root with
  | leaf s w =>
    obtain ⟨-, rfl⟩ := h
    exact le_max_left ..
  | internal t w l r =>
    obtain ⟨v, hv⟩ := h
    exact le_max_of_le_right (Nat.le_sub_one_of_lt (CodeNode.length_lt_of_follow hv))

/-- No path goes on below a leaf. -/
theorem CodeNode.follow_leaf_unique {x : CodeNode} {path path' : Code} {sym sym' : Byte}
    {v v' : Word} (h : x.follow path = some (.leaf sym v))
    (h' : x.follow path' = some (.leaf sym' v')) (hle : path <+: path') : sym = sym' := by
  induction path generalizing x path' with
  | nil =>
    rw [CodeNode.follow_nil] at h
    cases h
    cases path' with
    | nil =>
      cases h'
      rfl
    | cons b path' => cases h'
  | cons b path ih =>
    obtain ⟨rest, rfl⟩ := hle
    cases x with
    | leaf s w => cases h
    | internal t w l r =>
      cases b with
      | false => exact ih (x := l) h h' (List.prefix_append path rest)
      | true => exact ih (x := r) h h' (List.prefix_append path rest)

/-- The codes of different symbols in one tree do not start with each other (R81). -/
theorem CodeNode.codeFor_unique {root : CodeNode} {x y : Byte} {p p' : Code}
    (hx : root.CodeFor x p) (hy : root.CodeFor y p') (hle : p <+: p') : x = y := by
  cases root with
  | leaf s w => exact hx.1.trans hy.1.symm
  | internal t w l r =>
    obtain ⟨v, hv⟩ := hx
    obtain ⟨v', hv'⟩ := hy
    exact CodeNode.follow_leaf_unique hv hv' hle

/-- A code in `CODE` after `BUILD` is a code of the tree that `BUILD` made (R77). -/
theorem codeFor_of_execBuild {s t : State} (ht : execBuild s = .next t) :
    ∃ root : CodeNode, root.symbols.length ≤ 256 ∧
      ∀ sym, t.codeOf sym ≠ [] → root.CodeFor sym (t.codeOf sym) := by
  have hnone (sym : Byte) (h : noCodes[sym.toNat]'sym.isLt ≠ []) : False := h (getElem_noCodes sym)
  rcases execBuild_cases s with ⟨-, h⟩ | ⟨-, -, h⟩ | ⟨-, x, q, hq, h⟩
  · cases h.symm.trans ht
    exact ⟨.leaf 0 0, by decide, fun sym hne => (hnone sym hne).elim⟩
  · cases h.symm.trans ht
    exact ⟨.leaf 0 0, by decide, fun sym hne => (hnone sym hne).elim⟩
  · cases h.symm.trans ht
    refine ⟨treeOf x q, ?_, fun sym hne => ?_⟩
    · rw [(symbols_treeOf_seedQueue hq).length_eq]
      exact length_presentSymbols_le s
    · exact (getElem_assignCodes_eq_iff (nodup_symbols_treeOf_seedQueue hq) sym hne).1 rfl

/-- Settles O24: a code is the path to a leaf, and no path goes on below a leaf. -/
theorem builtCodesArePrefixFree : Obligations.BuiltCodesArePrefixFree := by
  intro s t v ht _ x y hne hx hy hle
  obtain ⟨root, -, hcode⟩ := codeFor_of_execBuild ht
  exact hne (CodeNode.codeFor_unique (hcode x hx) (hcode y hy) hle)

/-- Settles O25: a path to a leaf is shorter than the number of leaves, which is at most 256. -/
theorem builtCodesHaveAtMost255Bits : Obligations.BuiltCodesHaveAtMost255Bits := by
  intro s t ht sym
  obtain ⟨root, hsymbols, hcode⟩ := codeFor_of_execBuild ht
  by_cases hne : t.codeOf sym = []
  · rw [hne]
    exact Nat.zero_le _
  · have := CodeNode.length_le_of_codeFor (hcode sym hne)
    omega

end Sys2Proof.Machine

/-! # The Encoder (42_encoder.md): failures, buffer and traversal; any tree round-trips -/

namespace Sys2Proof.Machine

/-! ## Everything `ENC` can do (R84) -/

/-- No valid tree, or a byte read that has no code (R89). -/
def LacksCode (s : State) : Prop :=
  s.tv = false ∨ ∃ b ∈ readPrefix s .plain 0 s.plen.toNat, s.codeOf b = []

theorem encFrom_of_lacksCode {s : State} (hne : s.plen ≠ 0) (h : LacksCode s) :
    encFrom s = failEnc .noCode s := by
  rw [encFrom, if_neg hne]
  rcases h with htv | ⟨b, hb, hcode⟩
  · rw [if_pos htv]
  · rw [if_pos (c := _ = true) (List.any_eq_true.2 ⟨b, hb, by rw [hcode]; rfl⟩), ite_self]

theorem encFrom_of_codes {s : State} (hne : s.plen ≠ 0) (h : ¬ LacksCode s) :
    encFrom s =
      encWrite (treeTags s) (codeBits s (readPrefix s .plain 1 s.plen.toNat)) s := by
  obtain ⟨htv, hall⟩ := not_or.1 h
  have hany :
      ¬ (readPrefix s .plain 0 s.plen.toNat).any (fun b => (s.codeOf b).isEmpty) = true := by
    rintro hany
    obtain ⟨b, hb, hcode⟩ := List.any_eq_true.1 hany
    exact hall ⟨b, hb, List.isEmpty_iff.1 hcode⟩
  rw [encFrom, if_neg hne, if_neg htv, if_neg hany]

/-- The state in which `ENC` makes its checks (R84). -/
def encStart (s : State) : State := { s with payoff := 0 }

theorem exec_enc (s : State) : exec .enc s = .next (encFrom (encStart s)) := rfl

/-- Settles O29: both failures come before anything is written. -/
theorem encWithoutCodeFails : Obligations.EncWithoutCodeFails := by
  intro s hne hlacks
  have h : LacksCode (encStart s) := by
    refine hlacks.imp id ?_
    rintro ⟨i, b, hi, hread, hcode⟩
    exact ⟨b, List.mem_map.2 ⟨i, List.mem_range.2 hi, readByte_of_read? (s := encStart s) 0 hread⟩,
      hcode⟩
  exact ⟨_, congrArg _ (encFrom_of_lacksCode (s := encStart s) hne h)⟩

/-! ## The buffer (R43, R56, R86) -/

theorem be32_bytes (v : Word) : ∃ b0 b1 b2 b3 : Byte, be32 v = [b0, b1, b2, b3] ∧
    ∀ j, j < 8 → b0.getLsbD j = v.getLsbD (24 + j) ∧ b1.getLsbD j = v.getLsbD (16 + j) ∧
      b2.getLsbD j = v.getLsbD (8 + j) ∧ b3.getLsbD j = v.getLsbD j := by
  refine ⟨_, _, _, _, rfl, fun j hj => ?_⟩
  simp [hj]

/-- Settles O30: the size check decides between the whole buffer and `NO_SPACE`. -/
theorem encWritesTheEncodedBuffer : Obligations.EncWritesTheEncodedBuffer := by
  refine ⟨be32_bytes, ?_⟩
  rintro s bs tags bits size hbs hlen hplain htv hcodes rfl rfl rfl
  have hne : s.plen ≠ 0 := by
    intro hzero
    rw [hzero] at hlen
    exact hbs (List.length_eq_zero_iff.1 hlen)
  have henc := exec_enc_of_codes hlen hne hplain htv hcodes
  rcases encWrite_cases (treeTags s) (codeBits s bs) { s with payoff := 0 } with
    ⟨hlarge, hwrite⟩ | ⟨hfits, hwrite⟩
  · rw [hwrite] at henc
    exact ⟨_, fun hle => absurd hlarge (Nat.not_lt.2 hle), fun _ => henc⟩
  · rw [hwrite] at henc
    have hsame := Memory.sameFrom_writePrefix s.coded
      (encodedBuffer s.plen (treeTags s) (codeBits s bs))
    rw [length_encodedBuffer] at hsame
    exact ⟨_, fun _ => ⟨henc, Memory.holds_writePrefix s.coded _, hsame⟩,
      fun hlt => absurd hlt (Nat.not_lt.2 hfits)⟩

/-- Settles O31: byte `i div 8` packs the eight bits from `8 * (i div 8)` on. -/
theorem payloadBitsAreLeastSignificantFirst : Obligations.PayloadBitsAreLeastSignificantFirst := by
  refine fun bits => ⟨length_packPayload bits, fun i hi => ?_⟩
  rw [length_packPayload] at hi
  have hbyte : i / 8 < ceil8 bits.length := by omega
  rw [List.getD_eq_getElem?_getD, getElem?_packPayload hbyte, Option.getD_some, packByte,
    getLsbD_packBits 8 bits _ _ (Nat.mod_lt i (by decide)), Nat.div_add_mod]

/-! ## The explicit stack (R85) -/

/-- With a pop for every node below the stack, the traversal lists the stack's trees in turn. -/
theorem serializeStack_eq (fuel : Nat) (stack : List CodeNode)
    (h : (stack.map CodeNode.nodes).sum ≤ fuel) :
    serializeStack fuel stack = stack.flatMap serialize := by
  induction fuel generalizing stack with
  | zero =>
    cases stack with
    | nil => rfl
    | cons x stack => cases x <;> simp [CodeNode.nodes] at h
  | succ fuel ih =>
    cases stack with
    | nil => rfl
    | cons x stack =>
      cases x with
      | leaf sym w =>
        simp only [List.map_cons, List.sum_cons, CodeNode.nodes] at h
        rw [serializeStack, ih stack (by omega), List.flatMap_cons, serialize,
          List.singleton_append]
      | internal t w l r =>
        simp only [List.map_cons, List.sum_cons, CodeNode.nodes] at h
        have hstack : ((l :: r :: stack).map CodeNode.nodes).sum ≤ fuel := by
          simp only [List.map_cons, List.sum_cons]
          omega
        rw [serializeStack, ih _ hstack]
        simp [serialize]

/-- Settles O32: the traversal of the stack that holds the root alone is the root's listing. -/
theorem stackTraversalIsPreOrder : Obligations.StackTraversalIsPreOrder := by
  refine ⟨fun s root h => ?_, fun _ _ => rfl, fun _ _ _ _ => rfl, fun root fuel h =>
    ⟨?_, length_serialize root⟩⟩
  · rw [treeTags, h]
  · rw [serializeStack_eq fuel [root] (by simpa using h), List.flatMap_singleton]

/-! ## Any tree round-trips (R91) -/

/-- An entry that the walk leaves was there before or is the path to a leaf of that symbol, whether
or not other leaves hold the symbol too (R77). -/
theorem getElem_walkCodes_cases (x : CodeNode) (pre : Code) (table : Vector Code 256) (sym : Byte) :
    (walkCodes x pre table)[sym.toNat]'sym.isLt = table[sym.toNat]'sym.isLt ∨
      ∃ path v, x.follow path = some (.leaf sym v) ∧
        (walkCodes x pre table)[sym.toNat]'sym.isLt = pre ++ path := by
  induction x generalizing pre table with
  | leaf s w =>
    rw [walkCodes, getElem_set_symbol]
    by_cases h : s = sym
    · subst h
      exact .inr ⟨[], w, rfl, by rw [if_pos rfl, List.append_nil]⟩
    · exact .inl (if_neg h)
  | internal t w l r ihl ihr =>
    rw [walkCodes]
    rcases ihr (pre ++ [true]) (walkCodes l (pre ++ [false]) table) with hr | ⟨path, v, hpath, hr⟩
    · rw [hr]
      refine (ihl (pre ++ [false]) table).imp id ?_
      rintro ⟨path, v, hpath, hl⟩
      exact ⟨false :: path, v, hpath, by rw [hl, ← List.append_cons]⟩
    · exact .inr ⟨true :: path, v, hpath, by rw [hr, ← List.append_cons]⟩

/-- Every entry of a tree's code table is a code of the tree. -/
theorem codeFor_of_assignCodes {root : CodeNode} {sym : Byte}
    (h : (assignCodes root)[sym.toNat]'sym.isLt ≠ []) :
    root.CodeFor sym ((assignCodes root)[sym.toNat]'sym.isLt) := by
  cases root with
  | leaf s w =>
    rw [assignCodes, getElem_set_symbol] at h ⊢
    split at h
    · next hs => exact ⟨hs.symm, if_pos hs⟩
    · exact absurd (getElem_noCodes sym) h
  | internal t w l r =>
    rw [assignCodes] at h ⊢
    rcases getElem_walkCodes_cases (.internal t w l r) [] noCodes sym with
      hnone | ⟨path, v, hpath, hcode⟩
    · exact absurd (hnone.trans (getElem_noCodes sym)) h
    · rw [hcode, List.nil_append]
      exact ⟨v, hpath⟩

/-- `ENC` of bytes that it finds written answers `OK` only with a tree and a code for each (R89). -/
theorem codes_of_exec_enc_ok {s t : State} {bs : List Byte} {v : Word} (hne : s.plen ≠ 0)
    (hlen : bs.length = s.plen.toNat) (hplain : s.plain.Holds bs) (ht : exec .enc s = .next t)
    (hresp : t.resp = some ⟨.ok, v⟩) : s.tv = true ∧ ∀ b ∈ bs, s.codeOf b ≠ [] := by
  have hread : readPrefix (encStart s) .plain 0 s.plen.toNat = bs :=
    hlen ▸ readPrefix_of_holds 0 hplain
  have hcodes : ¬ LacksCode (encStart s) := by
    intro hlacks
    rw [exec_enc, encFrom_of_lacksCode (s := encStart s) hne hlacks] at ht
    cases ht
    cases hresp
  obtain ⟨htv, hall⟩ := not_or.1 hcodes
  refine ⟨Bool.eq_true_of_not_eq_false htv, fun b hb hcode => hall ⟨b, ?_, hcode⟩⟩
  exact hread.symm ▸ hb

/-- Settles O41: the invariant says that `CODE` is the tree's code table, and that `DEC` can rebuild
the tree. -/
theorem decUndoesEnc : Obligations.DecUndoesEnc := by
  intro s t bs v hinv hlen hplain ht hresp
  have hreturns : EncDecReturns s bs := by
    by_cases hne : s.plen = 0
    · have hnil : bs = [] := List.length_eq_zero_iff.1 (by rw [hlen, hne]; rfl)
      exact hnil ▸ encDecReturns_nil hne
    · obtain ⟨htv, hcodes⟩ := codes_of_exec_enc_ok hne hlen hplain ht hresp
      obtain ⟨root, hroot⟩ := Option.isSome_iff_exists.1 (hinv.tv_tree ▸ htv)
      have hneg := hinv.tags_negative
      have hnodes := hinv.nodes_le
      have hcode := hinv.code_tree
      rw [hroot] at hneg hnodes hcode
      refine encDecReturns_of_codes hroot htv (by simpa using hneg) hnodes (fun b hb => ?_) hplain
        hlen hne (hlen ▸ hinv.plen_le)
      have hentry := hcodes b hb
      simp only [State.codeOf, hcode] at hentry ⊢
      exact codeFor_of_assignCodes hentry
  obtain ⟨t', ht', hend⟩ := hreturns
  cases ht.symm.trans ht'
  rcases hend with ⟨-, hfail⟩ | ⟨-, hok⟩
  · cases hfail.symm.trans hresp
  · exact hok

end Sys2Proof.Machine

/-! # The Decoder (43_decoder.md): its header checks, its reading of a tree, its payload -/

namespace Sys2Proof.Machine

/-! ## The header (R93, R104) -/

section
variable {s : State} {len : Word}

theorem decFrom_of_short_header (h : s.clen.toNat < 4) : decFrom s = failDec .truncated s := by
  rw [decFrom, if_pos h]

theorem decFrom_of_too_long (hclen : 4 ≤ s.clen.toNat) (hheader : s.coded.HoldsAt 0 (be32 len))
    (hlarge : s.params.plainCap < len.toNat) : decFrom s = failDec .noSpace s := by
  have hne : len ≠ 0 := by
    rintro rfl
    exact Nat.not_lt_zero _ hlarge
  rw [decFrom, if_neg (Nat.not_lt.2 hclen), codedWord_of_holdsAt hheader, if_neg hne, if_pos hlarge]

/-- A buffer that ends with the header has no tag (R93). -/
theorem readTree_of_no_tag {n : Nat} (h : n < 8) (left : Nat) :
    readTree s n (left + 1) 4 [] = .error .truncated := by
  rw [readTree, nextTag, if_pos h]

end

/-- Settles O33: the checks in the order of R93; each failure comes from the state of the start. -/
theorem decChecksTheHeaderFirst : Obligations.DecChecksTheHeaderFirst := by
  refine fun s => ⟨fun hshort => ?short, fun len hclen hcoded hlarge => ?long,
    fun len hclen hcoded hne hcap => ?noTag⟩
  case short => exact ⟨_, congrArg _ (decFrom_of_short_header (s := decStart s) hshort)⟩
  case long =>
    exact ⟨_, congrArg _ (decFrom_of_too_long (s := decStart s) hclen
      (Memory.holdsAt_zero.2 hcoded) hlarge)⟩
  case noTag =>
    have htree : readTree (decStart s) s.clen.toNat 511 4 [] = .error .truncated :=
      readTree_of_no_tag (by omega) 510
    have hdec := decFrom_of_length (s := decStart s) (Memory.holdsAt_zero.2 hcoded) hclen.ge hne
      hcap
    rw [decTree, decStart_clen, htree] at hdec
    exact ⟨_, congrArg _ hdec⟩

/-! ## What a tag denotes (R57, R93) -/

theorem tagKind_of_symbol {t : Word} {sym : Byte} (h : t.toInt = (sym.toNat : Int)) :
    tagKind t = .leaf sym := by
  rw [← toInt_zextByte] at h
  rw [BitVec.eq_of_toInt_eq h, tagKind_zextByte]

theorem tagKind_of_large {t : Word} (h : 255 < t.toInt) : tagKind t = .bad := by
  rw [tagKind, if_neg (by omega), if_pos h]

theorem toInt_nonneg_of_tagKind {t : Word} (h : tagKind t ≠ .internal) : 0 ≤ t.toInt :=
  Int.not_lt.1 (mt tagKind_of_neg h)

/-! ## The recursive reading (R96)

One equation for each way in which a reading of a tag can go on. -/

section
variable {s : State} {n pos : Nat}

section
variable {st : Status} (h : nextTag s n pos = .error st)
include h

theorem parseTree_of_no_tag (depth left : Nat) :
    parseTree s n (depth + 1) left pos = .error st := by
  rw [parseTree, h]

theorem readTree_of_tag_error (left : Nat) (stack : List Frame) :
    readTree s n left pos stack = .error st := by
  cases left with
  | zero => rw [readTree, h]
  | succ left => rw [readTree, h]

end

section
variable {t : Word} (h : nextTag s n pos = .ok t)
include h

theorem parseTree_of_full (depth : Nat) : parseTree s n (depth + 1) 0 pos = .error .malformed := by
  rw [parseTree, h]

theorem readTree_of_full (stack : List Frame) : readTree s n 0 pos stack = .error .malformed := by
  rw [readTree, h]

theorem parseTree_of_bad (hkind : tagKind t = .bad) (depth left : Nat) :
    parseTree s n (depth + 1) (left + 1) pos = .error .malformed := by
  simp only [parseTree, h, hkind]

theorem readTree_of_bad (hkind : tagKind t = .bad) (left : Nat) (stack : List Frame) :
    readTree s n (left + 1) pos stack = .error .malformed := by
  simp only [readTree, h, hkind]

theorem parseTree_of_leaf {sym : Byte} (hkind : tagKind t = .leaf sym) (depth left : Nat) :
    parseTree s n (depth + 1) (left + 1) pos = .ok (.leaf sym 0, left, pos + 4) := by
  simp only [parseTree, h, hkind]

theorem readTree_of_leaf {sym : Byte} (hkind : tagKind t = .leaf sym) (left : Nat)
    (stack : List Frame) :
    readTree s n (left + 1) pos stack =
      afterAttach s n left (pos + 4) (attach (.leaf sym 0) stack) := by
  simp only [readTree, h, hkind]
  cases attach (.leaf sym 0) stack <;> rfl

theorem readTree_of_internal (hkind : tagKind t = .internal) (left : Nat) (stack : List Frame) :
    readTree s n (left + 1) pos stack = readTree s n left (pos + 4) (⟨t, none⟩ :: stack) := by
  simp only [readTree, h, hkind]

/-- An internal tag: the left subtree, then the right one; a failure of either is the whole's. -/
theorem parseTree_of_internal_cases (hkind : tagKind t = .internal) (depth left : Nat) :
    (∃ st, parseTree s n depth left (pos + 4) = .error st ∧
      parseTree s n (depth + 1) (left + 1) pos = .error st) ∨
    (∃ l left' pos', parseTree s n depth left (pos + 4) = .ok (l, left', pos') ∧
      ((∃ st, parseTree s n depth left' pos' = .error st ∧
          parseTree s n (depth + 1) (left + 1) pos = .error st) ∨
        ∃ r left'' pos'', parseTree s n depth left' pos' = .ok (r, left'', pos'') ∧
          parseTree s n (depth + 1) (left + 1) pos = .ok (.internal t 0 l r, left'', pos''))) := by
  cases hl : parseTree s n depth left (pos + 4) with
  | error st => exact .inl ⟨st, rfl, by simp only [parseTree, h, hkind, hl]⟩
  | ok found =>
    obtain ⟨l, left', pos'⟩ := found
    refine .inr ⟨l, left', pos', rfl, ?_⟩
    cases hr : parseTree s n depth left' pos' with
    | error st => exact .inl ⟨st, rfl, by simp only [parseTree, h, hkind, hl, hr]⟩
    | ok found =>
      obtain ⟨r, left'', pos''⟩ := found
      exact .inr ⟨r, left'', pos'', rfl, by simp only [parseTree, h, hkind, hl, hr]⟩

end

/-- The recursive reading uses up one node and four bytes for each node of its tree (R57). -/
theorem parseTree_size {depth left left' pos' : Nat} {x : CodeNode}
    (h : parseTree s n depth left pos = .ok (x, left', pos')) :
    left' + x.nodes = left ∧ pos' = pos + 4 * x.nodes := by
  induction depth generalizing left pos x left' pos' with
  | zero => cases h
  | succ depth ih =>
    rcases nextTag_cases s n pos with ⟨-, htag⟩ | ⟨-, htag⟩
    · cases (parseTree_of_no_tag htag depth left).symm.trans h
    cases left with
    | zero => cases (parseTree_of_full htag depth).symm.trans h
    | succ left =>
      cases hkind : tagKind (codedWord s pos) with
      | bad => cases (parseTree_of_bad htag hkind depth left).symm.trans h
      | leaf sym =>
        cases (parseTree_of_leaf htag hkind depth left).symm.trans h
        exact ⟨rfl, rfl⟩
      | internal =>
        rcases parseTree_of_internal_cases htag hkind depth left with
          ⟨st, -, hall⟩ | ⟨l, left₁, pos₁, hl, ⟨st, -, hall⟩ | ⟨r, left₂, pos₂, hr, hall⟩⟩
        · cases hall.symm.trans h
        · cases hall.symm.trans h
        · cases hall.symm.trans h
          obtain ⟨hleftl, hposl⟩ := ih hl
          obtain ⟨hleftr, hposr⟩ := ih hr
          simp only [CodeNode.nodes]
          omega

/-- How a reading goes on, with `stack` waiting, from the answer of the recursive reading (R96). -/
def resume (s : State) (n : Nat) (stack : List Frame) :
    Except Status (CodeNode × Nat × Nat) → Except Status (CodeNode × Nat)
  | .error st => .error st
  | .ok (x, left, pos) => afterAttach s n left pos (attach x stack)

/-- The stack reads one subtree recursively and goes on with it attached (R96). The recursion's
bound is never what ends it: every level uses up a node. -/
theorem readTree_eq_resume {depth left : Nat} (hdepth : left < depth) (stack : List Frame) :
    readTree s n left pos stack = resume s n stack (parseTree s n depth left pos) := by
  induction depth generalizing left pos stack with
  | zero => exact absurd hdepth (Nat.not_lt_zero left)
  | succ depth ih =>
    rcases nextTag_cases s n pos with ⟨-, htag⟩ | ⟨-, htag⟩
    · rw [readTree_of_tag_error htag, parseTree_of_no_tag htag, resume]
    cases left with
    | zero => rw [readTree_of_full htag, parseTree_of_full htag, resume]
    | succ left =>
      cases hkind : tagKind (codedWord s pos) with
      | bad => rw [readTree_of_bad htag hkind, parseTree_of_bad htag hkind, resume]
      | leaf sym => rw [readTree_of_leaf htag hkind, parseTree_of_leaf htag hkind, resume]
      | internal =>
        rw [readTree_of_internal htag hkind, ih (by omega)]
        rcases parseTree_of_internal_cases htag hkind depth left with
          ⟨st, hl, hall⟩ | ⟨l, left₁, pos₁, hl, hright⟩
        · rw [hl, hall, resume, resume]
        · obtain ⟨hleft, -⟩ := parseTree_size hl
          rw [hl, resume, afterAttach_left_child, ih (by omega)]
          rcases hright with ⟨st, hr, hall⟩ | ⟨r, left₂, pos₂, hr, hall⟩
          · rw [hr, hall, resume, resume]
          · rw [hr, hall, resume, resume, attach_right_child]

end

/-- The answer of the recursive reading without the count of nodes left. -/
def withoutLeft : Except Status (CodeNode × Nat × Nat) → Except Status (CodeNode × Nat)
  | .error st => .error st
  | .ok (root, _, pos) => .ok (root, pos)

theorem readTree_eq_parseTree (s : State) (n pos : Nat) :
    readTree s n 511 pos [] = withoutLeft (parseTree s n 512 511 pos) := by
  rw [readTree_eq_resume (depth := 512) (by omega)]
  cases parseTree s n 512 511 pos <;> rfl

/-- A tree that is a leaf was read from one tag that denotes a leaf (R99). -/
theorem readTree_eq_leaf {s : State} {n pos pos' : Nat} {sym : Byte} {w : Word}
    (h : readTree s n 511 pos [] = .ok (.leaf sym w, pos')) :
    0 ≤ (codedWord s pos).toInt ∧ pos' = pos + 4 := by
  rw [readTree_eq_parseTree] at h
  rcases nextTag_cases s n pos with ⟨-, htag⟩ | ⟨-, htag⟩
  · rw [parseTree_of_no_tag htag] at h
    cases h
  cases hkind : tagKind (codedWord s pos) with
  | bad =>
    rw [parseTree_of_bad htag hkind] at h
    cases h
  | leaf sym =>
    rw [parseTree_of_leaf htag hkind] at h
    cases h
    exact ⟨toInt_nonneg_of_tagKind (by rw [hkind]; exact TagKind.noConfusion), rfl⟩
  | internal =>
    rcases parseTree_of_internal_cases htag hkind 511 510 with
      ⟨st, -, hall⟩ | ⟨l, left₁, pos₁, -, ⟨st, -, hall⟩ | ⟨r, left₂, pos₂, -, hall⟩⟩
    · rw [hall] at h
      cases h
    · rw [hall] at h
      cases h
    · rw [hall] at h
      cases h

/-! ## `DEC` by the reading of its tree -/

theorem decFrom_eq_decTree {s : State} (hclen : 4 ≤ s.clen.toNat) (hne : codedWord s 0 ≠ 0)
    (hcap : (codedWord s 0).toNat ≤ s.params.plainCap) :
    decFrom s = decTree (codedWord s 0) s := by
  rw [decFrom, if_neg (Nat.not_lt.2 hclen), if_neg hne, if_neg (Nat.not_lt.2 hcap)]

/-- The payload half of `DEC` leaves `PAYOFF`, and of the rest only `PLAIN`, `PLEN`, `LAST` and the
response are its own (R93, R102). -/
theorem decPayload_frame (root : CodeNode) (pos : Nat) (len : Word) (s : State) :
    ∃ plain plen last resp, decPayload root pos len s =
      { discardTree s with plain := plain, plen := plen, last := last, resp := resp } := by
  unfold decPayload
  split
  · exact ⟨_, _, _, _, rfl⟩
  · exact ⟨_, _, _, _, rfl⟩

/-- Settles O37: the stack holds the subtrees that the recursion has still to put together. -/
theorem stackRebuildIsRecursiveParse : Obligations.StackRebuildIsRecursiveParse := by
  refine ⟨fun t => ⟨tagKind_of_neg, fun sym => tagKind_of_symbol, tagKind_of_large⟩,
    fun s n pos => ⟨fun h => if_pos h, fun v hn hholds => nextTag_of_holdsAt hholds hn⟩,
    fun s n pos => ?stack, fun s hclen hne hcap => ?dec⟩
  case stack =>
    rw [readTree_eq_parseTree]
    cases parseTree s n 512 511 pos <;> rfl
  case dec =>
    have hdec := decFrom_eq_decTree (s := decStart s) hclen hne hcap
    have htree := readTree_eq_parseTree s s.clen.toNat 4
    rw [decTree, readTree_decStart, decStart_clen, htree] at hdec
    cases hparse : parseTree s s.clen.toNat 512 511 4 with
    | error st =>
      rw [hparse] at hdec htree
      exact ⟨readTree_error htree, _, congrArg _ hdec⟩
    | ok found =>
      obtain ⟨root, left, pos⟩ := found
      rw [hparse] at hdec
      obtain ⟨hleft, hpos⟩ := parseTree_size hparse
      obtain ⟨plain, plen, last, resp, hframe⟩ := decPayload_frame root pos (codedWord s 0)
        { decStart s with payoff := BitVec.ofNat 32 pos }
      exact ⟨hpos, by omega, plain, plen, last, resp, congrArg _ (hdec.trans hframe)⟩

/-- A tree with an internal root can only run out of bits (R98, R100). -/
theorem decodeSymbols_corrupt {s : State} {n pos k bi : Nat} {root : CodeNode}
    (h : decodeSymbols s n pos root k bi = .error .corrupt) : ∃ sym w, root = .leaf sym w := by
  induction k generalizing bi with
  | zero => cases h
  | succ k ih =>
    rcases decodeSymbols_succ_cases s n pos root k bi with
      ⟨st, hfirst, hall⟩ | ⟨sym, bi', -, ⟨st, hrest, hall⟩ | ⟨out, -, hall⟩⟩
    · cases hall.symm.trans h
      cases root with
      | leaf sym w => exact ⟨sym, w, rfl⟩
      | internal t w l r => cases walkDown_error hfirst
    · cases hall.symm.trans h
      exact ih hrest
    · cases hall.symm.trans h

/-- Settles O40: only the payload of a single-leaf root fails so, and that root is the first tag. -/
theorem corruptOnlyAtSingleLeafRoot : Obligations.CorruptOnlyAtSingleLeafRoot := by
  intro s t v ht hresp
  cases (exec_dec s).symm.trans ht
  rcases decFrom_cases (decStart s) with ⟨st, p, hfails, h⟩ | ⟨-, h⟩ | ⟨root, pos, out, -, -, h⟩
  · rw [h] at hresp ⊢
    cases hresp
    cases hfails with
    | badTree _ _ _ htree => rcases readTree_error htree with hst | hst <;> cases hst
    | badPayload _ _ _ htree hpayload =>
      obtain ⟨sym, w, rfl⟩ := decodeSymbols_corrupt hpayload
      obtain ⟨htag, rfl⟩ := readTree_eq_leaf htree
      exact ⟨htag, rfl⟩
  · rw [h] at hresp
    cases hresp
  · rw [h] at hresp
    cases hresp

/-! ## A payload that ends inside a code (R98, R100) -/

/-- The payload bits from number `bi` on are those of the sequence, and end within it. -/
def StopsWithin (s : State) (n pos : Nat) : Nat → List Bool → Prop
  | _, [] => False
  | bi, b :: bits =>
    nextBit s n pos bi = .error .truncated ∨
      nextBit s n pos bi = .ok b ∧ StopsWithin s n pos (bi + 1) bits

section
variable {s : State} {n pos : Nat}

theorem stopsWithin_of_bits {bi k : Nat} {bits : List Bool} (hk : k < bits.length)
    (hbits : SendsBits s n pos bi (bits.take k))
    (hstop : nextBit s n pos (bi + k) = .error .truncated) : StopsWithin s n pos bi bits := by
  induction bits generalizing bi k with
  | nil => exact absurd hk (Nat.not_lt_zero k)
  | cons b bits ih =>
    cases k with
    | zero => exact .inl hstop
    | succ k =>
      obtain ⟨hfirst, hrest⟩ := sendsBits_cons.1 hbits
      refine .inr ⟨hfirst, ih (Nat.lt_of_succ_lt_succ hk) hrest ?_⟩
      rwa [Nat.add_assoc, Nat.add_comm 1]

theorem StopsWithin.append {bi : Nat} {bits bits' : List Bool}
    (h : StopsWithin s n pos bi (bits ++ bits')) :
    StopsWithin s n pos bi bits ∨
      SendsBits s n pos bi bits ∧ StopsWithin s n pos (bi + bits.length) bits' := by
  induction bits generalizing bi with
  | nil => exact .inr ⟨fun i b hb => (by cases hb), h⟩
  | cons b bits ih =>
    rcases h with hstop | ⟨hfirst, hrest⟩
    · exact .inl (.inl hstop)
    · refine (ih hrest).imp (fun h => .inr ⟨hfirst, h⟩) fun ⟨hbits, hlater⟩ => ?_
      refine ⟨sendsBits_cons.2 ⟨hfirst, hbits⟩, ?_⟩
      rwa [List.length_cons, ← Nat.add_assoc, Nat.add_right_comm]

theorem walkDown_of_stopsWithin {bi : Nat} {x : CodeNode} {path : Code} {sym : Byte} {v : Word}
    (h : x.follow path = some (.leaf sym v)) (hstop : StopsWithin s n pos bi path) :
    walkDown s n pos x bi = .error .truncated := by
  induction path generalizing x bi with
  | nil => exact hstop.elim
  | cons b path ih =>
    cases x with
    | leaf s' w => cases h
    | internal t w l r =>
      rcases hstop with hend | ⟨hbit, hrest⟩
      · rw [walkDown, hend]
      · rw [walkDown, hbit]
        cases b with
        | false => exact ih (x := l) h hrest
        | true => exact ih (x := r) h hrest

theorem decodeSymbol_of_stopsWithin {bi : Nat} {root : CodeNode} {sym : Byte} {path : Code}
    (h : root.CodeFor sym path) (hstop : StopsWithin s n pos bi path) :
    decodeSymbol s n pos root bi = .error .truncated := by
  cases root with
  | leaf s' w =>
    obtain ⟨-, rfl⟩ := h
    rcases hstop with hend | ⟨-, hrest⟩
    · exact decodeSymbol_leaf_of_error s' w hend
    · exact hrest.elim
  | internal t w l r =>
    obtain ⟨v, hv⟩ := h
    exact walkDown_of_stopsWithin hv hstop

/-- A payload that ends within the codes of some symbols cannot give them all. -/
theorem decodeSymbols_of_stopsWithin {bi : Nat} {root : CodeNode} {syms : List Byte}
    {codes : List Code} (h : List.Forall₂ root.CodeFor syms codes)
    (hstop : StopsWithin s n pos bi codes.flatten) :
    decodeSymbols s n pos root syms.length bi = .error .truncated := by
  induction h generalizing bi with
  | nil => exact hstop.elim
  | cons hcode _ ih =>
    rw [List.length_cons, decodeSymbols]
    rcases StopsWithin.append hstop with hfirst | ⟨hbits, hrest⟩
    · rw [decodeSymbol_of_stopsWithin hcode hfirst]
    · rw [decodeSymbol_of_codeFor hcode hbits]
      simp only [ih hrest]

/-- Payload bits that agree with a sequence as far as both go are sent as far as both go (R97). -/
theorem sendsBits_take_of_holdsAt {payload : List Byte} {bits : List Bool}
    (hholds : s.coded.HoldsAt pos payload) (hn : pos + payload.length ≤ n)
    (hagree : ∀ i, i < bits.length → i < 8 * payload.length →
      (payload.getD (i / 8) 0).getLsbD (i % 8) = bits.getD i false) :
    SendsBits s n pos 0 (bits.take (8 * payload.length)) := by
  intro i b hb
  obtain ⟨hi, rfl⟩ := List.getElem?_eq_some_iff.1 hb
  rw [List.length_take, lt_inf_iff] at hi
  obtain ⟨hpayload, hbits⟩ := hi
  rw [Nat.zero_add, nextBit_of_holdsAt hholds hn hpayload, hagree i hbits hpayload,
    List.getElem_take, List.getD_eq_getElem _ _ hbits]

end

/-! ## Any well-formed buffer (R56, R93) -/

/-- Past a header and a tree of the format of R56, `DEC` comes to the payload. -/
theorem decFrom_of_serialized_tree {s : State} {root : CodeNode} {len : Word}
    (hneg : root.negativeTags = true) (hnodes : root.nodes ≤ 511)
    (hheader : s.coded.HoldsAt 0 (be32 len))
    (htree : s.coded.HoldsAt 4 ((serialize root).map be32).flatten)
    (hclen : 4 + 4 * root.nodes ≤ s.clen.toNat) (hne : len ≠ 0)
    (hcap : len.toNat ≤ s.params.plainCap) :
    decFrom s = decPayload root.unweighted (4 + 4 * root.nodes) len
      { s with payoff := BitVec.ofNat 32 (4 + 4 * root.nodes) } := by
  rw [decFrom_of_length hheader (by omega) hne hcap, decTree, readTree_root hneg hnodes htree hclen]

/-- Settles O36: the payload sends the codes of all symbols, or ends within them. -/
theorem decDecodesEveryWellFormedBuffer : Obligations.DecDecodesEveryWellFormedBuffer := by
  rintro s root syms codes bits header payload hneg hnodes hsyms hcap hcodes rfl rfl hcoded hclen
    hagree
  have hlen : (BitVec.ofNat 32 syms.length).toNat = syms.length := by
    obtain ⟨⟨-, hplain⟩, -⟩ := s.params.bounds
    exact Nat.mod_eq_of_lt (by omega)
  have hne : BitVec.ofNat 32 syms.length ≠ 0 := by
    intro hzero
    rw [hzero] at hlen
    exact hsyms (List.length_eq_zero_iff.1 hlen.symm)
  simp only [List.length_append, length_be32, length_flatten_be32, length_serialize] at hclen
  simp only [← Memory.holdsAt_zero, Memory.holdsAt_append, List.length_append, length_be32,
    length_flatten_be32, length_serialize, Nat.zero_add] at hcoded
  obtain ⟨⟨hheader, htree⟩, hpayload⟩ := hcoded
  have hdec := decFrom_of_serialized_tree (s := decStart s) hneg hnodes hheader htree
    (hclen.symm ▸ Nat.le_add_right ..) hne (hlen.symm ▸ hcap)
  have hforall := hcodes.imp fun _ _ => CodeNode.codeFor_unweighted
  have hbits := sendsBits_take_of_holdsAt
    (s := { decStart s with payoff := BitVec.ofNat 32 (4 + 4 * root.nodes) }) hpayload hclen.ge
    hagree
  refine ⟨(decFrom (decStart s)).plain, fun hle => ?whole, fun hlt => ?cut⟩
  case whole =>
    rw [List.take_of_length_le hle] at hbits
    rw [decPayload_of_codes hlen.symm hforall hbits] at hdec
    rw [exec_dec, hdec]
    exact ⟨rfl, Memory.holds_writePrefix s.plain syms, Memory.sameFrom_writePrefix s.plain syms⟩
  case cut =>
    have hstop := stopsWithin_of_bits hlt hbits (nextBit_past_end hclen (by omega))
    have hfails := decodeSymbols_of_stopsWithin hforall hstop
    rw [← hlen] at hfails
    rw [decPayload_of_error hfails] at hdec
    rw [exec_dec, hdec]
    rfl

end Sys2Proof.Machine

/-! # Every command and every step: how each can end, its response, when the machine waits -/

namespace Sys2Proof.Machine

/-! ## How the framer's commands can end (R109, R118) -/

/-- What a pass of `RDREC`'s loop, or a channel answer to it, can come to from `s`: a delivery that
splits `FB`, or a pull. -/
inductive RecordEnds (m : Nat) (s : State) : State → Prop where
  | delivers {st : Status} {out fb : List Byte} :
    st ∈ [Status.ok, .noTerm, .closed, .short, .chanErr] → out ++ fb = s.fb →
    RecordEnds m s (deliverRecord st out fb s)
  | pulls : terminator ∉ s.fb → s.fb.length < m → RecordEnds m s (openPull (.rdrec m) s)

/-- What a pass of `RDEX`'s loop, or a channel answer to it, can come to with the bytes `out`. -/
inductive ExactEnds (n : Nat) (out : List Byte) (s : State) : State → Prop where
  | delivers {st : Status} :
    st ∈ [Status.ok, .closed, .short, .chanErr] → ExactEnds n out s (deliverExact st out s)
  | pulls : out.length < n → ExactEnds n out s (openPull (.rdex n out) s)

theorem scanRecord_ends (m : Nat) (s : State) : RecordEnds m s (scanRecord m s) := by
  rcases scanRecord_cases m s with ⟨i, -, -, -, -, h⟩ | ⟨-, -, h⟩ | ⟨hno, hlt, h⟩
  · exact h ▸ .delivers (by decide) (List.take_append_drop ..)
  · exact h ▸ .delivers (by decide) (List.take_append_drop ..)
  · exact h ▸ .pulls hno hlt

theorem scanExact_ends (n : Nat) (out : List Byte) (s : State) :
    ExactEnds n out s (scanExact n out s) := by
  rcases scanExact_cases n out s with ⟨-, h⟩ | ⟨hlt, h⟩
  · exact h ▸ .delivers (by decide)
  · exact h ▸ .pulls hlt

/-- The bytes of one channel answer (R105). -/
def answerBytes : ChanAnswer → List Byte
  | .data c => c
  | .closed => []
  | .error => []

theorem answerRecord_ends (m : Nat) (ans : ChanAnswer) (s : State) :
    RecordEnds m { s with fb := s.fb ++ answerBytes ans } (answerRecord m ans s) := by
  cases ans with
  | data c => exact scanRecord_ends m { s with fb := s.fb ++ c }
  | closed =>
    rw [answerBytes, List.append_nil, answerRecord]
    split
    · next hfb => exact .delivers (by decide) (by rw [hfb, List.append_nil])
    · exact .delivers (by decide) (List.append_nil _)
  | error =>
    rw [answerBytes, List.append_nil]
    exact .delivers (by decide) (List.nil_append _)

theorem answerExact_ends (n : Nat) (out : List Byte) (ans : ChanAnswer) (s : State) :
    ExactEnds n (out ++ answerBytes ans) s (answerExact n out ans s) := by
  cases ans with
  | data c => exact scanExact_ends n (out ++ c) s
  | closed =>
    rw [answerBytes, List.append_nil, answerExact]
    exact .delivers (by split <;> decide)
  | error =>
    rw [answerBytes, List.append_nil]
    exact .delivers (by decide)

/-! ## How every command can end -/

/-- The loads (R125). -/
def isLoad : Instr → Bool
  | .ldCsr _ | .ldPlain _ | .ldCoded _ | .ldRec _ | .ldFreq _ | .ldCode _ => true
  | _ => false

/-- Everything a command can do in the state `s`, with what later proofs need of what it writes. -/
inductive CommandEnds (s : State) : Instr → State → Prop where
  /-- `NOP`, and every load or store that is refused -/
  | zeroResponse {i : Instr} {st : Status} : isUnit i = false → st ∈ mayEndWith i →
    CommandEnds s i (respond st 0 s)
  | load {i : Instr} {w : Word} : isLoad i = true → CommandEnds s i (respond .ok w s)
  | storePlen {a : Nat} {d : Word} : d.toNat ≤ s.params.plainCap →
    CommandEnds s (.stCsr a d) (respond .ok 0 { s with plen := d })
  | storeClen {a : Nat} {d : Word} : d.toNat ≤ s.params.codedCap →
    CommandEnds s (.stCsr a d) (respond .ok 0 { s with clen := d })
  | storeCount {a : Nat} {d : Word} :
    CommandEnds s (.stCsr a d) (respond .ok 0 { s with count := d })
  | storePlain {a : Nat} {d : Word} {b : Byte} : a < s.params.plainCap →
    CommandEnds s (.stPlain a d) (respond .ok 0 { s with plain := s.plain.write a b })
  | storeCoded {a : Nat} {d : Word} {b : Byte} : a < s.params.codedCap →
    CommandEnds s (.stCoded a d) (respond .ok 0 { s with coded := s.coded.write a b })
  | storeFreq {a : Nat} {d : Word} {freq : Vector Word 256} :
    CommandEnds s (.stFreq a d) (respond .ok 0 { s with freq := freq })
  | hist {freq : Vector Word 256} :
    CommandEnds s .hist (finish .ok s.plen { s with freq := freq, count := s.plen })
  | buildFails : CommandEnds s .build (finish .badFreq 0 (discardTree s))
  | buildNone : CommandEnds s .build (finish .ok 0 (discardTree s))
  | buildTree {x : CodeNode} {q : List CodeNode} : seedQueue s = x :: q →
    CommandEnds s .build (buildFrom x q (discardTree s))
  | encEmpty : CommandEnds s .enc (finish .ok 4
      (discardTree { s with coded := s.coded.writePrefix (be32 0), clen := 4, payoff := 4 }))
  | encFails {st : Status} : st ∈ [Status.noCode, .noSpace] →
    CommandEnds s .enc (failEnc st (encStart s))
  | encWrites {buffer : List Byte} {p : Word} : buffer.length ≤ s.params.codedCap →
    CommandEnds s .enc (finish .ok (BitVec.ofNat 32 buffer.length)
      (discardTree
        { s with
          coded := s.coded.writePrefix buffer, payoff := p
          clen := BitVec.ofNat 32 buffer.length }))
  | decFails {st : Status} {p : Word} : st ∈ [Status.truncated, .corrupt, .malformed, .noSpace] →
    CommandEnds s .dec (failDec st { decStart s with payoff := p })
  | decEmpty : CommandEnds s .dec (finish .ok 0 { decStart s with plen := 0, payoff := 4 })
  | decEmits {len p : Word} {out : List Byte} : out.length = len.toNat →
    len.toNat ≤ s.params.plainCap →
    CommandEnds s .dec (finish .ok len
      (discardTree { s with plain := s.plain.writePrefix out, plen := len, payoff := p }))
  | fclr : CommandEnds s .fclr (finish .ok 0 { s with fb := [] })
  | rdrecBadArg {m : Nat} : CommandEnds s (.rdrec m) (finish .badArg 0 s)
  | rdrec {m : Nat} {t : State} : m ≤ s.params.fbCap → RecordEnds m s t →
    CommandEnds s (.rdrec m) t
  | rdexBadArg {n : Nat} : CommandEnds s (.rdex n) (finish .badArg 0 s)
  | rdex {n : Nat} {t : State} : n ≤ s.params.codedCap →
    ExactEnds n (s.fb.take n) { s with fb := s.fb.drop n } t → CommandEnds s (.rdex n) t

section
variable (s : State)

theorem loadElement_ends {i : Instr} (hload : isLoad i = true) (v : Option Word) :
    CommandEnds s i (loadElement v s) := by
  rcases loadElement_cases v s with ⟨w, -, h⟩ | ⟨-, h⟩
  · exact h ▸ .load hload
  · rw [h]
    cases i with
    | ldCsr | ldPlain | ldCoded | ldRec | ldFreq | ldCode =>
      exact .zeroResponse rfl (by simp [mayEndWith])
    | _ => cases hload

theorem exec_stCsr_ends (a : Nat) (d : Word) :
    ∃ t, exec (.stCsr a d) s = .next t ∧ CommandEnds s (.stCsr a d) t := by
  by_cases h1 : a = 1
  · subst h1
    by_cases h : s.params.plainCap < d.toNat
    · exact ⟨_, if_pos h, .zeroResponse rfl (by simp [mayEndWith])⟩
    · exact ⟨_, if_neg h, .storePlen (Nat.not_lt.1 h)⟩
  by_cases h2 : a = 2
  · subst h2
    by_cases h : s.params.codedCap < d.toNat
    · exact ⟨_, if_pos h, .zeroResponse rfl (by simp [mayEndWith])⟩
    · exact ⟨_, if_neg h, .storeClen (Nat.not_lt.1 h)⟩
  by_cases h4 : a = 4
  · subst h4
    exact ⟨_, rfl, .storeCount⟩
  · exact ⟨_, exec_stCsr_other h1 h2 h4 d s, .zeroResponse rfl (by simp [mayEndWith])⟩

theorem exec_stPlain_ends (a : Nat) (d : Word) :
    ∃ t, exec (.stPlain a d) s = .next t ∧ CommandEnds s (.stPlain a d) t := by
  by_cases ha : a < s.params.plainCap
  · by_cases hd : d.toNat < 256
    · exact ⟨_, exec_stPlain_byte ha hd, .storePlain ha⟩
    · exact ⟨_, exec_stPlain_wide ha (Nat.not_lt.1 hd), .zeroResponse rfl (by simp [mayEndWith])⟩
  · exact ⟨_, exec_stPlain_outside (Nat.not_lt.1 ha), .zeroResponse rfl (by simp [mayEndWith])⟩

theorem exec_stCoded_ends (a : Nat) (d : Word) :
    ∃ t, exec (.stCoded a d) s = .next t ∧ CommandEnds s (.stCoded a d) t := by
  by_cases ha : a < s.params.codedCap
  · by_cases hd : d.toNat < 256
    · exact ⟨_, exec_stCoded_byte ha hd, .storeCoded ha⟩
    · exact ⟨_, exec_stCoded_wide ha (Nat.not_lt.1 hd), .zeroResponse rfl (by simp [mayEndWith])⟩
  · exact ⟨_, exec_stCoded_outside (Nat.not_lt.1 ha), .zeroResponse rfl (by simp [mayEndWith])⟩

theorem exec_stFreq_ends (a : Nat) (d : Word) :
    ∃ t, exec (.stFreq a d) s = .next t ∧ CommandEnds s (.stFreq a d) t := by
  by_cases ha : a < 256
  · exact ⟨_, dif_pos ha, .storeFreq⟩
  · exact ⟨_, exec_stFreq_outside (Nat.not_lt.1 ha) d s, .zeroResponse rfl (by simp [mayEndWith])⟩

theorem exec_build_ends : ∃ t, exec .build s = .next t ∧ CommandEnds s .build t := by
  rcases execBuild_cases s with ⟨-, h⟩ | ⟨-, -, h⟩ | ⟨-, x, q, hq, h⟩
  · exact ⟨_, h, .buildFails⟩
  · exact ⟨_, h, .buildNone⟩
  · exact ⟨_, h, .buildTree hq⟩

theorem encWrite_ends (tags : List Word) (bits : List Bool) :
    CommandEnds s .enc (encWrite tags bits (encStart s)) := by
  rcases encWrite_cases tags bits (encStart s) with ⟨-, h⟩ | ⟨hle, h⟩
  · exact h ▸ .encFails (by decide)
  · have hlength := length_encodedBuffer s.plen tags bits
    rw [h, ← hlength]
    exact .encWrites (hlength.trans_le hle)

theorem exec_enc_ends : ∃ t, exec .enc s = .next t ∧ CommandEnds s .enc t := by
  by_cases hne : s.plen = 0
  · exact ⟨_, exec_enc_of_plen_zero hne, .encEmpty⟩
  refine ⟨_, exec_enc s, ?_⟩
  by_cases hlacks : LacksCode (encStart s)
  · exact encFrom_of_lacksCode (s := encStart s) hne hlacks ▸ .encFails (by decide)
  · exact encFrom_of_codes (s := encStart s) hne hlacks ▸ encWrite_ends s _ _

variable {s}

theorem DecFails.status_mem {st : Status} {p : Word} (h : DecFails s st p) :
    st ∈ [Status.truncated, .corrupt, .malformed, .noSpace] := by
  cases h with
  | shortHeader => decide
  | tooLong => decide
  | badTree _ _ _ htree => rcases readTree_error htree with rfl | rfl <;> decide
  | badPayload _ _ _ _ hpayload => rcases decodeSymbols_error hpayload with rfl | rfl <;> decide

/-- `DEC` answers `OK` only for a length that fits `PLAIN` (R93). -/
theorem length_le_of_decFrom_ok {v : Word} {u : State} (h : decFrom s = finish .ok v u) :
    (codedWord s 0).toNat ≤ s.params.plainCap := by
  by_contra hlarge
  have hlast := congrArg State.last h
  by_cases hclen : s.clen.toNat < 4
  · rw [decFrom_of_short_header hclen, failDec_last] at hlast
    cases hlast
  · have hne : codedWord s 0 ≠ 0 := fun hzero => hlarge (hzero ▸ Nat.zero_le _)
    rw [decFrom, if_neg hclen, if_neg hne, if_pos (Nat.not_le.1 hlarge), failDec_last] at hlast
    cases hlast

variable (s)

theorem exec_dec_ends : ∃ t, exec .dec s = .next t ∧ CommandEnds s .dec t := by
  refine ⟨_, exec_dec s, ?_⟩
  rcases decFrom_cases (decStart s) with ⟨st, p, hfails, h⟩ | ⟨-, h⟩ | ⟨root, pos, out, -, hout, h⟩
  · exact h ▸ .decFails hfails.status_mem
  · exact h ▸ .decEmpty
  · have hle := length_le_of_decFrom_ok h
    exact h ▸ .decEmits (length_of_decodeSymbols hout) hle

theorem exec_rdrec_ends (m : Nat) :
    ∃ t, exec (.rdrec m) s = .next t ∧ CommandEnds s (.rdrec m) t := by
  by_cases hm : m ≤ s.params.fbCap
  · exact ⟨_, exec_rdrec hm, .rdrec hm (scanRecord_ends m s)⟩
  · exact ⟨_, exec_rdrec_badArg (Nat.not_le.1 hm), .rdrecBadArg⟩

theorem exec_rdex_ends (n : Nat) :
    ∃ t, exec (.rdex n) s = .next t ∧ CommandEnds s (.rdex n) t := by
  by_cases hn : n ≤ s.params.codedCap
  · exact ⟨_, exec_rdex hn, .rdex hn (scanExact_ends n _ _)⟩
  · exact ⟨_, exec_rdex_badArg (Nat.not_le.1 hn), .rdexBadArg⟩

/-- Every command ends, in one of the ways of `CommandEnds` (R63; 93 section 2). -/
theorem exec_ends (i : Instr) : ∃ t, exec i s = .next t ∧ CommandEnds s i t := by
  cases i with
  | nop => exact ⟨_, rfl, .zeroResponse rfl (by decide)⟩
  | hist => exact ⟨_, rfl, .hist⟩
  | build => exact exec_build_ends s
  | enc => exact exec_enc_ends s
  | dec => exact exec_dec_ends s
  | fclr => exact ⟨_, rfl, .fclr⟩
  | rdrec m => exact exec_rdrec_ends s m
  | rdex n => exact exec_rdex_ends s n
  | ldCsr a => exact ⟨_, rfl, loadElement_ends s rfl _⟩
  | ldPlain a => exact ⟨_, rfl, loadElement_ends s rfl _⟩
  | ldCoded a => exact ⟨_, rfl, loadElement_ends s rfl _⟩
  | ldRec a => exact ⟨_, rfl, loadElement_ends s rfl _⟩
  | ldFreq a => exact ⟨_, rfl, loadElement_ends s rfl _⟩
  | ldCode a => exact ⟨_, rfl, loadElement_ends s rfl _⟩
  | stCsr a d => exact exec_stCsr_ends s a d
  | stPlain a d => exact exec_stPlain_ends s a d
  | stCoded a d => exact exec_stCoded_ends s a d
  | stFreq a d => exact exec_stFreq_ends s a d

end

theorem commandEnds_of_exec {i : Instr} {s t : State} (h : exec i s = .next t) :
    CommandEnds s i t := by
  obtain ⟨t', ht', hends⟩ := exec_ends s i
  cases h.symm.trans ht'
  exact hends

end Sys2Proof.Machine

/-! # Steps (R17): what a step takes, what it answers, when the machine waits -/

namespace Sys2Proof.Machine

/-! ## Taking a word -/

/-- Settles O5: an idle core accepts the word, and a legal word runs as its command. -/
theorem stepRunsTheDecodedCommand : Obligations.StepRunsTheDecodedCommand := by
  intro s w rest i hr hf hw hdecode
  rw [step_of_word hr hf hw, runWord_ok hdecode]
  rfl

/-- Settles O3: the decoder refuses R64's two cases; a refused word goes to no command. -/
theorem illegalWordsChangeNothing : Obligations.IllegalWordsChangeNothing := by
  refine ⟨decode_eq_error_iff, fun s w rest hr hf hw hillegal => ?_, fun s a d hd => ⟨fun ha => ?_,
    fun ha => ?_⟩⟩
  · obtain ⟨e, he⟩ := (decode_eq_error_iff w).2 hillegal
    rw [step_of_word hr hf hw, runWord_error he]
    rfl
  · exact ⟨not_illegalWord_of_byte_store (.inl rfl), exec_stPlain_wide ha hd⟩
  · exact ⟨not_illegalWord_of_byte_store (.inr rfl), exec_stCoded_wide ha hd⟩

/-! ## Reset (R142) -/

theorem step_of_reset {s : State} (hr : s.resetIn = true) : step s = .next (takeReset s) :=
  if_pos hr

theorem chanAfterReset_cases (s : State) :
    chanAfterReset s = s.chan ∨ ∃ c, s.flight.isSome ∧ s.chan = .data c :: chanAfterReset s := by
  unfold chanAfterReset
  split
  · next f c rest hf hc =>
    split
    · exact .inr ⟨c, by rw [hf]; rfl, hc⟩
    · exact .inl hc.symm
  · exact .inl rfl

/-- Settles O7: only what is left on the channel is open. -/
theorem resetEventRestoresResetState : Obligations.ResetEventRestoresResetState := fun s hr =>
  ⟨chanAfterReset s, step_of_reset hr, chanAfterReset_cases s⟩

/-! ## Waiting (R18, R150) -/

theorem step_of_silence {s : State} (hr : s.resetIn = false) (hf : s.flight.isSome)
    (hc : s.chan = []) : step s = .next s := by
  obtain ⟨f, hf⟩ := Option.isSome_iff_exists.1 hf
  simp [step, hr, hf, hc]

theorem step_of_idle {s : State} (hr : s.resetIn = false) (hf : s.flight = none)
    (hw : s.cmds = []) : step s = .next s := by
  simp [step, hr, hf, hw]

/-- A run of one more step goes on from the state that its first step answers. -/
theorem run_succ_of_step {M : Host.Core} {s t : M.State} (h : M.step s = .next t) (k : Nat) :
    M.run (k + 1) s = M.run k t := by
  simp only [Host.Core.run, h]

theorem step_of_run_succ {M : Host.Core} {s u : M.State} {k : Nat} (h : M.run (k + 1) s = .next u) :
    ∃ t, M.step s = .next t ∧ M.run k t = .next u := by
  cases hstep : M.step s with
  | next t => exact ⟨t, rfl, (run_succ_of_step hstep k).symm.trans h⟩
  | fault r =>
    simp only [Host.Core.run, hstep] at h
    cases h
  | refused r =>
    simp only [Host.Core.run, hstep] at h
    cases h

/-- A state that a step leaves as it is stays for any number of steps. -/
theorem run_of_fixed {s : State} (h : step s = .next s) (k : Nat) :
    Host.Core.run Sys2Proof.core k s = .next s := by
  induction k with
  | zero => rfl
  | succ k ih => exact (run_succ_of_step (M := Sys2Proof.core) h k).trans ih

theorem RecordEnds.cmds_eq {m : Nat} {s t : State} (h : RecordEnds m s t) : t.cmds = s.cmds := by
  cases h <;> rfl

theorem ExactEnds.cmds_eq {n : Nat} {out : List Byte} {s t : State} (h : ExactEnds n out s t) :
    t.cmds = s.cmds := by
  cases h <;> rfl

theorem answerFlight_cmds (f : Flight) (ans : ChanAnswer) (s : State) :
    (answerFlight f ans s).cmds = s.cmds := by
  cases f with
  | rdrec m => exact (answerRecord_ends m ans s).cmds_eq
  | rdex n out => exact (answerExact_ends n out ans s).cmds_eq

/-- Settles O6: a waiting core looks at the channel alone, and reset at nothing. -/
theorem waitingCoreTakesNoCommand : Obligations.WaitingCoreTakesNoCommand := by
  refine ⟨fun s t hr hf ht => ?_, fun s k hr hf hc => run_of_fixed (step_of_silence hr hf hc) k,
    fun s => step_of_idle, fun s t hr ht => ?_⟩
  · cases hc : s.chan with
    | nil =>
      cases (step_of_silence hr hf hc).symm.trans ht
      rfl
    | cons ans rest =>
      obtain ⟨f, hf⟩ := Option.isSome_iff_exists.1 hf
      rw [step_of_answer_next hr hf hc ht, answerFlight_cmds, takeAnswer_cmds]
  · cases (step_of_reset hr).symm.trans ht
    rfl

/-! ## When a step has no next state (93 section 2) -/

/-- Only a chunk can break the protocol of R20. -/
theorem answerLegal_eq_false {r : Nat} {ans : ChanAnswer} (h : answerLegal r ans = false) :
    ∃ c, ans = .data c ∧ ¬ (1 ≤ c.length ∧ c.length ≤ r) := by
  cases ans with
  | data c =>
    refine ⟨c, rfl, fun hlegal => ?_⟩
    rw [answerLegal_data.2 hlegal] at h
    cases h
  | closed => cases h
  | error => cases h

/-- Settles O11: every command ends, so only a channel answer can stop a step. -/
theorem onlyChannelProtocolStopsAStep : Obligations.OnlyChannelProtocolStopsAStep := by
  have hexec (i : Instr) (s : State) : ∃ t, exec i s = .next t :=
    (exec_ends s i).imp fun _ => And.left
  refine ⟨hexec, fun s => ?_⟩
  rcases step_cases s with ⟨-, h⟩ | ⟨-, -, -, h⟩ | ⟨hr, f, ans, rest, hf, hc, h⟩ | ⟨-, -, -, h⟩ |
    ⟨-, -, w, rest, -, h⟩
  · exact .inl ⟨_, h⟩
  · exact .inl ⟨_, h⟩
  · rcases channelAnswer_cases f ans (takeAnswer rest s) with ⟨-, hans⟩ | ⟨hillegal, hans⟩
    · exact .inl ⟨_, h.trans hans⟩
    · obtain ⟨c, rfl, hchunk⟩ := answerLegal_eq_false hillegal
      exact .inr ⟨h.trans hans, hr, f, c, rest, hf, hc, hchunk⟩
  · exact .inl ⟨_, h⟩
  · rw [h]
    cases hdecode : decode w with
    | ok i => exact .inl (runWord_ok hdecode _ ▸ hexec i _)
    | error e => exact .inl ⟨_, runWord_error hdecode _⟩

/-! ## Responses (R17, R62, R132) -/

/-- Settles O12: only a pull of `RDREC` or `RDEX` ends a command without its response. -/
theorem oneResponseOrAnOpenPull : Obligations.OneResponseOrAnOpenPull := by
  intro i s t hf ht
  cases commandEnds_of_exec ht with
  | rdrec _ hends =>
    cases hends with
    | delivers => exact .inl ⟨rfl, _, rfl⟩
    | pulls => exact .inr ⟨rfl, .inl ⟨_, rfl, rfl⟩⟩
  | rdex _ hends =>
    cases hends with
    | delivers => exact .inl ⟨rfl, _, rfl⟩
    | pulls => exact .inr ⟨rfl, .inr ⟨_, _, rfl, rfl⟩⟩
  | zeroResponse | load | storePlen | storeClen | storeCount | storePlain | storeCoded | storeFreq
  | hist | buildFails | buildNone | buildTree | encEmpty | encFails | encWrites | decFails
  | decEmpty | decEmits | fclr | rdrecBadArg | rdexBadArg => exact .inl ⟨hf, _, rfl⟩

/-- What `RDREC` answers: its statuses, and the number of bytes delivered. -/
theorem RecordEnds.response {m : Nat} {s t : State} {r : Response} (h : RecordEnds m s t)
    (hr : t.resp = some r) :
    r.status ∈ [Status.ok, .noTerm, .closed, .short, .chanErr] ∧ r.value = t.rlen := by
  cases h with
  | delivers hst =>
    cases hr
    exact ⟨hst, rfl⟩
  | pulls => cases hr

/-- What `RDEX` answers: its statuses, and the number of bytes delivered. -/
theorem ExactEnds.response {n : Nat} {out : List Byte} {s t : State} {r : Response}
    (h : ExactEnds n out s t) (hr : t.resp = some r) :
    r.status ∈ [Status.ok, .closed, .short, .chanErr] ∧ r.value = t.clen := by
  cases h with
  | delivers hst =>
    cases hr
    exact ⟨hst, rfl⟩
  | pulls => cases hr

/-- What a channel answer makes a waiting `RDREC` answer. -/
theorem response_of_rdrec_answer {s t : State} {m : Nat} {r : Response} (hreset : s.resetIn = false)
    (hf : s.flight = some (.rdrec m)) (hc : s.chan ≠ []) (ht : step s = .next t)
    (hr : t.resp = some r) :
    r.status ∈ [Status.ok, .noTerm, .closed, .short, .chanErr] ∧ r.value = t.rlen := by
  obtain ⟨ans, rest, hc⟩ := List.exists_cons_of_ne_nil hc
  cases step_of_answer_next hreset hf hc ht
  exact (answerRecord_ends m ans (takeAnswer rest s)).response hr

/-- What a channel answer makes a waiting `RDEX` answer. -/
theorem response_of_rdex_answer {s t : State} {n : Nat} {out : List Byte} {r : Response}
    (hreset : s.resetIn = false) (hf : s.flight = some (.rdex n out)) (hc : s.chan ≠ [])
    (ht : step s = .next t) (hr : t.resp = some r) :
    r.status ∈ [Status.ok, .closed, .short, .chanErr] ∧ r.value = t.clen := by
  obtain ⟨ans, rest, hc⟩ := List.exists_cons_of_ne_nil hc
  cases step_of_answer_next hreset hf hc ht
  exact (answerExact_ends n out ans (takeAnswer rest s)).response hr

theorem mem_mayEndWith_rdrec {m : Nat} {st : Status}
    (h : st ∈ [Status.ok, .noTerm, .closed, .short, .chanErr]) : st ∈ mayEndWith (.rdrec m) :=
  List.mem_append_left [Status.badArg] h

theorem mem_mayEndWith_rdex {n : Nat} {st : Status}
    (h : st ∈ [Status.ok, .closed, .short, .chanErr]) : st ∈ mayEndWith (.rdex n) :=
  List.mem_append_left [Status.badArg] h

theorem ok_mem_mayEndWith (i : Instr) : .ok ∈ mayEndWith i := by
  cases i <;> exact List.mem_cons_self ..

/-- The status of a command's response is on the command's list (R132). -/
theorem CommandEnds.status_mem {s t : State} {i : Instr} {r : Response} (h : CommandEnds s i t)
    (hr : t.resp = some r) : r.status ∈ mayEndWith i := by
  cases h with
  | zeroResponse _ hst =>
    cases hr
    exact hst
  | rdrec _ hends => exact mem_mayEndWith_rdrec (hends.response hr).1
  | rdex _ hends => exact mem_mayEndWith_rdex (hends.response hr).1
  | encFails hst | decFails hst =>
    cases hr
    exact List.mem_cons_of_mem _ hst
  | buildFails | rdrecBadArg | rdexBadArg =>
    cases hr
    simp [mayEndWith]
  | load | storePlen | storeClen | storeCount | storePlain | storeCoded | storeFreq | hist
  | buildNone | buildTree | encEmpty | encWrites | decEmpty | decEmits | fclr =>
    cases hr
    exact ok_mem_mayEndWith _

/-- Settles O14: by the ways in which a command can end, at once or after a channel answer. -/
theorem statusesEachCommandMayRaise : Obligations.StatusesEachCommandMayRaise :=
  ⟨fun _ _ _ _ ht hr => (commandEnds_of_exec ht).status_mem hr,
    fun _ _ _ _ hreset hf hc ht hr =>
      mem_mayEndWith_rdrec (response_of_rdrec_answer hreset hf hc ht hr).1,
    fun _ _ _ _ _ hreset hf hc ht hr =>
      mem_mayEndWith_rdex (response_of_rdex_answer hreset hf hc ht hr).1⟩

/-- What the response value of a command is (R62); `t` is the state after the command. -/
def ValueAgrees (t : State) (r : Response) : Instr → Prop
  | .hist => r.value = t.count
  | .build => r.value = if r.status = .ok then t.nnodes else 0
  | .enc => r.value = if r.status = .ok then t.clen else 0
  | .dec => r.value = if r.status = .ok then t.plen else 0
  | .rdrec _ => r.value = if r.status = .badArg then 0 else t.rlen
  | .rdex _ => r.value = if r.status = .badArg then 0 else t.clen
  | i => isLoad i = false ∨ r.status ≠ .ok → r.value = 0

/-- A response value 0 is right for every command that is no unit command. -/
theorem valueAgrees_of_zero {t : State} {r : Response} {i : Instr} (hi : isUnit i = false)
    (hv : r.value = 0) : ValueAgrees t r i := by
  cases i with
  | hist | build | enc | dec | fclr | rdrec | rdex => cases hi
  | nop | ldCsr | ldPlain | ldCoded | ldRec | ldFreq | ldCode | stCsr | stPlain | stCoded
  | stFreq => exact fun _ => hv

/-- Any response value is right for a load that answers `OK`. -/
theorem valueAgrees_of_load {t : State} {w : Word} {i : Instr} (hi : isLoad i = true) :
    ValueAgrees t ⟨.ok, w⟩ i := by
  cases i with
  | ldCsr | ldPlain | ldCoded | ldRec | ldFreq | ldCode =>
    rintro (hno | hst)
    · cases hno
    · exact absurd rfl hst
  | nop | hist | build | enc | dec | fclr | rdrec | rdex | stCsr | stPlain | stCoded | stFreq =>
    cases hi

theorem CommandEnds.valueAgrees {s t : State} {i : Instr} {r : Response} (h : CommandEnds s i t)
    (hr : t.resp = some r) : ValueAgrees t r i := by
  cases h with
  | zeroResponse hi _ =>
    cases hr
    exact valueAgrees_of_zero hi rfl
  | load hi =>
    cases hr
    exact valueAgrees_of_load hi
  | storePlen | storeClen | storeCount | storePlain | storeCoded | storeFreq | fclr =>
    cases hr
    exact fun _ => rfl
  | hist | buildFails | buildNone | buildTree | encEmpty | encWrites | decEmpty | decEmits
  | rdrecBadArg | rdexBadArg =>
    cases hr
    rfl
  | encFails hst | decFails hst =>
    cases hr
    exact (if_neg (by rintro rfl; simp at hst)).symm
  | rdrec _ hends | rdex _ hends =>
    obtain ⟨hst, hv⟩ := hends.response hr
    exact hv.trans (if_neg (by intro hbad; simp [hbad] at hst)).symm

/-- The layout of the response word (R62). -/
theorem word_fields (r : Response) :
    r.word.extractLsb' 32 8 = r.status.byte ∧ r.word.extractLsb' 0 32 = r.value := by
  constructor
  · ext i hi
    simp only [Response.word, BitVec.getElem_extractLsb']
    grind
  · ext i hi
    simp only [Response.word, BitVec.getElem_extractLsb']
    grind

/-- Settles O15: by the ways in which a command can end; the word and the codes are laid out so. -/
theorem responseValues : Obligations.ResponseValues := by
  refine ⟨fun i s t r ht hr => ?_,
    fun s t r hreset hc ht hr => ⟨fun m hf => ?_, fun n out hf => ?_⟩, word_fields,
    rfl, rfl, rfl, rfl, rfl, rfl, rfl, rfl, rfl, rfl, rfl, rfl, rfl, rfl⟩
  · have hv := (commandEnds_of_exec ht).valueAgrees hr
    cases i with
    | nop | fclr | stCsr | stPlain | stCoded | stFreq => exact hv (.inl rfl)
    | ldCsr | ldPlain | ldCoded | ldRec | ldFreq | ldCode => exact fun hst => hv (.inr hst)
    | hist | build | enc | dec | rdrec | rdex => exact hv
  · exact (response_of_rdrec_answer hreset hf hc ht hr).2
  · exact (response_of_rdex_answer hreset hf hc ht hr).2

end Sys2Proof.Machine

/-! # The invariant (10_state.md sections 4 to 8): it holds after reset and every step keeps it -/

namespace Sys2Proof.Machine

open Config (Params ByteSpace)

/-! ## Memories inside a space (R37, R40) -/

/-- Every address that a memory lists is below a bound. -/
abbrev Memory.Inside (m : Memory) (n : Nat) : Prop := ∀ c ∈ m, c.1 < n

theorem Memory.Inside.write {m : Memory} {n a : Nat} (h : m.Inside n) (ha : a < n) (b : Byte) :
    (m.write a b).Inside n := by
  intro c hc
  rcases Memory.mem_write hc with rfl | hm
  · exact ha
  · exact h c hm

theorem Memory.Inside.writePrefix {m : Memory} {n : Nat} (h : m.Inside n) {bs : List Byte}
    (hbs : bs.length ≤ n) : (m.writePrefix bs).Inside n := by
  intro c hc
  rcases Memory.mem_writePrefix hc with hlt | hm
  · exact hlt.trans_le hbs
  · exact h c hm

theorem Memory.Inside.lose {m : Memory} {n : Nat} (h : m.Inside n) (tick : Nat) (sp : ByteSpace) :
    (m.lose tick sp).Inside n := by
  intro c hc
  obtain ⟨c', hc', haddr⟩ := Memory.mem_lose hc
  exact haddr ▸ h c' hc'

theorem toNat_ofNat_le {n k : Nat} (h : n ≤ k) : (BitVec.ofNat 32 n).toNat ≤ k :=
  (Nat.mod_le ..).trans h

/-! ## What keeps the invariant -/

namespace State.Inv

variable {s : State}

/-- No rule restricts `FREQ`. -/
theorem setFreq (h : s.Inv) (freq : Vector Word 256) : State.Inv { s with freq := freq } :=
  { h with }

/-- No rule restricts `COUNT`. -/
theorem setCount (h : s.Inv) (v : Word) : State.Inv { s with count := v } := { h with }

/-- No rule restricts `PAYOFF`. -/
theorem setPayoff (h : s.Inv) (v : Word) : State.Inv { s with payoff := v } := { h with }

/-- No rule restricts what the ports have still to say, nor the model's counter. -/
theorem setPorts (h : s.Inv) (cmds : List CmdWord) (chan : List ChanAnswer) (tick : Nat) :
    State.Inv { s with cmds := cmds, chan := chan, tick := tick } := { h with }

theorem setPlen (h : s.Inv) {v : Word} (hv : v.toNat ≤ s.params.plainCap) :
    State.Inv { s with plen := v } :=
  { h with plen_le := hv }

theorem setClen (h : s.Inv) {v : Word} (hv : v.toNat ≤ s.params.codedCap) :
    State.Inv { s with clen := v } :=
  { h with clen_le := hv }

theorem setRlen (h : s.Inv) {v : Word} (hv : v.toNat ≤ s.params.fbCap) :
    State.Inv { s with rlen := v } :=
  { h with rlen_le := hv }

theorem setPlain (h : s.Inv) {m : Memory} (hwf : m.wf) (hin : m.Inside s.params.plainCap) :
    State.Inv { s with plain := m } :=
  { h with plain_wf := hwf, plain_inside := hin }

theorem setCoded (h : s.Inv) {m : Memory} (hwf : m.wf) (hin : m.Inside s.params.codedCap) :
    State.Inv { s with coded := m } :=
  { h with coded_wf := hwf, coded_inside := hin }

theorem writePlain (h : s.Inv) {bs : List Byte} (hbs : bs.length ≤ s.params.plainCap) :
    State.Inv { s with plain := s.plain.writePrefix bs } :=
  h.setPlain (Memory.writePrefix_wf h.plain_wf bs) (Memory.Inside.writePrefix h.plain_inside hbs)

theorem writeCoded (h : s.Inv) {bs : List Byte} (hbs : bs.length ≤ s.params.codedCap) :
    State.Inv { s with coded := s.coded.writePrefix bs } :=
  h.setCoded (Memory.writePrefix_wf h.coded_wf bs) (Memory.Inside.writePrefix h.coded_inside hbs)

theorem writeRecord (h : s.Inv) {bs : List Byte} (hbs : bs.length ≤ s.params.fbCap) :
    State.Inv { s with record := s.record.writePrefix bs } :=
  { h with
    record_wf := Memory.writePrefix_wf h.record_wf bs
    record_inside := Memory.Inside.writePrefix h.record_inside hbs }

/-- No tree, and the registers and the table of no tree (R34). -/
theorem discardTree (h : s.Inv) : (Machine.discardTree s).Inv :=
  { h with
    tv_tree := rfl, sl_tree := rfl, rootw_tree := rfl, nnodes_tree := rfl
    nodes_le := Nat.zero_le _, tags_negative := rfl, code_tree := rfl }

/-- A tree that fits, with its registers and its table (R25, R29, R32). -/
theorem setTree (h : s.Inv) {root : CodeNode} (hnodes : root.nodes ≤ 511)
    (hneg : root.negativeTags = true) :
    State.Inv { s with
      tree := some root, code := assignCodes root, tv := true, sl := root.isLeaf
      rootw := root.weight, nnodes := BitVec.ofNat 32 root.nodes } :=
  { h with
    tv_tree := rfl, sl_tree := rfl, rootw_tree := rfl, nnodes_tree := rfl
    nodes_le := hnodes, tags_negative := by simpa using hneg, code_tree := rfl }

/-- With nothing in flight, `FB` may hold any bytes that fit it (R35). -/
theorem setFb (h : s.Inv) (hf : s.flight = none) {fb : List Byte}
    (hfb : fb.length ≤ s.params.fbCap) : State.Inv { s with fb := fb } :=
  { h with
    fb_le := hfb
    flight_waits := fun f hf' => by cases hf.symm.trans hf' }

/-- A command that is in flight no more: any response may stand on the port (R17). -/
theorem endFlight (h : s.Inv) (resp : Option Response) :
    State.Inv { s with flight := none, resp := resp } :=
  { h with
    flight_waits := fun f hf => by cases hf
    flight_silent := fun hf => by cases hf }

/-- A pull by a command that waits for something (R105). -/
theorem openPull (h : s.Inv) {f : Flight} (hf : flightWaits s f) : (Machine.openPull f s).Inv :=
  { h with
    flight_waits := fun f' hf' => by
      cases hf'
      exact hf
    flight_silent := fun _ => rfl }

/-- With nothing in flight, a response changes nothing that the invariant speaks of. -/
theorem respond (h : s.Inv) (hf : s.flight = none) (st : Status) (v : Word) :
    (Machine.respond st v s).Inv := by
  have hend := h.endFlight (some ⟨st, v⟩)
  rwa [← hf] at hend

theorem finish (h : s.Inv) (hf : s.flight = none) (st : Status) (v : Word) :
    (Machine.finish st v s).Inv := { h.respond hf st v with }

theorem failEnc (h : s.Inv) (hf : s.flight = none) (st : Status) : (Machine.failEnc st s).Inv :=
  (((h.setClen (v := 0) (Nat.zero_le _)).setCoded (Memory.lose_wf h.coded_wf _ _)
    (Memory.Inside.lose h.coded_inside _ _)).discardTree).finish hf st 0

theorem failDec (h : s.Inv) (hf : s.flight = none) (st : Status) : (Machine.failDec st s).Inv :=
  (((h.setPlen (v := 0) (Nat.zero_le _)).setPlain (Memory.lose_wf h.plain_wf _ _)
    (Memory.Inside.lose h.plain_inside _ _)).discardTree).finish hf st 0

theorem deliverRecord (h : s.Inv) {out fb : List Byte} (hout : out.length ≤ s.params.fbCap)
    (hfb : fb.length ≤ s.params.fbCap) (st : Status) : (Machine.deliverRecord st out fb s).Inv :=
  ((((h.endFlight none).writeRecord hout).setRlen (toNat_ofNat_le hout)).setFb rfl hfb).finish rfl
    st _

theorem deliverExact (h : s.Inv) {out : List Byte} (hout : out.length ≤ s.params.codedCap)
    (st : Status) : (Machine.deliverExact st out s).Inv :=
  (((h.endFlight none).writeCoded hout).setClen (toNat_ofNat_le hout)).finish rfl st _

end State.Inv

/-! ## After reset -/

theorem inv_resetWith (p : Params) : (State.resetWith p).Inv where
  plain_wf := List.Pairwise.nil
  coded_wf := List.Pairwise.nil
  record_wf := List.Pairwise.nil
  plain_inside := fun _ hc => by cases hc
  coded_inside := fun _ hc => by cases hc
  record_inside := fun _ hc => by cases hc
  plen_le := Nat.zero_le _
  clen_le := Nat.zero_le _
  rlen_le := Nat.zero_le _
  fb_le := Nat.zero_le _
  tv_tree := rfl
  sl_tree := rfl
  rootw_tree := rfl
  nnodes_tree := rfl
  nodes_le := Nat.zero_le _
  tags_negative := rfl
  code_tree := rfl
  flight_waits := fun _ hf => by cases hf
  flight_silent := fun hf => by cases hf

/-- Settles O9: everything is empty, zero or absent. -/
theorem invariantHoldsAfterReset : Obligations.InvariantHoldsAfterReset := inv_resetWith

theorem inv_takeReset (s : State) : (takeReset s).Inv := { inv_resetWith s.params with }

/-! ## Commands and channel answers -/

/-- A pass of `RDREC`'s loop keeps the invariant, from the state in which nothing is in flight. -/
theorem RecordEnds.inv {m : Nat} {s t : State} (h : RecordEnds m s t)
    (hinv : State.Inv { s with flight := none, resp := none }) (hm : m ≤ s.params.fbCap) :
    t.Inv := by
  cases h with
  | delivers _ hsplit =>
    have hlength := congrArg List.length hsplit
    have hfb := hinv.fb_le
    simp only [List.length_append] at hlength hfb
    exact hinv.deliverRecord (by simp only; omega) (by simp only; omega) _
  | pulls hno hlt => exact hinv.openPull (f := .rdrec m) ⟨hm, hlt, hno⟩

/-- A pass of `RDEX`'s loop keeps the invariant, from the state in which nothing is in flight. -/
theorem ExactEnds.inv {n : Nat} {out : List Byte} {s t : State} (h : ExactEnds n out s t)
    (hinv : State.Inv { s with flight := none, resp := none }) (hn : n ≤ s.params.codedCap)
    (hout : out.length ≤ n) (hfb : out.length < n → s.fb = []) : t.Inv := by
  cases h with
  | delivers => exact hinv.deliverExact (hout.trans hn) _
  | pulls hlt => exact hinv.openPull (f := .rdex n out) ⟨hn, hlt, hfb hlt⟩

/-- `RDEX` pulls only with `FB` drained (R118). -/
theorem drop_eq_nil_of_short_take {fb : List Byte} {n : Nat} (h : (fb.take n).length < n) :
    fb.drop n = [] := by
  rw [List.length_take] at h
  exact List.drop_eq_nil_of_le (by omega)

theorem CommandEnds.inv {i : Instr} {s t : State} (h : CommandEnds s i t) (hinv : s.Inv)
    (hf : s.flight = none) : t.Inv := by
  cases h with
  | zeroResponse => exact hinv.respond hf _ _
  | load => exact hinv.respond hf _ _
  | storePlen hle => exact (hinv.setPlen hle).respond hf _ _
  | storeClen hle => exact (hinv.setClen hle).respond hf _ _
  | @storeCount a d => exact (hinv.setCount d).respond hf _ _
  | @storeFreq a d freq => exact (hinv.setFreq freq).respond hf _ _
  | storePlain ha =>
    exact (hinv.setPlain (Memory.write_wf hinv.plain_wf _ _)
      (Memory.Inside.write hinv.plain_inside ha _)).respond hf _ _
  | storeCoded ha =>
    exact (hinv.setCoded (Memory.write_wf hinv.coded_wf _ _)
      (Memory.Inside.write hinv.coded_inside ha _)).respond hf _ _
  | @hist freq => exact ((hinv.setFreq freq).setCount s.plen).finish hf _ _
  | buildFails => exact hinv.discardTree.finish hf _ _
  | buildNone => exact hinv.discardTree.finish hf _ _
  | buildTree hq =>
    have htree := hinv.discardTree.setTree (nodes_treeOf_seedQueue_le hq)
      (negativeTags_treeOf_seedQueue hq)
    rw [nodes_treeOf_seedQueue hq, ← length_of_seedQueue hq] at htree
    exact htree.finish hf _ _
  | encEmpty =>
    obtain ⟨-, ⟨hcap, -⟩, -⟩ := s.params.bounds
    have hwritten := ((hinv.setPayoff 4).setClen (v := 4) hcap).writeCoded (bs := be32 0) hcap
    exact hwritten.discardTree.finish hf _ _
  | encFails => exact (hinv.setPayoff 0).failEnc hf _
  | @encWrites buffer p hle =>
    have hwritten := ((hinv.setPayoff p).setClen (toNat_ofNat_le hle)).writeCoded hle
    exact hwritten.discardTree.finish hf _ _
  | @decFails st p => exact (hinv.discardTree.setPayoff p).failDec hf _
  | decEmpty =>
    exact ((hinv.discardTree.setPayoff 4).setPlen (v := 0) (Nat.zero_le _)).finish hf _ _
  | @decEmits len p out hlen hle =>
    have hwritten := ((hinv.setPayoff p).setPlen hle).writePlain (hlen.trans_le hle)
    exact hwritten.discardTree.finish hf _ _
  | fclr => exact (hinv.setFb (fb := []) hf (Nat.zero_le _)).finish hf _ _
  | rdrecBadArg => exact hinv.finish hf _ _
  | rdrec hm hends => exact hends.inv (hinv.endFlight none) hm
  | rdexBadArg => exact hinv.finish hf _ _
  | rdex hn hends =>
    refine hends.inv ((hinv.setFb hf ?_).endFlight none) hn (List.length_take_le _ _)
      drop_eq_nil_of_short_take
    rw [List.length_drop]
    exact (Nat.sub_le _ _).trans hinv.fb_le

theorem length_answerBytes_le {r : Nat} {ans : ChanAnswer} (h : answerLegal r ans = true) :
    (answerBytes ans).length ≤ r := by
  cases ans with
  | data c => exact (answerLegal_data.1 h).2
  | closed => exact Nat.zero_le r
  | error => exact Nat.zero_le r

/-- A legal channel answer keeps the invariant (R20, R105). -/
theorem inv_answerFlight {s : State} {f : Flight} {ans : ChanAnswer} (hinv : s.Inv)
    (hf : s.flight = some f) (hlegal : answerLegal (pullSize s f) ans = true) :
    (answerFlight f ans s).Inv := by
  have hwaits := hinv.flight_waits f hf
  have hbytes := length_answerBytes_le hlegal
  cases f with
  | rdrec m =>
    obtain ⟨hm, -, -⟩ := hwaits
    have hfb := hinv.fb_le
    refine (answerRecord_ends m ans s).inv ((hinv.endFlight none).setFb rfl ?_) hm
    simp only [List.length_append, pullSize] at hbytes ⊢
    omega
  | rdex n out =>
    obtain ⟨hn, hlt, hfb⟩ := hwaits
    refine (answerExact_ends n out ans s).inv (hinv.endFlight none) hn ?_ fun _ => hfb
    simp only [List.length_append, pullSize] at hbytes ⊢
    omega

/-- Settles O10: by what a step can do; commands run with nothing in flight. -/
theorem everyStepKeepsTheInvariant : Obligations.EveryStepKeepsTheInvariant := by
  intro s t hinv ht
  have hports (cmds : List CmdWord) (chan : List ChanAnswer) := hinv.setPorts cmds chan (s.tick + 1)
  rcases step_cases s with ⟨-, h⟩ | ⟨-, -, -, h⟩ | ⟨-, f, ans, rest, hf, -, h⟩ | ⟨-, -, -, h⟩ |
    ⟨-, hf, w, rest, -, h⟩
  · cases h.symm.trans ht
    exact inv_takeReset s
  · cases h.symm.trans ht
    exact hinv
  · rw [h] at ht
    rcases channelAnswer_cases f ans (takeAnswer rest s) with ⟨hlegal, hans⟩ | ⟨-, hans⟩
    · cases hans.symm.trans ht
      exact inv_answerFlight (hports s.cmds rest) hf hlegal
    · cases hans.symm.trans ht
  · cases h.symm.trans ht
    exact hinv
  · rw [h] at ht
    cases hdecode : decode w with
    | ok i =>
      rw [runWord_ok hdecode] at ht
      exact (commandEnds_of_exec ht).inv (hports rest s.chan) hf
    | error e =>
      cases (runWord_error hdecode _).symm.trans ht
      exact (hports rest s.chan).respond hf _ _

end Sys2Proof.Machine

/-! # The channel's bytes (20_memory.md section 6, R53, R115): their order, and how they are cut -/

namespace Sys2Proof.Machine

/-! ## No byte is dropped, repeated or moved (R53) -/

/-- Of the bytes `bs`, `t` has delivered the first ones and holds the others (R53). -/
def DeliversInOrder (bs : List Byte) (t : State) : Prop :=
  ∃ delivered : List Byte, delivered ++ t.held = bs ∧
    (delivered = [] ∨
      ∃ r, t.resp = some r ∧ r.value = BitVec.ofNat 32 delivered.length ∧
        (t.record.Holds delivered ∨ t.coded.Holds delivered))

theorem held_of_idle {s : State} (h : s.flight = none) : s.held = s.fb := by
  rw [State.held, h]

theorem held_of_rdrec {s : State} {m : Nat} (h : s.flight = some (.rdrec m)) : s.held = s.fb := by
  rw [State.held, h]

theorem held_of_rdex {s : State} {n : Nat} {out : List Byte} (h : s.flight = some (.rdex n out)) :
    s.held = out ++ s.fb := by
  rw [State.held, h]

/-- A state that delivers nothing and holds the bytes. -/
theorem DeliversInOrder.of_held {bs : List Byte} {t : State} (h : t.held = bs) :
    DeliversInOrder bs t := ⟨[], h, .inl rfl⟩

theorem RecordEnds.deliversInOrder {m : Nat} {s t : State} (h : RecordEnds m s t) :
    DeliversInOrder s.fb t := by
  cases h with
  | @delivers st out fb _ hsplit =>
    exact ⟨out, hsplit, .inr ⟨_, rfl, rfl, .inl (Memory.holds_writePrefix s.record out)⟩⟩
  | pulls => exact .of_held rfl

theorem ExactEnds.deliversInOrder {n : Nat} {out : List Byte} {s t : State}
    (h : ExactEnds n out s t) : DeliversInOrder (out ++ s.fb) t := by
  cases h with
  | delivers =>
    exact ⟨out, rfl, .inr ⟨_, rfl, rfl, .inr (Memory.holds_writePrefix s.coded out)⟩⟩
  | pulls => exact .of_held rfl

theorem RecordEnds.chan_eq {m : Nat} {s t : State} (h : RecordEnds m s t) : t.chan = s.chan := by
  cases h <;> rfl

theorem ExactEnds.chan_eq {n : Nat} {out : List Byte} {s t : State} (h : ExactEnds n out s t) :
    t.chan = s.chan := by
  cases h <;> rfl

/-- Every command but `FCLR` keeps the bytes it holds, or delivers the first of them. -/
theorem CommandEnds.deliversInOrder {i : Instr} {s t : State} (h : CommandEnds s i t)
    (hf : s.flight = none) (hi : i ≠ .fclr) : DeliversInOrder s.fb t ∧ t.chan = s.chan := by
  cases h with
  | fclr => exact absurd rfl hi
  | rdrec _ hends => exact ⟨hends.deliversInOrder, hends.chan_eq⟩
  | rdex _ hends =>
    refine ⟨?_, hends.chan_eq⟩
    have horder := hends.deliversInOrder
    rwa [List.take_append_drop] at horder
  | zeroResponse | load | storePlen | storeClen | storeCount | storePlain | storeCoded | storeFreq
  | hist | buildFails | buildNone | buildTree | encEmpty | encFails | encWrites | decFails
  | decEmpty | decEmits | rdrecBadArg | rdexBadArg => exact ⟨.of_held (held_of_idle hf), rfl⟩

theorem channelBytes_cons (ans : ChanAnswer) (rest : List ChanAnswer) :
    channelBytes (ans :: rest) = answerBytes ans ++ channelBytes rest := by
  cases ans <;> rfl

/-- The bytes of a channel answer come behind those held (R53, R122). -/
theorem deliversInOrder_answerFlight {s : State} {f : Flight} (hf : s.flight = some f)
    (hwaits : flightWaits s f) (ans : ChanAnswer) :
    DeliversInOrder (s.held ++ answerBytes ans) (answerFlight f ans s) ∧
      (answerFlight f ans s).chan = s.chan := by
  cases f with
  | rdrec m =>
    have hends := answerRecord_ends m ans s
    rw [held_of_rdrec hf]
    exact ⟨hends.deliversInOrder, hends.chan_eq⟩
  | rdex n out =>
    have hends := answerExact_ends n out ans s
    obtain ⟨-, -, hfb⟩ := hwaits
    have horder := hends.deliversInOrder
    rw [hfb, List.append_nil] at horder
    rw [held_of_rdex hf, hfb, List.append_nil]
    exact ⟨horder, hends.chan_eq⟩

theorem DeliversInOrder.exists_delivered {bs : List Byte} {s t : State} (h : DeliversInOrder bs t)
    (hbytes : bs ++ channelBytes t.chan = s.held ++ channelBytes s.chan) :
    ∃ delivered : List Byte,
      delivered ++ (t.held ++ channelBytes t.chan) = s.held ++ channelBytes s.chan ∧
      (delivered = [] ∨
        ∃ r, t.resp = some r ∧ r.value = BitVec.ofNat 32 delivered.length ∧
          (t.record.Holds delivered ∨ t.coded.Holds delivered)) := by
  obtain ⟨delivered, hsplit, hresp⟩ := h
  exact ⟨delivered, by rw [← List.append_assoc, hsplit, hbytes], hresp⟩

/-- Settles O52: by what a step can do; the bytes of an answer come behind those held. -/
theorem channelBytesKeepTheirOrder : Obligations.ChannelBytesKeepTheirOrder := by
  intro s t hinv hr hclear ht
  rcases step_cases s with ⟨hreset, -⟩ | ⟨-, -, -, h⟩ | ⟨-, f, ans, rest, hf, hc, h⟩ |
    ⟨-, -, -, h⟩ | ⟨-, hf, w, rest, hw, h⟩
  · cases hr.symm.trans hreset
  · cases h.symm.trans ht
    exact (DeliversInOrder.of_held rfl).exists_delivered rfl
  · cases step_of_answer_next hr hf hc ht
    obtain ⟨horder, hchan⟩ := deliversInOrder_answerFlight (s := takeAnswer rest s) hf
      (hinv.flight_waits f hf) ans
    refine horder.exists_delivered ?_
    rw [hchan, hc, channelBytes_cons, ← List.append_assoc]
    rfl
  · cases h.symm.trans ht
    exact (DeliversInOrder.of_held rfl).exists_delivered rfl
  · rw [h] at ht
    have hheld := held_of_idle hf
    cases hdecode : decode w with
    | ok i =>
      rw [runWord_ok hdecode] at ht
      have hi : i ≠ .fclr := by
        rintro rfl
        exact hclear w rest hf hw hdecode
      obtain ⟨horder, hchan⟩ := (commandEnds_of_exec ht).deliversInOrder hf hi
      refine horder.exists_delivered ?_
      rw [hchan, hheld]
      rfl
    | error e =>
      cases (runWord_error hdecode _).symm.trans ht
      exact (DeliversInOrder.of_held (t := respond .illegal 0 (acceptCommand rest s))
        (held_of_idle hf)).exists_delivered (by rw [hheld]; rfl)

/-! ## Deliveries as a function of the channel's stream (R115)

What `RDREC` and `RDEX` deliver is read off the stream of events held and still to come, one event
at a time; the cuts between chunks are not in the stream. -/

/-- How one command is served by a stream: its status, the bytes delivered, and the stream left. -/
structure Served where
  status : Status
  out : List Byte
  rest : List ChanEvent

/-- `RDREC`, with `out` taken from the stream so far (R109). A stream that ends early serves
nothing; no completed command meets that case. -/
def serveRecord (m : Nat) (out : List Byte) (evs : List ChanEvent) : Served :=
  if m ≤ out.length then ⟨.noTerm, out, evs⟩
  else
    match evs with
    | [] => ⟨.ok, [], []⟩
    | .byte b :: evs =>
      if b = terminator then ⟨.ok, out ++ [b], evs⟩ else serveRecord m (out ++ [b]) evs
    | .closed :: evs => ⟨if out = [] then .closed else .short, out, evs⟩
    | .error :: evs => ⟨.chanErr, [], out.map .byte ++ evs⟩

/-- `RDEX`, with `out` taken from the stream so far (R118). -/
def serveExact (n : Nat) (out : List Byte) (evs : List ChanEvent) : Served :=
  if n ≤ out.length then ⟨.ok, out, evs⟩
  else
    match evs with
    | [] => ⟨.ok, [], []⟩
    | .byte b :: evs => serveExact n (out ++ [b]) evs
    | .closed :: evs => ⟨if out = [] then .closed else .short, out, evs⟩
    | .error :: evs => ⟨.chanErr, out, evs⟩

section
variable {m n : Nat} {out : List Byte} {evs : List ChanEvent}

theorem serveRecord_full (h : m ≤ out.length) : serveRecord m out evs = ⟨.noTerm, out, evs⟩ := by
  rw [serveRecord.eq_def, if_pos h]

theorem serveRecord_terminator (h : out.length < m) :
    serveRecord m out (.byte terminator :: evs) = ⟨.ok, out ++ [terminator], evs⟩ := by
  rw [serveRecord, if_neg (Nat.not_le.2 h), if_pos rfl]

theorem serveRecord_byte {b : Byte} (h : out.length < m) (hb : b ≠ terminator) :
    serveRecord m out (.byte b :: evs) = serveRecord m (out ++ [b]) evs := by
  rw [serveRecord, if_neg (Nat.not_le.2 h), if_neg hb]

theorem serveRecord_closed (h : out.length < m) :
    serveRecord m out (.closed :: evs) = ⟨if out = [] then .closed else .short, out, evs⟩ := by
  rw [serveRecord, if_neg (Nat.not_le.2 h)]

theorem serveRecord_error (h : out.length < m) :
    serveRecord m out (.error :: evs) = ⟨.chanErr, [], out.map .byte ++ evs⟩ := by
  rw [serveRecord, if_neg (Nat.not_le.2 h)]

/-- `RDREC` takes bytes without a terminator as long as there are not more than `max_len`. -/
theorem serveRecord_bytes {bs : List Byte} (hno : terminator ∉ bs)
    (hlen : out.length + bs.length ≤ m) :
    serveRecord m out (bs.map .byte ++ evs) = serveRecord m (out ++ bs) evs := by
  induction bs generalizing out with
  | nil => rw [List.append_nil, List.map_nil, List.nil_append]
  | cons b bs ih =>
    obtain ⟨hb, hbs⟩ := not_or.1 (mt List.mem_cons.2 hno)
    rw [List.length_cons] at hlen
    rw [List.map_cons, List.cons_append, serveRecord_byte (by omega) (Ne.symm hb),
      ih hbs (by rw [List.length_append, List.length_singleton]; omega), List.append_assoc,
      List.singleton_append]

theorem serveExact_full (h : n ≤ out.length) : serveExact n out evs = ⟨.ok, out, evs⟩ := by
  rw [serveExact.eq_def, if_pos h]

theorem serveExact_byte {b : Byte} (h : out.length < n) :
    serveExact n out (.byte b :: evs) = serveExact n (out ++ [b]) evs := by
  rw [serveExact, if_neg (Nat.not_le.2 h)]

theorem serveExact_closed (h : out.length < n) :
    serveExact n out (.closed :: evs) = ⟨if out = [] then .closed else .short, out, evs⟩ := by
  rw [serveExact, if_neg (Nat.not_le.2 h)]

theorem serveExact_error (h : out.length < n) :
    serveExact n out (.error :: evs) = ⟨.chanErr, out, evs⟩ := by
  rw [serveExact, if_neg (Nat.not_le.2 h)]

/-- `RDEX` takes bytes as long as there are not more than `n`. -/
theorem serveExact_bytes {bs : List Byte} (hlen : out.length + bs.length ≤ n) :
    serveExact n out (bs.map .byte ++ evs) = serveExact n (out ++ bs) evs := by
  induction bs generalizing out with
  | nil => rw [List.append_nil, List.map_nil, List.nil_append]
  | cons b bs ih =>
    rw [List.length_cons] at hlen
    rw [List.map_cons, List.cons_append, serveExact_byte (by omega),
      ih (by rw [List.length_append, List.length_singleton]; omega), List.append_assoc,
      List.singleton_append]

end

/-! ## What a run comes to -/

/-- The stream held and still to come. -/
def State.stream (s : State) : List ChanEvent := s.held.map .byte ++ channelEvents s.chan

/-- The state without what the cuts of the channel's stream show in: `FB`, the command in flight,
the ports and the counter. -/
def State.settled (s : State) : State :=
  { s with fb := [], flight := none, cmds := [], chan := [], tick := 0 }

/-- The end of an `RDREC` that is served so. -/
def endRecord (r : Served) (s : State) : State × List ChanEvent :=
  (deliverRecord r.status r.out [] s, r.rest)

/-- The end of an `RDEX` that is served so. -/
def endExact (r : Served) (s : State) : State × List ChanEvent :=
  (deliverExact r.status r.out s, r.rest)

/-- What a word comes to, by the stream. -/
def serveWord (x : State × List ChanEvent) (w : CmdWord) : State × List ChanEvent :=
  match decode w with
  | .ok (.rdrec m) =>
    if x.1.params.fbCap < m then (finish .badArg 0 x.1, x.2)
    else endRecord (serveRecord m [] x.2) x.1
  | .ok (.rdex n) =>
    if x.1.params.codedCap < n then (finish .badArg 0 x.1, x.2)
    else endExact (serveExact n [] x.2) x.1
  | _ => x

/-- What the command in flight comes to, by the stream. -/
def serveFlight (s : State) : State × List ChanEvent :=
  match s.flight with
  | none => (s.settled, s.stream)
  | some (.rdrec m) => endRecord (serveRecord m [] s.stream) s.settled
  | some (.rdex n _) => endExact (serveExact n [] s.stream) s.settled

/-- What a run from the state comes to, if it completes, by the stream. -/
def outcome (s : State) : State × List ChanEvent := s.cmds.foldl serveWord (serveFlight s)

/-! ## A step keeps what the run comes to -/

section
variable {m n : Nat} {s : State}

theorem serveFlight_deliverRecord (st : Status) (out fb : List Byte) (s : State) :
    serveFlight (deliverRecord st out fb s) =
      endRecord ⟨st, out, fb.map .byte ++ channelEvents s.chan⟩ s.settled := rfl

theorem serveFlight_pull_rdrec (m : Nat) (s : State) :
    serveFlight (openPull (.rdrec m) s) =
      endRecord (serveRecord m [] (s.fb.map .byte ++ channelEvents s.chan)) s.settled := rfl

theorem serveFlight_deliverExact (st : Status) (out : List Byte) (s : State) :
    serveFlight (deliverExact st out s) =
      endExact ⟨st, out, s.fb.map .byte ++ channelEvents s.chan⟩ s.settled := rfl

theorem serveFlight_pull_rdex (n : Nat) (out : List Byte) (s : State) :
    serveFlight (openPull (.rdex n out) s) =
      endExact (serveExact n [] ((out ++ s.fb).map .byte ++ channelEvents s.chan)) s.settled := rfl

theorem serveFlight_of_rdrec (hf : s.flight = some (.rdrec m)) :
    serveFlight s =
      endRecord (serveRecord m [] (s.fb.map .byte ++ channelEvents s.chan)) s.settled := by
  rw [serveFlight, hf, State.stream, held_of_rdrec hf]

theorem serveFlight_of_rdex {out : List Byte} (hf : s.flight = some (.rdex n out)) :
    serveFlight s =
      endExact (serveExact n [] ((out ++ s.fb).map .byte ++ channelEvents s.chan)) s.settled := by
  rw [serveFlight, hf, State.stream, held_of_rdex hf]

/-- A pass of `RDREC`'s loop does what the stream says, or leaves it to be done (R109). -/
theorem serveFlight_scanRecord (m : Nat) (s : State) :
    serveFlight (scanRecord m s) =
      endRecord (serveRecord m [] (s.fb.map .byte ++ channelEvents s.chan)) s.settled := by
  rcases scanRecord_cases m s with ⟨i, him, hilen, hget, hno, h⟩ | ⟨hno, hle, h⟩ | ⟨-, -, h⟩
  · obtain ⟨hi, hterm⟩ := List.getElem?_eq_some_iff.1 hget
    have htake : s.fb.take (i + 1) = s.fb.take i ++ [terminator] := by
      rw [List.take_add_one, hget, Option.toList_some]
    have hlength : (s.fb.take i).length = i := List.length_take_of_le hi.le
    have hserve : serveRecord m [] (s.fb.map .byte ++ channelEvents s.chan) =
        ⟨.ok, s.fb.take (i + 1), (s.fb.drop (i + 1)).map .byte ++ channelEvents s.chan⟩ := by
      conv_lhs => rw [← List.take_append_drop (i + 1) s.fb, htake, List.append_assoc,
        List.map_append, List.append_assoc]
      rw [serveRecord_bytes hno (by simpa [hlength] using him.le)]
      exact (serveRecord_terminator (by simpa [hlength] using him)).trans (by rw [htake]; rfl)
    rw [h, serveFlight_deliverRecord, hserve]
  · have hlength : (s.fb.take m).length = m := List.length_take_of_le hle
    have hserve : serveRecord m [] (s.fb.map .byte ++ channelEvents s.chan) =
        ⟨.noTerm, s.fb.take m, (s.fb.drop m).map .byte ++ channelEvents s.chan⟩ := by
      conv_lhs => rw [← List.take_append_drop m s.fb, List.map_append, List.append_assoc]
      rw [serveRecord_bytes hno (by simp [hlength])]
      exact serveRecord_full hlength.ge
    rw [h, serveFlight_deliverRecord, hserve]
  · rw [h, serveFlight_pull_rdrec]

/-- A channel answer does to a waiting `RDREC` what the stream says (R109, R112, R113). -/
theorem serveFlight_answerRecord (hno : terminator ∉ s.fb) (hlt : s.fb.length < m)
    (ans : ChanAnswer) :
    serveFlight (answerRecord m ans s) =
      endRecord (serveRecord m [] (s.fb.map .byte ++ channelEvents (ans :: s.chan))) s.settled := by
  have hbytes (evs : List ChanEvent) :
      serveRecord m [] (s.fb.map .byte ++ evs) = serveRecord m s.fb evs :=
    serveRecord_bytes hno (by simpa using hlt.le)
  cases ans with
  | data c =>
    rw [channelEvents, ← List.append_assoc, ← List.map_append]
    exact serveFlight_scanRecord m { s with fb := s.fb ++ c }
  | closed =>
    rw [channelEvents, hbytes, serveRecord_closed hlt, answerRecord]
    by_cases hfb : s.fb = []
    · rw [if_pos hfb, if_pos hfb, hfb, serveFlight_deliverRecord]
      rfl
    · rw [if_neg hfb, if_neg hfb, serveFlight_deliverRecord]
      rfl
  | error =>
    rw [channelEvents, hbytes, serveRecord_error hlt, answerRecord, serveFlight_deliverRecord]

/-- A pass of `RDEX`'s loop does what the stream says, or leaves it to be done (R118). -/
theorem serveFlight_scanExact {out : List Byte} (hle : out.length ≤ n) :
    serveFlight (scanExact n out s) =
      endExact (serveExact n [] ((out ++ s.fb).map .byte ++ channelEvents s.chan)) s.settled := by
  rcases scanExact_cases n out s with ⟨hfull, h⟩ | ⟨-, h⟩
  · rw [h, List.map_append, List.append_assoc, serveExact_bytes (by simpa using hle),
      List.nil_append, serveExact_full hfull, serveFlight_deliverExact]
  · rw [h, serveFlight_pull_rdex]

/-- A channel answer does to a waiting `RDEX` what the stream says (R118, R119). -/
theorem serveFlight_answerExact {out : List Byte} (hfb : s.fb = []) (hlt : out.length < n)
    {ans : ChanAnswer} (hle : (out ++ answerBytes ans).length ≤ n) :
    serveFlight (answerExact n out ans s) =
      endExact (serveExact n [] (out.map .byte ++ channelEvents (ans :: s.chan))) s.settled := by
  have hbytes (evs : List ChanEvent) :
      serveExact n [] (out.map .byte ++ evs) = serveExact n out evs :=
    serveExact_bytes (by simpa using hlt.le)
  cases ans with
  | data c =>
    have hscan := serveFlight_scanExact (s := s) (out := out ++ c) hle
    rw [hfb, List.append_nil, List.map_append, List.append_assoc] at hscan
    rw [channelEvents]
    exact hscan
  | closed =>
    rw [channelEvents, hbytes, serveExact_closed hlt, answerExact, serveFlight_deliverExact, hfb]
    rfl
  | error =>
    rw [channelEvents, hbytes, serveExact_error hlt, answerExact, serveFlight_deliverExact, hfb]
    rfl

end

/-- A word is `RDREC` or `RDEX`: the commands that R115 speaks of. -/
abbrev DeliveryWord (w : CmdWord) : Prop :=
  ∃ m, decode w = .ok (.rdrec m) ∨ decode w = .ok (.rdex m)

/-- A machine that runs delivery commands alone, and waits only for what it does not have. -/
structure Serving (s : State) : Prop where
  resetIn : s.resetIn = false
  words : ∀ w ∈ s.cmds, DeliveryWord w
  waits : ∀ f, s.flight = some f → flightWaits s f

theorem RecordEnds.serving {m : Nat} {s t : State} (h : RecordEnds m s t) (hr : s.resetIn = false)
    (hw : ∀ w ∈ s.cmds, DeliveryWord w) (hm : m ≤ s.params.fbCap) : Serving t := by
  cases h with
  | delivers => exact ⟨hr, hw, fun f hf => by cases hf⟩
  | pulls hno hlt =>
    refine ⟨hr, hw, fun f hf => ?_⟩
    cases hf
    exact ⟨hm, hlt, hno⟩

theorem ExactEnds.serving {n : Nat} {out : List Byte} {s t : State} (h : ExactEnds n out s t)
    (hr : s.resetIn = false) (hw : ∀ w ∈ s.cmds, DeliveryWord w) (hn : n ≤ s.params.codedCap)
    (hfb : out.length < n → s.fb = []) : Serving t := by
  cases h with
  | delivers => exact ⟨hr, hw, fun f hf => by cases hf⟩
  | pulls hlt =>
    refine ⟨hr, hw, fun f hf => ?_⟩
    cases hf
    exact ⟨hn, hlt, hfb hlt⟩

theorem outcome_of_idle {s : State} (hf : s.flight = none) :
    outcome s = s.cmds.foldl serveWord (s.settled, s.stream) := by
  rw [outcome, serveFlight, hf]

/-- An accepted delivery command comes to what its word comes to by the stream (R115). -/
theorem serving_of_word {s t : State} {w : CmdWord} (hr : s.resetIn = false)
    (hw : ∀ w ∈ s.cmds, DeliveryWord w) (hf : s.flight = none) (hword : DeliveryWord w)
    (ht : runWord w s = .next t) :
    Serving t ∧ t.cmds = s.cmds ∧ serveFlight t = serveWord (s.settled, s.stream) w := by
  have hstream : s.stream = s.fb.map .byte ++ channelEvents s.chan := by
    rw [State.stream, held_of_idle hf]
  obtain ⟨m, hdecode | hdecode⟩ := hword
  · rw [runWord_ok hdecode] at ht
    rw [serveWord, hdecode]
    by_cases hm : s.params.fbCap < m
    · cases (exec_rdrec_badArg hm).symm.trans ht
      refine ⟨⟨hr, hw, fun f hf' => by cases hf.symm.trans hf'⟩, rfl, ?_⟩
      simp only [serveFlight, finish_flight, hf]
      exact (if_pos hm).symm
    · rw [Nat.not_lt] at hm
      cases (exec_rdrec hm).symm.trans ht
      have hends := scanRecord_ends m s
      refine ⟨hends.serving hr hw hm, hends.cmds_eq, ?_⟩
      rw [serveFlight_scanRecord, hstream]
      exact (if_neg (Nat.not_lt.2 hm)).symm
  · rw [runWord_ok hdecode] at ht
    rw [serveWord, hdecode]
    by_cases hm : s.params.codedCap < m
    · cases (exec_rdex_badArg hm).symm.trans ht
      refine ⟨⟨hr, hw, fun f hf' => by cases hf.symm.trans hf'⟩, rfl, ?_⟩
      simp only [serveFlight, finish_flight, hf]
      exact (if_pos hm).symm
    · rw [Nat.not_lt] at hm
      cases (exec_rdex hm).symm.trans ht
      have hends := scanExact_ends m (s.fb.take m) { s with fb := s.fb.drop m }
      refine ⟨hends.serving hr hw hm drop_eq_nil_of_short_take, hends.cmds_eq, ?_⟩
      rw [serveFlight_scanExact (List.length_take_le _ _), List.take_append_drop, hstream]
      exact (if_neg (Nat.not_lt.2 hm)).symm

/-- A channel answer brings the command in flight to what the stream says (R115). -/
theorem serving_of_answer {s : State} {f : Flight} {ans : ChanAnswer} {chan : List ChanAnswer}
    (h : Serving s) (hf : s.flight = some f) (hc : s.chan = ans :: chan) (tick : Nat)
    (hlegal : answerLegal (pullSize s f) ans = true) :
    Serving (answerFlight f ans { s with chan := chan, tick := tick }) ∧
      serveFlight (answerFlight f ans { s with chan := chan, tick := tick }) = serveFlight s := by
  have hwaits := h.waits f hf
  cases f with
  | rdrec m =>
    obtain ⟨hm, hlt, hno⟩ := hwaits
    refine ⟨(answerRecord_ends m ans _).serving h.resetIn h.words hm, ?_⟩
    rw [serveFlight_of_rdrec hf, hc]
    exact serveFlight_answerRecord (s := { s with chan := chan, tick := tick }) hno hlt ans
  | rdex n out =>
    obtain ⟨hn, hlt, hfb⟩ := hwaits
    have hle : (out ++ answerBytes ans).length ≤ n := by
      have hbytes := length_answerBytes_le hlegal
      simp only [List.length_append, pullSize] at hbytes ⊢
      omega
    refine ⟨(answerExact_ends n out ans _).serving h.resetIn h.words hn fun _ => hfb, ?_⟩
    have hserve := serveFlight_of_rdex hf
    rw [hfb, List.append_nil, hc] at hserve
    rw [hserve]
    exact serveFlight_answerExact (s := { s with chan := chan, tick := tick }) hfb hlt hle

/-- A step changes nothing of what the run comes to (R115). -/
theorem Serving.step {s t : State} (h : Serving s) (ht : step s = .next t) :
    Serving t ∧ outcome t = outcome s := by
  rcases step_cases s with ⟨hreset, -⟩ | ⟨-, -, -, hs⟩ | ⟨-, f, ans, rest, hf, hc, hs⟩ |
    ⟨-, -, -, hs⟩ | ⟨-, hf, w, rest, hw, hs⟩
  · cases h.resetIn.symm.trans hreset
  · cases hs.symm.trans ht
    exact ⟨h, rfl⟩
  · rw [hs] at ht
    rcases channelAnswer_cases f ans (takeAnswer rest s) with ⟨hlegal, hans⟩ | ⟨-, hans⟩
    · cases hans.symm.trans ht
      obtain ⟨hserving, hserve⟩ := serving_of_answer h hf hc (s.tick + 1) hlegal
      refine ⟨hserving, ?_⟩
      rw [outcome, answerFlight_cmds, outcome, ← hserve]
      rfl
    · cases hans.symm.trans ht
  · cases hs.symm.trans ht
    exact ⟨h, rfl⟩
  · rw [hs] at ht
    have hwords := h.words
    rw [hw] at hwords
    obtain ⟨hword, hrest⟩ := List.forall_mem_cons.1 hwords
    obtain ⟨hserving, hcmds, hserve⟩ := serving_of_word (s := acceptCommand rest s) h.resetIn hrest
      hf hword ht
    refine ⟨hserving, ?_⟩
    rw [outcome, hserve, hcmds, outcome_of_idle hf, hw]
    rfl

theorem Serving.run {k : Nat} {s t : State} (h : Serving s)
    (ht : Host.Core.run Sys2Proof.core k s = .next t) : outcome t = outcome s := by
  induction k generalizing s with
  | zero =>
    cases ht
    rfl
  | succ k ih =>
    obtain ⟨u, hstep, hrun⟩ := step_of_run_succ (M := Sys2Proof.core) ht
    obtain ⟨hserving, hsame⟩ := h.step hstep
    exact (ih hserving hrun).trans hsame

/-- A run that completed is what it came to. -/
theorem outcome_of_completed {s : State} (hf : s.flight = none) (hw : s.cmds = []) :
    outcome s = (s.settled, s.stream) := by
  rw [outcome_of_idle hf, hw]
  rfl

/-- Settles O53: both runs come to what the stream says, and the stream does not show the cuts. -/
theorem deliveryDoesNotDependOnChunks : Obligations.DeliveryDoesNotDependOnChunks := by
  intro s c₁ c₂ k₁ k₂ t₁ t₂ hf hr hw hevents hrun₁ hrun₂ hf₁ hw₁ hf₂ hw₂
  have hserving (c : List ChanAnswer) : Serving { s with chan := c } :=
    ⟨hr, hw, fun f hf' => by cases hf.symm.trans hf'⟩
  have hcuts : outcome { s with chan := c₁ } = outcome { s with chan := c₂ } := by
    rw [outcome_of_idle (s := { s with chan := c₁ }) hf,
      outcome_of_idle (s := { s with chan := c₂ }) hf]
    simp only [State.stream, hevents]
    rfl
  have hends : (t₁.settled, t₁.stream) = (t₂.settled, t₂.stream) := by
    rw [← outcome_of_completed hf₁ hw₁, ← outcome_of_completed hf₂ hw₂, (hserving c₁).run hrun₁,
      hcuts, (hserving c₂).run hrun₂]
  obtain ⟨hsettled, hstream⟩ := Prod.mk.inj hends
  rw [State.stream, State.stream, held_of_idle hf₁, held_of_idle hf₂] at hstream
  have hfield {α : Type} (field : State → α) : field t₁.settled = field t₂.settled :=
    congrArg field hsettled
  exact ⟨hfield State.resp, hfield State.last, hfield State.rlen, hfield State.clen,
    hfield State.record, hfield State.coded, hstream⟩

end Sys2Proof.Machine
